-- ==== Sys2Proof/Word.lean ====
section
/-! DEFINITION. The word types of the JX11 voice core (spec/00_scope.md R8, R9; spec/20_memory.md R80–R82). -/
namespace Sys2Proof

/-- The parameters of R7 that are sizes. They shape the types below and the state, so a claim ranges over no other value of
them (log 6). -/
structure Sizes where
  /-- MAX_VOICES (R2). -/
  maxVoices : Nat
  /-- OSC_PER_VOICE (R2). -/
  oscPerVoice : Nat
  /-- BLOCK_MAX: the most samples one RENDER makes, and the words of each output RAM (R60, R124). -/
  blockMax : Nat
  /-- ADDR_BITS: the width of a byte address (R80). -/
  addrBits : Nat
  /-- DATA_BITS: the width of a transaction's word (R81). -/
  dataBits : Nat
deriving DecidableEq, Repr

/-- The sizes of the machine: R7's values. -/
abbrev Sizes.machine : Sizes where
  maxVoices := 8
  oscPerVoice := 2
  blockMax := 8192
  addrBits := 17
  dataBits := 32

/-- One byte lane of the register space (R82). -/
abbrev Byte := BitVec 8

/-- The 32-bit word every transaction moves (R81). Read as `u32` or `i32` where a rule says so (R9). -/
abbrev Word := BitVec Sizes.machine.dataBits

/-- An IEEE 754 binary32 datum, held as its encoding: sign bit 31, exponent 30:23, fraction 22:0 (R9). -/
abbrev F32 := BitVec 32

/-- A 17-bit byte address (R80, ADDR_BITS = 17). -/
abbrev Addr := BitVec Sizes.machine.addrBits

end Sys2Proof
end

