-- ==== Sys2Proof/Machine/Float.lean ====
section
/-! DEFINITION. The binary32 primitives of spec/00_scope.md R10 and R12, each the exact result rounded once. -/
namespace Sys2Proof
namespace F32

/-! Every finite binary32 value is a whole number of units of 2^-149 (the least subnormal). The primitives compute the exact
result as a whole number or a quotient of whole numbers in that unit, and round it once. -/

/-- The sign bit, bit 31 (R9). -/
def signBit (a : F32) : Bool := a.getLsbD 31

/-- The exponent field, bits 30:23 (R9). -/
def expField (a : F32) : Nat := (a.extractLsb' 23 8).toNat

/-- The fraction field, bits 22:0 (R9). -/
def fracField (a : F32) : Nat := (a.extractLsb' 0 23).toNat

/-- `isNaN` of R12, read from the encoding. -/
def isNaN (a : F32) : Bool := expField a == 255 && fracField a != 0

/-- `isInf` of R12, read from the encoding. -/
def isInf (a : F32) : Bool := expField a == 255 && fracField a == 0

/-- Neither a NaN nor an infinity. -/
def isFinite (a : F32) : Bool := expField a != 255

/-- The magnitude in units of 2^-149: exact for a finite value, and above every finite magnitude for an infinity. -/
def mag (a : F32) : Nat :=
  if expField a = 0 then fracField a else (2 ^ 23 + fracField a) * 2 ^ (expField a - 1)

/-- The signed value in units of 2^-149. -/
def units (a : F32) : Int := if signBit a then -(mag a : Int) else (mag a : Int)

/-- The canonical quiet NaN (R10). -/
def canonNaN : F32 := 0x7FC00000#32

/-- The zero of a sign. -/
def zero (neg : Bool) : F32 := if neg then 0x80000000#32 else 0x00000000#32

/-- The infinity of a sign. -/
def inf (neg : Bool) : F32 := if neg then 0xFF800000#32 else 0x7F800000#32

/-- The whole number nearest to `n / d`, a tie going to the even one (R10). -/
def rneDiv (n d : Nat) : Nat :=
  if 2 * (n % d) < d then n / d
  else if d < 2 * (n % d) then n / d + 1
  else n / d + n / d % 2

/-- How many binary digits below the 24 kept the magnitude `num / den` (in units of 2^-149) has; a magnitude below 2^24
units is a subnormal or of the least exponent and keeps them all. -/
def quantum (num den : Nat) : Nat := (num / den).log2 - 23

/-- The encoding, without sign, of the magnitude `num / den` in units of 2^-149 rounded to nearest, ties to even. Adding the
rounded significand into the exponent place carries a significand that reaches 2^24 into the next exponent. -/
def roundMag (num den : Nat) : Nat :=
  quantum num den * 2 ^ 23 + rneDiv num (den * 2 ^ quantum num den)

/-- The rounded binary32 of sign `neg` and magnitude `num / den` units; overflow gives the infinity (R10). -/
def round (neg : Bool) (num den : Nat) : F32 :=
  if roundMag num den < 0x7F800000 then BitVec.ofNat 32 (roundMag num den) ||| zero neg else inf neg

/-- IEEE 754 addition (R10): an exact zero sum is -0 only when both operands are negative (log 12). -/
def fadd (a b : F32) : F32 :=
  if isNaN a || isNaN b then canonNaN
  else if isInf a then (if isInf b && signBit a != signBit b then canonNaN else a)
  else if isInf b then b
  else if units a + units b = 0 then zero (signBit a && signBit b)
  else round (units a + units b < 0) (units a + units b).natAbs 1

/-- Negation: bit 31 flipped, exact on every pattern (R10). -/
def fneg (a : F32) : F32 := a ^^^ 0x80000000#32

/-- IEEE 754 subtraction (R10). -/
def fsub (a b : F32) : F32 := fadd a (fneg b)

/-- IEEE 754 multiplication (R10); the product of two magnitudes is in units of 2^-298. -/
def fmul (a b : F32) : F32 :=
  let neg := signBit a != signBit b
  if isNaN a || isNaN b then canonNaN
  else if isInf a || isInf b then (if mag a = 0 ∨ mag b = 0 then canonNaN else inf neg)
  else round neg (mag a * mag b) (2 ^ 149)

/-- IEEE 754 division (R10): 0/0 and infinity/infinity are NaN, a finite nonzero value over 0 is the infinity. -/
def fdiv (a b : F32) : F32 :=
  let neg := signBit a != signBit b
  if isNaN a || isNaN b then canonNaN
  else if isInf a then (if isInf b then canonNaN else inf neg)
  else if isInf b then zero neg
  else if mag b = 0 then (if mag a = 0 then canonNaN else inf neg)
  else round neg (mag a * 2 ^ 149) (mag b)

/-- The binary32 of a whole number, rounded to nearest even (R10); +0.0 for 0. -/
def ofInt (n : Int) : F32 := round (n < 0) (n.natAbs * 2 ^ 149) 1

/-- `i2f`: the `i32` a word holds, as binary32 (R10). -/
def i2f (w : Word) : F32 := ofInt w.toInt

/-- roundToIntegralTowardNegative (R10): a zero, an infinity and a NaN are returned, the NaN made canonical. -/
def ffloor (a : F32) : F32 :=
  if isNaN a then canonNaN
  else if isInf a || mag a = 0 then a
  else ofInt (units a / 2 ^ 149)

/-- `<`, the quiet comparison of R12: false for a NaN, and -0 equals +0. -/
def flt (a b : F32) : Bool := !isNaN a && !isNaN b && decide (units a < units b)

/-- `<=` of R12. -/
def fle (a b : F32) : Bool := !isNaN a && !isNaN b && decide (units a ≤ units b)

/-- `>` of R12. -/
def fgt (a b : F32) : Bool := flt b a

/-- `>=` of R12. -/
def fge (a b : F32) : Bool := fle b a

/-- `clamp(x, lo, hi)` of R12; a NaN passes through. -/
def clamp (x lo hi : F32) : F32 := if flt x lo then lo else if fgt x hi then hi else x

/-- +0.0. -/
abbrev f0 : F32 := 0x00000000#32
/-- 0.5. -/
abbrev fHalf : F32 := 0x3F000000#32
/-- 1.0. -/
abbrev f1 : F32 := 0x3F800000#32
/-- -1.0. -/
abbrev fNeg1 : F32 := 0xBF800000#32
/-- 2.0. -/
abbrev f2 : F32 := 0x40000000#32
/-- 16777216.0, that is 2^24 (R170). -/
abbrev f2p24 : F32 := 0x4B800000#32

end F32
end Sys2Proof
end

