-- ==== Sys2Proof/Config.lean ====
section
/-! DEFINITION. The implementation parameters of spec/00_scope.md R7, and the two open functions FSIN and FCOS of R11. -/
namespace Sys2Proof

/-- Which samples a muted sample takes with it (spec/45_engine.md R267, parameter MUTE_SCOPE). -/
inductive MuteScope where
  /-- Only the offending sample is muted (the default). -/
  | sample
  /-- One muted sample mutes every word its channel got from this RENDER. -/
  | channelBlock
deriving DecidableEq, Repr

/-- The parameters of R7, one field a row of its table (the float format, binary32, is the type `F32`). The sizes are the part
`Sizes`, whose values the types have built in (log 6). The datapath's definitions take a `Config`, so that a claim may range
over every value of the other fields; the machine runs under `Config.machine`. -/
structure Config extends Sizes where
  /-- ATTACK_TARGET: the envelope target that means "in attack" (R184, R185). -/
  attackTarget : F32
  /-- ATTACK_DONE: the threshold of the attack's end (R180). -/
  attackDone : F32
  /-- SILENCE: the floor of `isActive` (R183). -/
  silence : F32
  /-- MIN_PERIOD: a reseed with a smaller period sets PLOW (R211). -/
  minPeriod : F32
  /-- RESEED_T: the phase at or below which an oscillator reseeds (R210). -/
  reseedT : F32
  /-- NEAR_ZERO_SQ: at or below it a squared phase counts as zero (R211). -/
  nearZeroSq : F32
  /-- PI (R211, R216). -/
  pi : F32
  /-- PI_OVER_4 (R246). -/
  piOver4 : F32
  /-- LEAK: the pole of the leaky integrator (R240, R242). -/
  leak : F32
  /-- PAN_CENTER (R246). -/
  panCenter : F32
  /-- PAN_SPAN (R246). -/
  panSpan : F32
  /-- PAN_C: the centre pan gain of the resets (R46, R245). -/
  panC : F32
  /-- NOISE_A: the multiplier of the noise generator (R170). -/
  noiseA : Word
  /-- NOISE_C: the increment of the noise generator (R170). -/
  noiseC : Word
  /-- NOISE_SEED (R171). -/
  noiseSeed : Word
  /-- MUTE_LIMIT (R267). -/
  muteLimit : F32
  /-- CLIP_LIMIT (R267). -/
  clipLimit : F32
  /-- MUTE_SCOPE (R267). -/
  muteScope : MuteScope
  /-- MONO_SCALE (R265). -/
  monoScale : F32
  /-- ID_WORD: what ID reads as (R31). -/
  idWord : Word
  /-- FSIN (R11). -/
  fsin : F32 → F32
  /-- FCOS (R11). -/
  fcos : F32 → F32

/-- FSIN, a total function of its operand about which nothing else is known (R11, decision D4; log 4). -/
opaque Config.FSIN : F32 → F32

/-- FCOS, as FSIN (R11, decision D4; log 4). -/
opaque Config.FCOS : F32 → F32

/-- The configuration of the machine: R7's values, FSIN and FCOS left open (log 6). -/
def Config.machine : Config where
  toSizes := Sizes.machine
  attackTarget := 0x40000000#32
  attackDone := 0x40400000#32
  silence := 0x38D1B717#32
  minPeriod := 0x40C00000#32
  reseedT := 0x3F490FDB#32
  nearZeroSq := 0x3089705F#32
  pi := 0x40490FDB#32
  piOver4 := 0x3F490FDB#32
  leak := 0x3F7F3B64#32
  panCenter := 0x42700000#32
  panSpan := 0x41C00000#32
  panC := 0x3F3504F3#32
  noiseA := 196314165#32
  noiseC := 907633515#32
  noiseSeed := 22222#32
  muteLimit := 0x40000000#32
  clipLimit := 0x3F800000#32
  muteScope := .sample
  monoScale := 0x3F000000#32
  idWord := 0x4A583131#32
  fsin := Config.FSIN
  fcos := Config.FCOS

/-! The sizes that the types and counts of the model are made of are the machine's (`Config.machine.maxVoices` and so on:
`Config.machine_sizes` in Laws/Config.lean). -/

/-- MAX_VOICES (R2, R7). -/
abbrev maxVoices : Nat := Sizes.machine.maxVoices

/-- OSC_PER_VOICE (R2, R7). -/
abbrev oscPerVoice : Nat := Sizes.machine.oscPerVoice

/-- BLOCK_MAX, the most samples one RENDER makes and the words of each output RAM (R7, R60, R124). -/
abbrev blockMax : Nat := Sizes.machine.blockMax

end Sys2Proof
end

