-- ==== Sys2Proof/Syntax.lean ====
section
/-! DEFINITION. The instructions: one constructor per row of spec/opcode_table.json (spec/30_encoding.md R126, spec/40_bus.md R150, R151). -/
namespace Sys2Proof

/-- The eleven commands a host writes to CMD and the two bus transactions. `v` is a voice index, `o` an oscillator index
(R122, R123), `n` a sample count (R124), `addr` a byte address (R80). -/
inductive Instr where
  /-- NOP (R273). -/
  | nop
  /-- ENGINE_RESET (R272). -/
  | engineReset
  /-- NOISE_RESET (R171). -/
  | noiseReset
  /-- ENV_ATTACK `v` (R185). -/
  | envAttack (v : Fin maxVoices)
  /-- ENV_RELEASE `v` (R186). -/
  | envRelease (v : Fin maxVoices)
  /-- ENV_RESET `v` (R188). -/
  | envReset (v : Fin maxVoices)
  /-- OSC_RESET `v`, `o` (R215). -/
  | oscReset (v : Fin maxVoices) (o : Fin oscPerVoice)
  /-- OSC_SYNC `v`, `o` (R216). -/
  | oscSync (v : Fin maxVoices) (o : Fin oscPerVoice)
  /-- VOICE_RESET `v` (R245). -/
  | voiceReset (v : Fin maxVoices)
  /-- VOICE_PAN `v` (R246). -/
  | voicePan (v : Fin maxVoices)
  /-- RENDER `n` (R260). -/
  | render (n : Nat)
  /-- RD `addr`, a bus read (R150). -/
  | rd (addr : Addr)
  /-- WR `addr`, `data`, a bus write (R151). -/
  | wr (addr : Addr) (data : Word)
deriving DecidableEq, Repr

end Sys2Proof
end

