-- ==== Sys2Proof/WellFormed.lean ====
section
/-! DEFINITION. Which instruction terms are the spelling of a transaction (spec/30_encoding.md R121–R124, R128, R131). -/
namespace Sys2Proof

/-- The address of CMD (spec/20_memory.md R84). -/
abbrev cmdAddr : Addr := 0x00004#17

/-- The four command formats of R120. -/
inductive Format where
  | N | V | VO | R
deriving DecidableEq, Repr

/-- The format an opcode selects, and no format for an opcode that R126 does not list. -/
def formatOfOpcode (op : Nat) : Option Format :=
  if op = 0x00 ∨ op = 0x01 ∨ op = 0x02 then some .N
  else if op = 0x10 ∨ op = 0x11 ∨ op = 0x12 ∨ op = 0x30 ∨ op = 0x31 then some .V
  else if op = 0x20 ∨ op = 0x21 then some .VO
  else if op = 0x40 then some .R
  else none

/-- Whether a word is a legal command, read off the formats (R121–R124) and R128's list: a listed opcode, every field
that must be 0 being 0, and N at most BLOCK_MAX. The decoder reads the mask and match columns of R126 instead. -/
def legalCommandWord (w : Word) : Bool :=
  match formatOfOpcode (w.extractLsb' 24 8).toNat with
  | none => false
  | some .N => w.extractLsb' 0 24 == 0#24
  | some .V => w.extractLsb' 3 21 == 0#21
  | some .VO => w.extractLsb' 4 20 == 0#20
  | some .R => w.extractLsb' 16 8 == 0#8 && (w.extractLsb' 0 16).toNat ≤ blockMax

/-- An instruction is well formed when it is the one spelling of a transaction: RENDER's count is at most BLOCK_MAX
(R124), and a write of a legal command word to CMD is spelled as that command (R131: `nop` IS `wr CMD, 0x00000000`). -/
def Instr.wellFormed : Instr → Bool
  | .nop => true
  | .engineReset => true
  | .noiseReset => true
  | .envAttack _ => true
  | .envRelease _ => true
  | .envReset _ => true
  | .oscReset _ _ => true
  | .oscSync _ _ => true
  | .voiceReset _ => true
  | .voicePan _ => true
  | .render n => n ≤ blockMax
  | .rd _ => true
  | .wr addr data => !(addr == cmdAddr && legalCommandWord data)

/-- The instructions that are command words, that is all but the two bus transactions (R126). -/
def Instr.isCommand : Instr → Bool
  | .nop => true
  | .engineReset => true
  | .noiseReset => true
  | .envAttack _ => true
  | .envRelease _ => true
  | .envReset _ => true
  | .oscReset _ _ => true
  | .oscSync _ _ => true
  | .voiceReset _ => true
  | .voicePan _ => true
  | .render _ => true
  | .rd _ => false
  | .wr _ _ => false

end Sys2Proof
end

