-- ==== Sys2Proof/Decode.lean ====
section
/-! DEFINITION. The decoder of command words and of bus requests, then the encoder (spec/30_encoding.md R120–R128, R131). -/
namespace Sys2Proof

/-- One bus transaction as the host presents it: its address and, for a write, its word (spec/40_bus.md R150, R151). -/
inductive BusRequest where
  | read (addr : Addr)
  | write (addr : Addr) (data : Word)
deriving DecidableEq, Repr

/-- One row of the opcode map: format, match and mask columns, and the command the row's operands make (R126). -/
structure OpcodeRow where
  format : Format
  pattern : Word
  mask : Word
  command : Fin maxVoices → Fin oscPerVoice → Nat → Instr

/-- The opcode map of R126, row for row. -/
def opcodeMap : List OpcodeRow :=
  [⟨.N, 0x00000000#32, 0xFFFFFFFF#32, fun _ _ _ => .nop⟩,
   ⟨.N, 0x01000000#32, 0xFFFFFFFF#32, fun _ _ _ => .engineReset⟩,
   ⟨.N, 0x02000000#32, 0xFFFFFFFF#32, fun _ _ _ => .noiseReset⟩,
   ⟨.V, 0x10000000#32, 0xFFFFFFF8#32, fun v _ _ => .envAttack v⟩,
   ⟨.V, 0x11000000#32, 0xFFFFFFF8#32, fun v _ _ => .envRelease v⟩,
   ⟨.V, 0x12000000#32, 0xFFFFFFF8#32, fun v _ _ => .envReset v⟩,
   ⟨.VO, 0x20000000#32, 0xFFFFFFF0#32, fun v o _ => .oscReset v o⟩,
   ⟨.VO, 0x21000000#32, 0xFFFFFFF0#32, fun v o _ => .oscSync v o⟩,
   ⟨.V, 0x30000000#32, 0xFFFFFFF8#32, fun v _ _ => .voiceReset v⟩,
   ⟨.V, 0x31000000#32, 0xFFFFFFF8#32, fun v _ _ => .voicePan v⟩,
   ⟨.R, 0x40000000#32, 0xFFFF0000#32, fun _ _ n => .render n⟩]

/-- A word selects a row when `(w & mask) = match` (R126). -/
def OpcodeRow.selects (r : OpcodeRow) (w : Word) : Bool := w &&& r.mask == r.pattern

/-- V = w[2:0] (R125). -/
def voiceField (w : Word) : Fin maxVoices := Fin.ofNat maxVoices (w.extractLsb' 0 3).toNat

/-- O = w[3] (R125). -/
def oscField (w : Word) : Fin oscPerVoice := Fin.ofNat oscPerVoice (w.extractLsb' 3 1).toNat

/-- N = w[15:0] (R125). -/
def countField (w : Word) : Nat := (w.extractLsb' 0 16).toNat

/-- Why a word is no legal command: R128's three kinds. -/
inductive IllegalWord where
  | unassignedOpcode
  | reservedFieldNotZero
  | renderTooLong
deriving DecidableEq, Repr

/-- What a word written to CMD decodes to: exactly one command, or ILLEGAL (R127). -/
inductive Decoded where
  | command (i : Instr)
  | illegal (why : IllegalWord)
deriving DecidableEq, Repr

/-- The decoder of R127. -/
def decodeCommand (w : Word) : Decoded :=
  match opcodeMap.find? (fun r => r.selects w) with
  | some r =>
    if r.format = .R ∧ countField w > blockMax then .illegal .renderTooLong
    else .command (r.command (voiceField w) (oscField w) (countField w))
  | none =>
    if (formatOfOpcode (w.extractLsb' 24 8).toNat).isSome then .illegal .reservedFieldNotZero
    else .illegal .unassignedOpcode

/-- The instruction a bus request stands for: a write of a legal command word to CMD is that command (R131, R153), any
other request is RD or WR itself. Total: an illegal word stays a WR to CMD, whose one effect is ILLEGAL (R128). -/
def decodeRequest : BusRequest → Instr
  | .read a => .rd a
  | .write a w =>
    if a = cmdAddr then
      match decodeCommand w with
      | .command i => i
      | .illegal _ => .wr a w
    else .wr a w

/-- A format V word: the opcode's match value and V in bits 2:0 (R122). -/
def wordV (pattern : Word) (v : Fin maxVoices) : Word := pattern ||| BitVec.ofNat 32 v.val

/-- A format VO word: the opcode's match value, O in bit 3 and V in bits 2:0 (R123). -/
def wordVO (pattern : Word) (v : Fin maxVoices) (o : Fin oscPerVoice) : Word :=
  pattern ||| (BitVec.ofNat 32 o.val <<< 3) ||| BitVec.ofNat 32 v.val

/-- A format R word: the opcode's match value and N in bits 15:0 (R124). -/
def wordR (pattern : Word) (n : Nat) : Word := pattern ||| BitVec.ofNat 32 n

/-- The bus request of an instruction: the command's word written to CMD, or the transaction itself (R131). -/
def encode : Instr → BusRequest
  | .nop => .write cmdAddr 0x00000000#32
  | .engineReset => .write cmdAddr 0x01000000#32
  | .noiseReset => .write cmdAddr 0x02000000#32
  | .envAttack v => .write cmdAddr (wordV 0x10000000#32 v)
  | .envRelease v => .write cmdAddr (wordV 0x11000000#32 v)
  | .envReset v => .write cmdAddr (wordV 0x12000000#32 v)
  | .oscReset v o => .write cmdAddr (wordVO 0x20000000#32 v o)
  | .oscSync v o => .write cmdAddr (wordVO 0x21000000#32 v o)
  | .voiceReset v => .write cmdAddr (wordV 0x30000000#32 v)
  | .voicePan v => .write cmdAddr (wordV 0x31000000#32 v)
  | .render n => .write cmdAddr (wordR 0x40000000#32 n)
  | .rd a => .read a
  | .wr a w => .write a w

/-- The instruction read from a table row's word: the 32-bit command word `w` written to CMD. RD and WR are bus
transactions, not words (R150, R151), so the table gives them no bits and no word stands for them (log 16). -/
def decodeTableWord (nbits w : Nat) : Option Instr :=
  if 0 < nbits ∧ nbits ≤ 32 then
    match decodeCommand (BitVec.ofNat 32 w) with
    | .command i => some i
    | .illegal _ => none
  else none

end Sys2Proof
end

