-- ==== Sys2Proof/Machine/State.lean ====
section
/-! DEFINITION. The state of the block as plain data, its reset value, and the (empty) reasons to stop
(spec/10_state.md R30–R66, spec/70_reset_and_hazards.md R330). -/
namespace Sys2Proof.Machine

/-- The envelope phase that ENV_STATE shows (R48). -/
inductive EnvPhase where
  | idle
  | attack
  | decaySustain
  | release
deriving DecidableEq, Repr

/-- One oscillator's registers (R55–R58). -/
structure Osc where
  period : F32
  amplitude : F32
  modulation : F32
  phase : F32
  phaseMax : F32
  inc : F32
  sin0 : F32
  sin1 : F32
  dsin : F32
deriving DecidableEq, Repr

/-- One envelope's registers (R48–R50); `phase` is ENV_STATE. -/
structure Env where
  phase : EnvPhase
  level : F32
  target : F32
  mult : F32
  attack : F32
  decay : F32
  sustain : F32
  release : F32
deriving DecidableEq, Repr

/-- One voice's registers (R45–R47), its envelope and its two oscillators (R2). -/
structure Voice where
  note : Word
  panL : F32
  panR : F32
  saw : F32
  env : Env
  osc : Vector Osc oscPerVoice
deriving DecidableEq, Repr

/-- The output RAMs: (byte address, byte) pairs, addresses strictly rising, no entry equal to what an unlisted address
reads as (R60, spec/20_memory.md R82, R86; log 7). -/
abbrev Memory := List Host.Cell

/-- What a RAM byte that nothing has written reads as: power-on clears every word (R60). -/
def Memory.unlisted : Byte := 0#8

/-- What the outside presents to the block: a transaction of the host, or the platform's power-on reset (R330). -/
inductive HostInput where
  | bus (r : BusRequest)
  | powerOnReset
deriving DecidableEq, Repr

/-- The block's state (R30) and the two fields through which the outside is seen. ID, CMD and the two masks hold nothing of
their own (R31, R32, R36; log 18). -/
structure State where
  /-- G.ARG (R33). -/
  arg : Word
  /-- G.STATUS, bits 6:0 (R34; log 8). -/
  status : BitVec 7
  /-- G.CTRL, bit 0 (R35; log 8). -/
  ctrl : BitVec 1
  /-- G.BLOCK_LEN (R37). -/
  blockLen : Word
  /-- G.NOISE_STATE (R38). -/
  noiseState : Word
  /-- G.NOISE_MIX (R39). -/
  noiseMix : F32
  /-- G.OUT_TARGET (R40). -/
  outTarget : F32
  /-- G.OUT_MUL (R40). -/
  outMul : F32
  /-- G.OUT_GAIN (R41). -/
  outGain : F32
  /-- V[0]..V[7] (R2). -/
  voices : Vector Voice maxVoices
  /-- OUT_L and OUT_R (R60). -/
  mem : Memory
  /-- The model's own: what the outside has still to present, oldest first (log 1, log 3). -/
  pending : List HostInput
  /-- The model's own: the words the completed RD transactions returned, oldest first (R336; log 2). -/
  reads : List Word
deriving DecidableEq, Repr

/-- Nothing stops the block (spec/60_exceptions.md R310: no trap, "Nothing in this core is fatal"), so there is no fault:
every abnormal event is a STATUS bit (R300, R301; log 14). -/
inductive Fault : Type
deriving DecidableEq, Repr

/-- The reasons a step has no meaning. -/
inductive Refusal where
  /-- Raised only by an arm of `exec` whose instruction has no meaning yet; safe. No arm does (log 14). -/
  | notModelled (mnemonic : String)
deriving DecidableEq, Repr

/-- An oscillator after power-on (R55–R58). -/
def Osc.reset : Osc where
  period := 0x00000000#32
  amplitude := 0x3F800000#32
  modulation := 0x3F800000#32
  phase := 0x00000000#32
  phaseMax := 0x00000000#32
  inc := 0x00000000#32
  sin0 := 0x00000000#32
  sin1 := 0x00000000#32
  dsin := 0x00000000#32

/-- An envelope after power-on (R48–R50). -/
def Env.reset : Env where
  phase := .idle
  level := 0x00000000#32
  target := 0x00000000#32
  mult := 0x00000000#32
  attack := 0x00000000#32
  decay := 0x00000000#32
  sustain := 0x00000000#32
  release := 0x00000000#32

/-- A voice after power-on (R45–R47). -/
def Voice.reset : Voice where
  note := 0x00000000#32
  panL := Config.machine.panC
  panR := Config.machine.panC
  saw := 0x00000000#32
  env := Env.reset
  osc := Vector.replicate oscPerVoice Osc.reset

/-- The block after power-on reset, nothing presented to it yet (R330). -/
def State.reset : State where
  arg := 0x00000000#32
  status := 0#7
  ctrl := 0#1
  blockLen := 0x00000000#32
  noiseState := Config.machine.noiseSeed
  noiseMix := 0x00000000#32
  outTarget := 0x3F800000#32
  outMul := 0x00000000#32
  outGain := 0x3F800000#32
  voices := Vector.replicate maxVoices Voice.reset
  mem := []
  pending := []
  reads := []

end Sys2Proof.Machine
end

