-- ==== Sys2Proof/Machine/Flags.lean ====
section
/-! DEFINITION. The event bits of STATUS (spec/60_exceptions.md R300–R302) and the two envelope predicates
(spec/42_envelope.md R183, R184). -/
namespace Sys2Proof.Machine

/-- The seven events, in the order of their codes (R301). -/
inductive Event where
  | illegal
  | buserr
  | haz
  | plow
  | clipped
  | muted
  | nonfinite
deriving DecidableEq, Repr

/-- The code of an event: its bit of STATUS (R34, R301). -/
def Event.code : Event → Nat
  | .illegal => 0
  | .buserr => 1
  | .haz => 2
  | .plow => 3
  | .clipped => 4
  | .muted => 5
  | .nonfinite => 6

/-- The STATUS word in which only this event's bit is set. -/
def Event.mask (e : Event) : BitVec 7 := BitVec.ofNat 7 (2 ^ e.code)

/-- The event's bit, or no bit, according to whether its cause occurred. -/
def Event.maskIf (e : Event) (occurred : Bool) : BitVec 7 := if occurred then e.mask else 0#7

/-- Setting a set of STATUS bits: the only way the block changes STATUS, and all that happens at an event (R300). The block
takes no exception, so this is what stands in the place of an exception's entry (R310). -/
def State.raise (s : State) (events : BitVec 7) : State := { s with status := s.status ||| events }

/-- `flag(B)` of R300. -/
def State.flag (s : State) (e : Event) : State := s.raise e.mask

/-- `if cause: flag(B)`. -/
def State.flagIf (s : State) (e : Event) (cause : Bool) : State := s.raise (e.maskIf cause)

/-- `isActive`: LEVEL above the silence floor, false for a NaN (R183). -/
def Env.isActive (c : Config) (e : Env) : Bool := F32.fgt e.level c.silence

/-- `isInAttack`: TARGET at or above the attack sentinel (R184). -/
def Env.isInAttack (c : Config) (e : Env) : Bool := F32.fge e.target c.attackTarget

end Sys2Proof.Machine
end

