-- ==== Sys2Proof/Machine/Operands.lean ====
section
/-! DEFINITION. The operand of RD and WR: the register or RAM word an address names, and how it may be accessed
(spec/20_memory.md R80–R87, spec/40_bus.md R152). -/
namespace Sys2Proof.Machine

/-- How the host may access a register (the kinds at the head of spec/10_state.md). -/
inductive Access where
  | rw
  | ro
  | wo
  | w1c
deriving DecidableEq, Repr

/-- The registers of one oscillator block (R85). -/
inductive OscReg where
  | period | amplitude | modulation | phase | phaseMax | inc | sin0 | sin1 | dsin
deriving DecidableEq, Repr

/-- The registers of one voice block (R85). -/
inductive VoiceReg where
  | note | panL | panR | saw | envState | envLevel | envTarget | envMult
  | envAttack | envDecay | envSustain | envRelease
  | osc (o : Fin oscPerVoice) (r : OscReg)
deriving DecidableEq, Repr

/-- Everything an address can name (R84–R86). -/
inductive Reg where
  | id | cmd | arg | status | ctrl | blockLen | activeMask | attackMask | noiseState | noiseMix
  | outTarget | outMul | outGain
  | voice (v : Fin maxVoices) (r : VoiceReg)
  | outL (i : Fin blockMax)
  | outR (i : Fin blockMax)
deriving DecidableEq, Repr

/-- Every transaction needs `addr[1:0] = 0` (R83). -/
def aligned (a : Addr) : Bool := a.extractLsb' 0 2 == 0#2

/-- The global register at a byte offset below 0x01000 (R84). -/
def globalAt : Nat → Option Reg
  | 0x00 => some .id
  | 0x04 => some .cmd
  | 0x08 => some .arg
  | 0x0C => some .status
  | 0x10 => some .ctrl
  | 0x14 => some .blockLen
  | 0x18 => some .activeMask
  | 0x1C => some .attackMask
  | 0x20 => some .noiseState
  | 0x24 => some .noiseMix
  | 0x28 => some .outTarget
  | 0x2C => some .outMul
  | 0x30 => some .outGain
  | _ => none

/-- The oscillator register at a byte offset in an oscillator block (R85). -/
def oscAt : Nat → Option OscReg
  | 0x00 => some .period
  | 0x04 => some .amplitude
  | 0x08 => some .modulation
  | 0x10 => some .phase
  | 0x14 => some .phaseMax
  | 0x18 => some .inc
  | 0x1C => some .sin0
  | 0x20 => some .sin1
  | 0x24 => some .dsin
  | _ => none

/-- The register at a byte offset in a voice block; oscillator `o` has its block at +0x40 + 0x40·o (R85). -/
def voiceAt : Nat → Option VoiceReg
  | 0x00 => some .note
  | 0x04 => some .panL
  | 0x08 => some .panR
  | 0x0C => some .saw
  | 0x10 => some .envState
  | 0x20 => some .envLevel
  | 0x24 => some .envTarget
  | 0x28 => some .envMult
  | 0x2C => some .envAttack
  | 0x30 => some .envDecay
  | 0x34 => some .envSustain
  | 0x38 => some .envRelease
  | n => if 0x40 ≤ n ∧ n < 0x80 then (oscAt (n - 0x40)).map (.osc 0)
    else if 0x80 ≤ n ∧ n < 0xC0 then (oscAt (n - 0x80)).map (.osc 1)
    else none

/-- VB(0), the first voice block (R85). -/
abbrev voiceBase : Nat := 0x01000
/-- OUT_L[0] (R86). -/
abbrev outLBase : Nat := 0x10000
/-- OUT_R[0] (R86). -/
abbrev outRBase : Nat := 0x18000
/-- One past the last byte of the address space (R80). -/
abbrev addrEnd : Nat := 2 ^ Sizes.machine.addrBits

/-- What an address names, by the map of R84–R86; none for a misaligned or a reserved address (R83, R87). -/
def regOf (a : Addr) : Option Reg :=
  if !aligned a then none
  else if a.toNat < voiceBase then globalAt a.toNat
  else if a.toNat < voiceBase + 0x100 * maxVoices then
    (voiceAt (a.toNat % 0x100)).map (.voice (Fin.ofNat maxVoices ((a.toNat - voiceBase) / 0x100)))
  else if a.toNat < outLBase then none
  else if a.toNat < outRBase then some (.outL (Fin.ofNat blockMax ((a.toNat - outLBase) / 4)))
  else some (.outR (Fin.ofNat blockMax ((a.toNat - outRBase) / 4)))

/-- An oscillator register's offset in its block (R85). -/
def OscReg.offset : OscReg → Nat
  | .period => 0x00
  | .amplitude => 0x04
  | .modulation => 0x08
  | .phase => 0x10
  | .phaseMax => 0x14
  | .inc => 0x18
  | .sin0 => 0x1C
  | .sin1 => 0x20
  | .dsin => 0x24

/-- A voice register's offset in its block (R85). -/
def VoiceReg.offset : VoiceReg → Nat
  | .note => 0x00
  | .panL => 0x04
  | .panR => 0x08
  | .saw => 0x0C
  | .envState => 0x10
  | .envLevel => 0x20
  | .envTarget => 0x24
  | .envMult => 0x28
  | .envAttack => 0x2C
  | .envDecay => 0x30
  | .envSustain => 0x34
  | .envRelease => 0x38
  | .osc o r => 0x40 + 0x40 * o.val + r.offset

/-- The byte address of a register or RAM word, as a number (R84–R86). -/
def Reg.addrNat : Reg → Nat
  | .id => 0x00000
  | .cmd => 0x00004
  | .arg => 0x00008
  | .status => 0x0000C
  | .ctrl => 0x00010
  | .blockLen => 0x00014
  | .activeMask => 0x00018
  | .attackMask => 0x0001C
  | .noiseState => 0x00020
  | .noiseMix => 0x00024
  | .outTarget => 0x00028
  | .outMul => 0x0002C
  | .outGain => 0x00030
  | .voice v r => voiceBase + 0x100 * v.val + r.offset
  | .outL i => outLBase + 4 * i.val
  | .outR i => outRBase + 4 * i.val

/-- The address of a register or RAM word (R84–R86). -/
def addrOf (r : Reg) : Addr := BitVec.ofNat Sizes.machine.addrBits r.addrNat

/-- The access kind of an oscillator register (R55–R58). -/
def OscReg.access : OscReg → Access
  | .period => .rw
  | .amplitude => .rw
  | .modulation => .rw
  | .phase => .ro
  | .phaseMax => .ro
  | .inc => .ro
  | .sin0 => .ro
  | .sin1 => .ro
  | .dsin => .ro

/-- The access kind of a voice register (R45–R50). -/
def VoiceReg.access : VoiceReg → Access
  | .note => .rw
  | .panL => .ro
  | .panR => .ro
  | .saw => .ro
  | .envState => .ro
  | .envLevel => .ro
  | .envTarget => .ro
  | .envMult => .ro
  | .envAttack => .rw
  | .envDecay => .rw
  | .envSustain => .rw
  | .envRelease => .rw
  | .osc _ r => r.access

/-- The access kind of whatever an address names (R31–R41, R60, R84). -/
def Reg.access : Reg → Access
  | .id => .ro
  | .cmd => .wo
  | .arg => .rw
  | .status => .w1c
  | .ctrl => .rw
  | .blockLen => .ro
  | .activeMask => .ro
  | .attackMask => .ro
  | .noiseState => .ro
  | .noiseMix => .rw
  | .outTarget => .rw
  | .outMul => .rw
  | .outGain => .ro
  | .voice _ r => r.access
  | .outL _ => .ro
  | .outR _ => .ro

/-- The word ENV_STATE shows for a phase (R48). -/
def EnvPhase.code : EnvPhase → Word
  | .idle => 0#32
  | .attack => 1#32
  | .decaySustain => 2#32
  | .release => 3#32

/-- A read is refused when its address is misaligned or reserved (R152). -/
def refusedRead (a : Addr) : Bool := (regOf a).isNone

/-- A write is refused when its address is misaligned or reserved, or names something read-only (R152). -/
def refusedWrite (a : Addr) : Bool :=
  match regOf a with
  | none => true
  | some r => r.access = .ro

end Sys2Proof.Machine
end

