-- ==== Sys2Proof/Machine/Ops.lean ====
section
/-! DEFINITION. The named operations over memory and registers that every instruction goes through: RAM bytes and words,
voice and oscillator access, reading and writing one register, the next input, power-on reset. -/
namespace Sys2Proof.Machine

/-- The byte at an address of the output RAMs. -/
def Memory.readByte : Memory → Nat → Byte
  | [], _ => Memory.unlisted
  | (k, b) :: t, a => if k = a then b else Memory.readByte t a

/-- Storing one byte; the canonical form is kept. -/
def Memory.writeByte : Memory → Nat → Byte → Memory
  | [], a, b => if b = Memory.unlisted then [] else [(a, b)]
  | (k, x) :: t, a, b =>
    if a < k then (if b = Memory.unlisted then (k, x) :: t else (a, b) :: (k, x) :: t)
    else if a = k then (if b = Memory.unlisted then t else (a, b) :: t)
    else (k, x) :: Memory.writeByte t a b

/-- The word at a word address: byte `k` is bits `[8k+7:8k]` (R82). -/
def Memory.readWord (m : Memory) (a : Nat) : Word :=
  m.readByte (a + 3) ++ m.readByte (a + 2) ++ m.readByte (a + 1) ++ m.readByte a

/-- Storing a word, byte `k` at `a + k` (R82). -/
def Memory.writeWord (m : Memory) (a : Nat) (w : Word) : Memory :=
  (((m.writeByte a (w.extractLsb' 0 8)).writeByte (a + 1) (w.extractLsb' 8 8)).writeByte (a + 2)
    (w.extractLsb' 16 8)).writeByte (a + 3) (w.extractLsb' 24 8)

/-- Storing a list of words at consecutive word addresses. -/
def Memory.writeWords : Memory → Nat → List Word → Memory
  | m, _, [] => m
  | m, a, w :: ws => Memory.writeWords (m.writeWord a w) (a + 4) ws

/-- The canonical form: addresses strictly rising, and no entry equal to what an unlisted address reads as. -/
abbrev Memory.wf (m : Memory) : Prop :=
  m.Pairwise (fun x y => x.1 < y.1) ∧ ∀ x ∈ m, x.2 ≠ Memory.unlisted

/-- Only addresses of OUT_L and OUT_R are listed (R86). -/
abbrev Memory.inRam (m : Memory) : Prop := ∀ x ∈ m, outLBase ≤ x.1 ∧ x.1 < addrEnd

/-- V[v].osc[o] (spec/00_scope.md R13). -/
def Voice.oscOf (x : Voice) (o : Fin oscPerVoice) : Osc := x.osc.get o

/-- Replacing V[v].osc[o]. -/
def Voice.setOsc (x : Voice) (o : Fin oscPerVoice) (y : Osc) : Voice := { x with osc := x.osc.set o y }

/-- V[v] (spec/00_scope.md R13). -/
def State.voice (s : State) (v : Fin maxVoices) : Voice := s.voices.get v

/-- Replacing V[v]. -/
def State.setVoice (s : State) (v : Fin maxVoices) (x : Voice) : State := { s with voices := s.voices.set v x }

/-- CTRL.MONO (R35). -/
def State.mono (s : State) : Bool := s.ctrl == 1#1

/-- The voices, in the order every loop over them takes (spec/44_voice.md R244). -/
def voiceOrder : List (Fin maxVoices) := List.finRange maxVoices

/-- One bit a voice, bit `v` being the predicate of voice `v`; bits 31:8 are 0 (R36, R150). -/
def voiceMask (p : Env → Bool) (voices : Vector Voice maxVoices) : Word :=
  voiceOrder.foldl (fun w v => w + if p (voices.get v).env then 1#32 <<< v.val else 0#32) 0#32

/-- The 32-bit contents of an oscillator register (R55–R58). -/
def Osc.readReg (x : Osc) : OscReg → Word
  | .period => x.period
  | .amplitude => x.amplitude
  | .modulation => x.modulation
  | .phase => x.phase
  | .phaseMax => x.phaseMax
  | .inc => x.inc
  | .sin0 => x.sin0
  | .sin1 => x.sin1
  | .dsin => x.dsin

/-- The word a voice register reads as (R45–R50, R150). -/
def Voice.readReg (x : Voice) : VoiceReg → Word
  | .note => x.note
  | .panL => x.panL
  | .panR => x.panR
  | .saw => x.saw
  | .envState => x.env.phase.code
  | .envLevel => x.env.level
  | .envTarget => x.env.target
  | .envMult => x.env.mult
  | .envAttack => x.env.attack
  | .envDecay => x.env.decay
  | .envSustain => x.env.sustain
  | .envRelease => x.env.release
  | .osc o r => (x.oscOf o).readReg r

/-- What a register or RAM word reads as: the case list of `BusRead` (R150). -/
def State.readReg (c : Config) (s : State) : Reg → Word
  | .id => c.idWord
  | .cmd => 0x00000000#32
  | .arg => s.arg
  | .status => s.status.zeroExtend 32
  | .ctrl => s.ctrl.zeroExtend 32
  | .blockLen => s.blockLen
  | .activeMask => voiceMask (Env.isActive c) s.voices
  | .attackMask => voiceMask (Env.isInAttack c) s.voices
  | .noiseState => s.noiseState
  | .noiseMix => s.noiseMix
  | .outTarget => s.outTarget
  | .outMul => s.outMul
  | .outGain => s.outGain
  | .voice v r => (s.voice v).readReg r
  | .outL i => s.mem.readWord (outLBase + 4 * i.val)
  | .outR i => s.mem.readWord (outRBase + 4 * i.val)

/-- Writing an oscillator register verbatim; the RO registers take no write (R154). -/
def Osc.writeReg (x : Osc) (w : Word) : OscReg → Osc
  | .period => { x with period := w }
  | .amplitude => { x with amplitude := w }
  | .modulation => { x with modulation := w }
  | .phase => x
  | .phaseMax => x
  | .inc => x
  | .sin0 => x
  | .sin1 => x
  | .dsin => x

/-- Writing a voice register verbatim; the RO registers take no write (R154). -/
def Voice.writeReg (x : Voice) (w : Word) : VoiceReg → Voice
  | .note => { x with note := w }
  | .panL => x
  | .panR => x
  | .saw => x
  | .envState => x
  | .envLevel => x
  | .envTarget => x
  | .envMult => x
  | .envAttack => { x with env := { x.env with attack := w } }
  | .envDecay => { x with env := { x.env with decay := w } }
  | .envSustain => { x with env := { x.env with sustain := w } }
  | .envRelease => { x with env := { x.env with release := w } }
  | .osc o r => x.setOsc o ((x.oscOf o).writeReg w r)

/-- Writing a register that is no command: the STATUS, CTRL and `other` cases of `BusWrite` (R151, R154–R156). The RO
registers, CMD and the RAM take no write here: `BusWrite` refuses the first and the last and executes the second. -/
def State.writeReg (s : State) (w : Word) : Reg → State
  | .id => s
  | .cmd => s
  | .arg => { s with arg := w }
  | .status => { s with status := s.status &&& ~~~(w.extractLsb' 0 7) }
  | .ctrl => { s with ctrl := w.extractLsb' 0 1 }
  | .blockLen => s
  | .activeMask => s
  | .attackMask => s
  | .noiseState => s
  | .noiseMix => { s with noiseMix := w }
  | .outTarget => { s with outTarget := w }
  | .outMul => { s with outMul := w }
  | .outGain => s
  | .voice v r => s.setVoice v ((s.voice v).writeReg w r)
  | .outL _ => s
  | .outR _ => s

/-- What a read returns, and the state it leaves. -/
structure ReadResult where
  state : State
  word : Word
deriving DecidableEq, Repr

/-- `BusRead` (R150): a refused read returns 0 and flags BUSERR, any other changes nothing. -/
def busRead (c : Config) (s : State) (a : Addr) : ReadResult :=
  match regOf a with
  | none => ⟨s.flag .buserr, 0x00000000#32⟩
  | some r => ⟨s, s.readReg c r⟩

/-- Power-on reset sets every piece of the block's state; what the outside still presents and what it has read are not the
block's (R330; log 3). -/
def powerOn (s : State) : State := { State.reset with pending := s.pending, reads := s.reads }

/-- The next thing presented to the block and the state with it taken off the list; none when the block waits (log 1). -/
def takeInput (s : State) : Option (HostInput × State) :=
  match s.pending with
  | [] => none
  | x :: rest => some (x, { s with pending := rest })

end Sys2Proof.Machine
end

