-- ==== Sys2Proof/Machine/Noise.lean ====
section
/-! DEFINITION. The noise generator and NOISE_RESET (spec/41_noise.md R170–R172). -/
namespace Sys2Proof.Machine

/-- The generator's state after one draw, in `u32` arithmetic (R170). -/
def noiseAdvance (c : Config) (st : Word) : Word := st * c.noiseA + c.noiseC

/-- `t` of R170: the top 25 bits less 2^24, in [-2^24, 2^24). -/
def noiseInt (st : Word) : Int := ((st.extractLsb' 7 25).toNat : Int) - 16777216

/-- The sample a generator state stands for, `t / 2^24` (R170). -/
def noiseSample (st : Word) : F32 := F32.fdiv (F32.i2f (BitVec.ofInt 32 (noiseInt st))) F32.f2p24

/-- NOISE_RESET: NOISE_STATE takes NOISE_SEED and nothing else changes (R171). -/
def noiseReset (c : Config) (s : State) : State := { s with noiseState := c.noiseSeed }

/-- NOISE_RESET (R171). -/
def execNoiseReset (s : State) : Host.Outcome State Fault Refusal := .next (noiseReset Config.machine s)

end Sys2Proof.Machine
end

