-- ==== Sys2Proof/Machine/Envelope.lean ====
section
/-! DEFINITION. The envelope's step and its three commands (spec/42_envelope.md R180–R189). -/
namespace Sys2Proof.Machine

/-- The one-pole form shared by the envelope and the output gain: `fadd(fmul(mult, fsub(x, target)), target)` (R180, and
spec/45_engine.md R264). -/
def onePole (mult x target : F32) : F32 := F32.fadd (F32.fmul mult (F32.fsub x target)) target

/-- The level after one step (R180). -/
def Env.nextLevel (e : Env) : F32 := onePole e.mult e.level e.target

/-- The end of the attack: `fadd(LEVEL, TARGET) > ATTACK_DONE` on the new level (R180). -/
def Env.attackEnds (c : Config) (e : Env) : Bool := F32.fgt (F32.fadd e.nextLevel e.target) c.attackDone

/-- `EnvStep` (R180); the sample's level is the LEVEL it leaves.
DEDUCED: where a derived remark of R190 does not hold of R180 and R10, this step is R180's: a release at 2^-126 (log 19), a
SUSTAIN above LEVEL at the transition (log 20), and a SUSTAIN at or just below SILENCE, where R190 (b) and C6 have the voice
go inactive but LEVEL can stop at a fixed point above SILENCE and stay active (log 21). -/
def Env.step (c : Config) (e : Env) : Env :=
  if e.attackEnds c then
    { e with level := e.nextLevel, mult := e.decay, target := e.sustain, phase := .decaySustain }
  else { e with level := e.nextLevel }

/-- `EnvClear` (R187): the rate registers are kept. -/
def Env.clear (e : Env) : Env := { e with level := F32.f0, target := F32.f0, mult := F32.f0, phase := .idle }

/-- What ENV_ATTACK does to an envelope (R185). -/
def Env.attackFrom (c : Config) (e : Env) : Env :=
  { e with
    level := F32.fadd e.level (F32.fadd c.silence c.silence)
    target := c.attackTarget
    mult := e.attack
    phase := .attack }

/-- What ENV_RELEASE does to an envelope (R186). -/
def Env.releaseFrom (e : Env) : Env := { e with target := F32.f0, mult := e.release, phase := .release }

/-- Replacing the envelope of voice `v`. -/
def State.setEnv (s : State) (v : Fin maxVoices) (e : Env) : State := s.setVoice v { s.voice v with env := e }

/-- ENV_ATTACK `v` (R185), legal in every state. -/
def execEnvAttack (v : Fin maxVoices) (s : State) : Host.Outcome State Fault Refusal :=
  .next (s.setEnv v ((s.voice v).env.attackFrom Config.machine))

/-- ENV_RELEASE `v` (R186), legal in every state. -/
def execEnvRelease (v : Fin maxVoices) (s : State) : Host.Outcome State Fault Refusal :=
  .next (s.setEnv v (s.voice v).env.releaseFrom)

/-- ENV_RESET `v`: an active envelope flags HAZ and is reset all the same (R188). -/
def execEnvReset (v : Fin maxVoices) (s : State) : Host.Outcome State Fault Refusal :=
  .next ((s.flagIf .haz ((s.voice v).env.isActive Config.machine)).setEnv v (s.voice v).env.clear)

end Sys2Proof.Machine
end

