-- ==== Sys2Proof/Machine/Oscillator.lean ====
section
/-! DEFINITION. The band-limited oscillator's step, OSC_RESET and OSC_SYNC (spec/43_oscillator.md R210–R216). -/
namespace Sys2Proof.Machine

/-- What one step of an oscillator gives: its registers, its sample, and whether it flagged PLOW. -/
structure OscResult where
  osc : Osc
  out : F32
  plow : Bool
deriving DecidableEq, Repr

/-- The half period in samples, `fmul(fdiv(PERIOD, 2.0), MODULATION)` (R211). -/
def Osc.halfPeriod (x : Osc) : F32 := F32.fmul (F32.fdiv x.period F32.f2) x.modulation

/-- PHASE_MAX of a reseed: `(floor(0.5 + hp) - 0.5)·PI` (R211). -/
def Osc.reseedPhaseMax (c : Config) (x : Osc) : F32 :=
  F32.fmul (F32.fsub (F32.ffloor (F32.fadd F32.fHalf x.halfPeriod)) F32.fHalf) c.pi

/-- INC of a reseed: the new PHASE_MAX over the half period (R211). -/
def Osc.reseedInc (c : Config) (x : Osc) : F32 := F32.fdiv (x.reseedPhaseMax c) x.halfPeriod

/-- The registers `Reseed` leaves, from those the phase advance left (R211). -/
def Osc.reseeded (c : Config) (x : Osc) : Osc :=
  let phase := F32.fneg x.phase
  let inc := x.reseedInc c
  { x with
    phaseMax := x.reseedPhaseMax c
    inc := inc
    phase := phase
    sin0 := F32.fmul x.amplitude (c.fsin phase)
    sin1 := F32.fmul x.amplitude (c.fsin (F32.fsub phase inc))
    dsin := F32.fmul F32.f2 (c.fcos inc) }

/-- `Reseed` (R211): PLOW unless PERIOD ≥ MIN_PERIOD, the sample SIN0/PHASE, or AMPLITUDE when the phase is near zero. -/
def Osc.reseed (c : Config) (x : Osc) : OscResult :=
  let y := x.reseeded c
  { osc := y
    out := if F32.fgt (F32.fmul y.phase y.phase) c.nearZeroSq then F32.fdiv y.sin0 y.phase else y.amplitude
    plow := !F32.fge x.period c.minPeriod }

/-- Part 1 of `Continue`: the phase folds back at PHASE_MAX and the increment turns (R212). -/
def Osc.reflect (x : Osc) : Osc :=
  if F32.fgt x.phase x.phaseMax then
    { x with phase := F32.fsub (F32.fadd x.phaseMax x.phaseMax) x.phase, inc := F32.fneg x.inc }
  else x

/-- The next term of the sine recurrence (R213). -/
def Osc.nextSin (x : Osc) : F32 := F32.fsub (F32.fmul x.dsin x.sin0) x.sin1

/-- `Continue` (R212, R213). -/
def Osc.continue (x : Osc) : OscResult :=
  let y := x.reflect
  { osc := { y with sin1 := y.sin0, sin0 := y.nextSin }
    out := F32.fdiv y.nextSin y.phase
    plow := false }

/-- The phase advance at the head of `OscStep` (R210). -/
def Osc.advance (x : Osc) : Osc := { x with phase := F32.fadd x.phase x.inc }

/-- `OscStep` (R210). -/
def Osc.step (c : Config) (x : Osc) : OscResult :=
  if F32.fle x.advance.phase c.reseedT then x.advance.reseed c else x.advance.continue

/-- `OscClear` (R214): PERIOD, AMPLITUDE and MODULATION are kept. -/
def Osc.clear (x : Osc) : Osc :=
  { x with
    phase := F32.f0, phaseMax := F32.f0, inc := F32.f0, sin0 := F32.f0, sin1 := F32.f0, dsin := F32.f0 }

/-- The phase OSC_SYNC starts from, by the sign of the companion's INC (R216). -/
def syncPhase (c : Config) (companion : Osc) : F32 :=
  if F32.fgt companion.inc F32.f0 then F32.fsub (F32.fadd companion.phaseMax companion.phaseMax) companion.phase
  else if F32.flt companion.inc F32.f0 then companion.phase
  else F32.fneg c.pi

/-- The increment OSC_SYNC gives, by the sign of the companion's INC (R216). -/
def syncInc (c : Config) (companion : Osc) : F32 :=
  if F32.fgt companion.inc F32.f0 then F32.fneg companion.inc
  else if F32.flt companion.inc F32.f0 then companion.inc
  else c.pi

/-- The phase after the half-cycle shift `π·newPeriod/2` (R216). -/
def syncShifted (c : Config) (companion : Osc) (newPeriod : F32) : F32 :=
  F32.fadd (syncPhase c companion) (F32.fdiv (F32.fmul c.pi newPeriod) F32.f2)

/-- `OscSync` of a target (R216). -/
def Osc.syncTo (c : Config) (target companion : Osc) (newPeriod : F32) : Osc :=
  { target.clear with
    phase := syncShifted c companion newPeriod
    inc := syncInc c companion
    phaseMax := syncShifted c companion newPeriod }

/-- The other oscillator of the same voice, `1 - O` (R216). -/
def companionOf (o : Fin oscPerVoice) : Fin oscPerVoice := if o = 0 then 1 else 0

/-- OSC_RESET `v`, `o` (R215). -/
def execOscReset (v : Fin maxVoices) (o : Fin oscPerVoice) (s : State) : Host.Outcome State Fault Refusal :=
  .next (s.setVoice v ((s.voice v).setOsc o ((s.voice v).oscOf o).clear))

/-- OSC_SYNC `v`, `o`: `newPeriod` is ARG (R216). -/
def execOscSync (v : Fin maxVoices) (o : Fin oscPerVoice) (s : State) : Host.Outcome State Fault Refusal :=
  let x := s.voice v
  .next (s.setVoice v (x.setOsc o ((x.oscOf o).syncTo Config.machine (x.oscOf (companionOf o)) s.arg)))

end Sys2Proof.Machine
end

