-- ==== Sys2Proof/Machine/Voice.lean ====
section
/-! DEFINITION. The voice's step, VOICE_RESET and VOICE_PAN (spec/44_voice.md R240–R246). -/
namespace Sys2Proof.Machine

/-- What one step of a voice gives: its registers, its sample before panning, and whether an oscillator flagged PLOW. -/
structure VoiceResult where
  voice : Voice
  out : F32
  plow : Bool
deriving DecidableEq, Repr

/-- SAW after one step: `fsub(fadd(fmul(SAW, LEAK), s1), s2)` (R240, R242). -/
def integrate (c : Config) (saw s1 s2 : F32) : F32 := F32.fsub (F32.fadd (F32.fmul saw c.leak) s1) s2

/-- `VoiceStep` (R240): osc[0], osc[1], SAW, then the envelope, whose new level scales this sample. -/
def Voice.step (c : Config) (noise : F32) (x : Voice) : VoiceResult :=
  let r1 := (x.oscOf 0).step c
  let r2 := (x.oscOf 1).step c
  let saw := integrate c x.saw r1.out r2.out
  let e := x.env.step c
  { voice := { (x.setOsc 0 r1.osc).setOsc 1 r2.osc with saw := saw, env := e }
    out := F32.fmul (F32.fadd saw noise) e.level
    plow := r1.plow || r2.plow }

/-- What VOICE_RESET and ENGINE_RESET do to a voice's oscillators, integrator and pan gains (R245). -/
def Voice.hardZero (c : Config) (x : Voice) : Voice :=
  { (x.setOsc 0 (x.oscOf 0).clear).setOsc 1 (x.oscOf 1).clear with saw := F32.f0, panL := c.panC, panR := c.panC }

/-- The pan position of a note: `(note - 60)/24` limited to [-1, 1] (R246). -/
def panPosition (c : Config) (note : Word) : F32 :=
  F32.clamp (F32.fdiv (F32.fsub (F32.i2f note) c.panCenter) c.panSpan) F32.fNeg1 F32.f1

/-- PAN_L of a note (R246). -/
def panLeft (c : Config) (note : Word) : F32 := c.fsin (F32.fmul c.piOver4 (F32.fsub F32.f1 (panPosition c note)))

/-- PAN_R of a note (R246). -/
def panRight (c : Config) (note : Word) : F32 := c.fsin (F32.fmul c.piOver4 (F32.fadd F32.f1 (panPosition c note)))

/-- `updatePanning` of a voice (R246). -/
def Voice.panned (c : Config) (x : Voice) : Voice := { x with panL := panLeft c x.note, panR := panRight c x.note }

/-- VOICE_RESET `v`: an active voice flags HAZ and is reset all the same; its envelope is not touched (R245). -/
def execVoiceReset (v : Fin maxVoices) (s : State) : Host.Outcome State Fault Refusal :=
  .next ((s.flagIf .haz ((s.voice v).env.isActive Config.machine)).setVoice v ((s.voice v).hardZero Config.machine))

/-- VOICE_PAN `v` (R246). -/
def execVoicePan (v : Fin maxVoices) (s : State) : Host.Outcome State Fault Refusal :=
  .next (s.setVoice v ((s.voice v).panned Config.machine))

end Sys2Proof.Machine
end

