-- ==== Sys2Proof/Machine/Engine.lean ====
section
/-! DEFINITION. RENDER, ENGINE_RESET and NOP (spec/45_engine.md R260–R273). -/
namespace Sys2Proof.Machine

/-- The two accumulators of a sample's mix, with the voices and the PLOW flag so far (R263). -/
structure MixResult where
  voices : Vector Voice maxVoices
  left : F32
  right : F32
  plow : Bool
deriving DecidableEq, Repr

/-- One voice's turn in the mix: an active voice steps and its panned output is added; an inactive one is passed over (R263). -/
def mixVoice (c : Config) (noise : F32) (m : MixResult) (v : Fin maxVoices) : MixResult :=
  let x := m.voices.get v
  if x.env.isActive c then
    let r := x.step c noise
    { voices := m.voices.set v r.voice
      left := F32.fadd m.left (F32.fmul r.out x.panL)
      right := F32.fadd m.right (F32.fmul r.out x.panR)
      plow := m.plow || r.plow }
  else m

/-- `Mix` (R263). -/
def mix (c : Config) (noise : F32) (voices : Vector Voice maxVoices) : MixResult :=
  voiceOrder.foldl (mixVoice c noise) ⟨voices, F32.f0, F32.f0, false⟩

/-- The left and right word of one sample. -/
structure Frame where
  left : F32
  right : F32
deriving DecidableEq, Repr

/-- The state after one sample and the sample itself. -/
structure SampleResult where
  state : State
  frame : Frame
deriving DecidableEq, Repr

/-- One turn of the sample loop up to the output write: the noise draw (R262), the mix (R263), the gain (R264). -/
def renderSample (c : Config) (s : State) : SampleResult :=
  let st := noiseAdvance c s.noiseState
  let m := mix c (F32.fmul (noiseSample st) s.noiseMix) s.voices
  let g := onePole s.outMul s.outGain s.outTarget
  { state := { s.flagIf .plow m.plow with noiseState := st, voices := m.voices, outGain := g }
    frame := ⟨F32.fmul m.left g, F32.fmul m.right g⟩ }

/-- The state after the sample loop and its samples in order. -/
structure BlockResult where
  state : State
  frames : List Frame
deriving DecidableEq, Repr

/-- The sample loop of R260. The samples are kept aside until the clamp has passed over them: what stands in the output RAM
inside the command cannot be observed (spec/10_state.md R64; log 11). -/
def renderLoop (c : Config) : Nat → State → BlockResult
  | 0, s => ⟨s, []⟩
  | n + 1, s =>
    let r := renderSample c s
    let b := renderLoop c n r.state
    ⟨b.state, r.frame :: b.frames⟩

/-- The word mono mode writes to OUT_L (R265). -/
def Frame.mono (c : Config) (f : Frame) : F32 := F32.fmul (F32.fadd f.left f.right) c.monoScale

/-- The word `Sane` puts in the place of `x` (R267). -/
def saneWord (c : Config) (x : F32) : F32 :=
  if F32.isNaN x || F32.isInf x then F32.f0
  else if F32.fgt x c.muteLimit || F32.flt x (F32.fneg c.muteLimit) then F32.f0
  else if F32.fgt x c.clipLimit then c.clipLimit
  else if F32.flt x (F32.fneg c.clipLimit) then F32.fneg c.clipLimit
  else x

/-- The STATUS bits `Sane` flags for `x` (R267). -/
def saneEvents (c : Config) (x : F32) : BitVec 7 :=
  if F32.isNaN x || F32.isInf x then Event.muted.mask ||| Event.nonfinite.mask
  else if F32.fgt x c.muteLimit || F32.flt x (F32.fneg c.muteLimit) then Event.muted.mask
  else if F32.fgt x c.clipLimit then Event.clipped.mask
  else if F32.flt x (F32.fneg c.clipLimit) then Event.clipped.mask
  else 0#7

/-- The STATUS bits the clamp flags over one channel (R267). -/
def channelEvents (c : Config) (ws : List F32) : BitVec 7 := ws.foldl (fun e x => e ||| saneEvents c x) 0#7

/-- The words the clamp leaves in one channel, under either MUTE_SCOPE (R267). -/
def channelWords (c : Config) (ws : List F32) : List F32 :=
  match c.muteScope with
  | .sample => ws.map (saneWord c)
  | .channelBlock =>
    if ws.any (fun x => saneEvents c x &&& Event.muted.mask != 0#7) then ws.map (fun _ => F32.f0)
    else ws.map (saneWord c)

/-- Writing one channel's clamped words from index 0 of its RAM (R265, R267). -/
def putChannel (c : Config) (base : Nat) (ws : List F32) (s : State) : State :=
  { s.raise (channelEvents c ws) with mem := s.mem.writeWords base (channelWords c ws) }

/-- `WriteOut` and `SafetyClamp` over the block: both RAMs in stereo, only OUT_L in mono (R265, R267). -/
def writeBlock (c : Config) (mono : Bool) (fs : List Frame) (s : State) : State :=
  if mono then putChannel c outLBase (fs.map (Frame.mono c)) s
  else putChannel c outRBase (fs.map Frame.right) (putChannel c outLBase (fs.map Frame.left) s)

/-- Retirement of one voice: an inactive voice's envelope and integrator are cleared (R268). -/
def Voice.retire (c : Config) (x : Voice) : Voice :=
  if x.env.isActive c then x else { x with env := x.env.clear, saw := F32.f0 }

/-- `Retire` (R268). -/
def retire (c : Config) (s : State) : State := { s with voices := s.voices.map (Voice.retire c) }

/-- `Render(N)` (R260–R270); the mode is CTRL.MONO at the start (R266). -/
def render (c : Config) (n : Nat) (s : State) : State :=
  let b := renderLoop c n s
  { retire c (writeBlock c s.mono b.frames b.state) with blockLen := BitVec.ofNat 32 n }

/-- ENGINE_RESET of one voice (R272). -/
def Voice.engineReset (c : Config) (x : Voice) : Voice := { x.hardZero c with env := x.env.clear, note := 0x00000000#32 }

/-- ENGINE_RESET (R272). -/
def engineReset (c : Config) (s : State) : State :=
  { s with voices := s.voices.map (Voice.engineReset c), noiseState := c.noiseSeed, outGain := s.outTarget }

/-- RENDER `n` (R260). A count above BLOCK_MAX is no legal command and has ILLEGAL's one effect (R124, R128; log 9). -/
def execRender (n : Nat) (s : State) : Host.Outcome State Fault Refusal :=
  if n ≤ blockMax then .next (render Config.machine n s) else .next (s.flag .illegal)

/-- ENGINE_RESET (R272). -/
def execEngineReset (s : State) : Host.Outcome State Fault Refusal := .next (engineReset Config.machine s)

/-- NOP (R273). -/
def execNop (s : State) : Host.Outcome State Fault Refusal := .next s

end Sys2Proof.Machine
end

