-- ==== Sys2Proof/Machine/Bus.lean ====
section
/-! DEFINITION. The bus transactions RD and WR, and the command a write to CMD runs (spec/40_bus.md R150–R156). -/
namespace Sys2Proof.Machine

/-- `execute(decode(w))` of R151 for a decoded command: the same meanings `exec` calls. The decoder gives no RD and no WR
(only the eleven commands are words), so those two arms are never taken; they do what any other illegal word does. -/
def execCommand (i : Instr) (s : State) : Host.Outcome State Fault Refusal :=
  match i with
  | .nop => execNop s
  | .engineReset => execEngineReset s
  | .noiseReset => execNoiseReset s
  | .envAttack v => execEnvAttack v s
  | .envRelease v => execEnvRelease v s
  | .envReset v => execEnvReset v s
  | .oscReset v o => execOscReset v o s
  | .oscSync v o => execOscSync v o s
  | .voiceReset v => execVoiceReset v s
  | .voicePan v => execVoicePan v s
  | .render n => execRender n s
  | .rd _ => .next (s.flag .illegal)
  | .wr _ _ => .next (s.flag .illegal)

/-- A word written to CMD: its command runs to completion, or ILLEGAL is flagged and nothing else happens (R153, R128). -/
def writeCommand (w : Word) (s : State) : Host.Outcome State Fault Refusal :=
  match decodeCommand w with
  | .command i => execCommand i s
  | .illegal _ => .next (s.flag .illegal)

/-- RD `addr` (R150): the word returned goes to the end of `reads` (log 2). -/
def execRd (addr : Addr) (s : State) : Host.Outcome State Fault Refusal :=
  let r := busRead Config.machine s addr
  .next { r.state with reads := r.state.reads ++ [r.word] }

/-- WR `addr`, `data` (R151, R152). -/
def execWr (addr : Addr) (data : Word) (s : State) : Host.Outcome State Fault Refusal :=
  match regOf addr with
  | none => .next (s.flag .buserr)
  | some r =>
    match r.access with
    | .ro => .next (s.flag .buserr)
    | .wo => writeCommand data s
    | .w1c => .next (s.writeReg data r)
    | .rw => .next (s.writeReg data r)

end Sys2Proof.Machine
end

