-- ==== Sys2Proof/Machine/Dispatch.lean ====
section
/-! DEFINITION. exec: one arm per instruction, each a call of that instruction's meaning. -/
namespace Sys2Proof.Machine

def exec (i : Instr) (s : State) : Host.Outcome State Fault Refusal :=
  match i with
  | .nop => Sys2Proof.Machine.execNop s
  | .engineReset => Sys2Proof.Machine.execEngineReset s
  | .noiseReset => Sys2Proof.Machine.execNoiseReset s
  | .envAttack v => Sys2Proof.Machine.execEnvAttack v s
  | .envRelease v => Sys2Proof.Machine.execEnvRelease v s
  | .envReset v => Sys2Proof.Machine.execEnvReset v s
  | .oscReset v o => Sys2Proof.Machine.execOscReset v o s
  | .oscSync v o => Sys2Proof.Machine.execOscSync v o s
  | .voiceReset v => Sys2Proof.Machine.execVoiceReset v s
  | .voicePan v => Sys2Proof.Machine.execVoicePan v s
  | .render n => Sys2Proof.Machine.execRender n s
  | .rd addr => Sys2Proof.Machine.execRd addr s
  | .wr addr data => Sys2Proof.Machine.execWr addr data s

end Sys2Proof.Machine
end

