-- ==== Sys2Proof/Machine/Step.lean ====
section
/-! DEFINITION. One step of the block: the next thing presented to it, run to completion (spec/20_memory.md R95, spec/40_bus.md R153). -/
namespace Sys2Proof.Machine

/-- One transaction or one power-on reset. With nothing presented the block waits and keeps its state (R320, R330; log 1). -/
def step (s : State) : Host.Outcome State Fault Refusal :=
  match takeInput s with
  | none => .next s
  | some (.powerOnReset, t) => .next (powerOn t)
  | some (.bus r, t) => exec (decodeRequest r) t

/-- `s` with a write of the command word `w` to CMD as the next thing presented, so that the next step runs exactly that
command: the block fetches nothing, the host presents each command (R63, R98; log 1, log 16). -/
def State.withFetchWord (s : State) (_nbits w : Nat) : State :=
  { s with pending := .bus (.write cmdAddr (BitVec.ofNat 32 w)) :: s.pending }

end Sys2Proof.Machine
end

