-- ==== Sys2Proof/Machine/Assembler.lean ====
section
/-! DEFINITION. The assembler: a host program's text to the bus transactions it stands for (spec/30_encoding.md R131, R132;
log 17 names what the syntax tables leave open). -/
namespace Sys2Proof.Machine.Asm

/-- One line of a host program, parsed: the rows of R131 (`rd`, `wr`, a command) and of R132. -/
inductive Line where
  | rd (addr : Addr)
  | wr (addr : Addr) (word : Word)
  | command (i : Instr)
  | wrf (addr : Addr) (value : F32)
  | clrstat
  | note (v : Fin maxVoices) (n : Word)
  | sync (v : Fin maxVoices) (o : Fin oscPerVoice) (period : F32)
  | mono
  | stereo
deriving DecidableEq, Repr

/-- The transactions of a line: a command is a write of its word to CMD, a pseudo-instruction its expansion (R131, R132). -/
def Line.expand : Line → List BusRequest
  | .rd a => [.read a]
  | .wr a w => [.write a w]
  | .command i => [encode i]
  | .wrf a x => [.write a x]
  | .clrstat => [.write (addrOf .status) 0x0000007F#32]
  | .note v n => [.write (addrOf (.voice v .note)) n, encode (.voicePan v)]
  | .sync v o p => [.write (addrOf .arg) p, encode (.oscSync v o)]
  | .mono => [.write (addrOf .ctrl) 1#32]
  | .stereo => [.write (addrOf .ctrl) 0#32]

/-- `f32(<decimal>)`: the decimal `±num/den` rounded to binary32 with ties to even (R132). DESIGN CHOICE (log 17): the sign
of the word is the sign written, so a decimal that is zero or rounds to zero under a minus sign is -0.0, 0x80000000; R132
gives the sign of a zero nowhere. -/
def f32 (neg : Bool) (num den : Nat) : F32 := F32.round neg (num * 2 ^ 149) den

/-- A piece of a line: a comma, or a run of other characters that are no space. -/
inductive Token where
  | comma
  | run (chars : List Char)
deriving DecidableEq, Repr

/-- The run read so far, put before the tokens that follow it. -/
def closeRun (acc : List Char) (ts : List Token) : List Token := if acc = [] then ts else .run acc.reverse :: ts

/-- The tokens of a line; `;` starts a comment (R131). -/
def tokens : List Char → List Char → List Token
  | [], acc => closeRun acc []
  | ch :: rest, acc =>
    if ch = ';' then closeRun acc []
    else if ch = ',' then closeRun acc (.comma :: tokens rest [])
    else if ch = ' ' ∨ ch = '\t' ∨ ch = '\r' then closeRun acc (tokens rest [])
    else tokens rest (ch :: acc)

/-- The value of a decimal digit. -/
def decDigit (ch : Char) : Option Nat :=
  if 48 ≤ ch.toNat ∧ ch.toNat ≤ 57 then some (ch.toNat - 48) else none

/-- The value of a hexadecimal digit. -/
def hexDigit (ch : Char) : Option Nat :=
  if 65 ≤ ch.toNat ∧ ch.toNat ≤ 70 then some (ch.toNat - 55)
  else if 97 ≤ ch.toNat ∧ ch.toNat ≤ 102 then some (ch.toNat - 87)
  else decDigit ch

/-- Digits in a base, from the left. -/
def digits (digit : Char → Option Nat) (base : Nat) : List Char → Nat → Option Nat
  | [], acc => some acc
  | ch :: rest, acc => (digit ch).bind fun d => digits digit base rest (acc * base + d)

/-- One or more decimal digits. -/
def decimal (cs : List Char) : Option Nat := if cs = [] then none else digits decDigit 10 cs 0

/-- A decimal or `0x` number. -/
def number : List Char → Option Nat
  | '0' :: 'x' :: cs => if cs = [] then none else digits hexDigit 16 cs 0
  | cs => decimal cs

/-- `<word>`: a 32-bit literal, or a negative decimal as its two's-complement word (R131). -/
def word : List Char → Option Word
  | '-' :: cs => (decimal cs).bind fun n => if n ≤ 2 ^ 31 then some (BitVec.ofInt 32 (-(n : Int))) else none
  | cs => (number cs).bind fun n => if n < 2 ^ 32 then some (BitVec.ofNat 32 n) else none

/-- The characters before and after the first `.`, and whether there is one. -/
def splitDot : List Char → List Char × Option (List Char)
  | [] => ([], none)
  | '.' :: rest => ([], some rest)
  | ch :: rest => let p := splitDot rest; (ch :: p.1, p.2)

/-- An unsigned decimal with an optional fraction, as the sign given and the exact quotient; a zero keeps the sign given, the
model's choice (log 17). -/
def fraction (neg : Bool) (cs : List Char) : Option F32 :=
  match splitDot cs with
  | (i, none) => (decimal i).map fun n => f32 neg n 1
  | (i, some f) => (decimal i).bind fun _ => (decimal f).bind fun _ =>
      (decimal (i ++ f)).map fun n => f32 neg n (10 ^ f.length)

/-- `<decimal>` of R132. -/
def float : List Char → Option F32
  | '-' :: cs => fraction true cs
  | cs => fraction false cs

/-- The global symbols (R131). -/
def globalSymbols : List (String × Reg) :=
  [("ID", .id), ("CMD", .cmd), ("ARG", .arg), ("STATUS", .status), ("CTRL", .ctrl), ("BLOCK_LEN", .blockLen),
   ("ACTIVE_MASK", .activeMask), ("ATTACK_MASK", .attackMask), ("NOISE_STATE", .noiseState),
   ("NOISE_MIX", .noiseMix), ("OUT_TARGET", .outTarget), ("OUT_MUL", .outMul), ("OUT_GAIN", .outGain)]

/-- The voice symbols after `V<v>.` (R131). -/
def voiceSymbols : List (String × VoiceReg) :=
  [("NOTE", .note), ("PAN_L", .panL), ("PAN_R", .panR), ("SAW", .saw), ("ENV_STATE", .envState),
   ("ENV_LEVEL", .envLevel), ("ENV_TARGET", .envTarget), ("ENV_MULT", .envMult), ("ENV_ATTACK", .envAttack),
   ("ENV_DECAY", .envDecay), ("ENV_SUSTAIN", .envSustain), ("ENV_RELEASE", .envRelease)]

/-- The oscillator symbols after `V<v>.O<o>.` (R131). -/
def oscSymbols : List (String × OscReg) :=
  [("PERIOD", .period), ("AMPLITUDE", .amplitude), ("MODULATION", .modulation), ("PHASE", .phase),
   ("PHASE_MAX", .phaseMax), ("INC", .inc), ("SIN0", .sin0), ("SIN1", .sin1), ("DSIN", .dsin)]

/-- Looking a name up in a symbol table. -/
def lookup {α : Type} (table : List (String × α)) (cs : List Char) : Option α :=
  (table.find? fun e => e.1.toList = cs).map Prod.snd

/-- An index below a bound. -/
def index (n : Nat) [NeZero n] (cs : List Char) : Option (Fin n) :=
  (decimal cs).bind fun i => if i < n then some (Fin.ofNat n i) else none

/-- The characters of `<index>]`, less the bracket. -/
def beforeBracket : List Char → Option (List Char)
  | [] => none
  | [']'] => some []
  | ch :: rest => (beforeBracket rest).map (ch :: ·)

/-- A symbol after `V<v>.`. -/
def voiceSymbol (cs : List Char) : Option VoiceReg :=
  match splitDot cs with
  | ('O' :: o, some r) => (index oscPerVoice o).bind fun o => (lookup oscSymbols r).map (.osc o)
  | (r, none) => lookup voiceSymbols r
  | _ => none

/-- A register symbol of R131. -/
def symbol (cs : List Char) : Option Reg :=
  match cs with
  | 'O' :: 'U' :: 'T' :: '_' :: 'L' :: '[' :: rest => ((beforeBracket rest).bind (index blockMax)).map .outL
  | 'O' :: 'U' :: 'T' :: '_' :: 'R' :: '[' :: rest => ((beforeBracket rest).bind (index blockMax)).map .outR
  | _ =>
    match lookup globalSymbols cs with
    | some r => some r
    | none =>
      match splitDot cs with
      | ('V' :: v, some r) => (index maxVoices v).bind fun v => (voiceSymbol r).map (.voice v)
      | _ => none

/-- `<addr>`: a number or a register symbol (R131). -/
def address (cs : List Char) : Option Addr :=
  match symbol cs with
  | some r => some (addrOf r)
  | none => (number cs).bind fun n => if n < addrEnd then some (BitVec.ofNat Sizes.machine.addrBits n) else none

/-- `v<V>`. -/
def voiceOperand : List Char → Option (Fin maxVoices)
  | 'v' :: cs => index maxVoices cs
  | _ => none

/-- `o<O>`. -/
def oscOperand : List Char → Option (Fin oscPerVoice)
  | 'o' :: cs => index oscPerVoice cs
  | _ => none

/-- The commands without an operand. -/
def plainCommands : List (String × Line) :=
  [("nop", .command .nop), ("engine.reset", .command .engineReset), ("noise.reset", .command .noiseReset),
   ("clrstat", .clrstat), ("mono", .mono), ("stereo", .stereo)]

/-- The commands with a voice operand. -/
def voiceCommands : List (String × (Fin maxVoices → Instr)) :=
  [("env.attack", .envAttack), ("env.release", .envRelease), ("env.reset", .envReset),
   ("voice.reset", .voiceReset), ("voice.pan", .voicePan)]

/-- The commands with a voice and an oscillator operand. -/
def oscCommands : List (String × (Fin maxVoices → Fin oscPerVoice → Instr)) :=
  [("osc.reset", .oscReset), ("osc.sync", .oscSync)]

/-- A line of one word and one operand. -/
def unaryLine (m x : List Char) : Option Line :=
  if m = "rd".toList then (address x).map .rd
  else if m = "render".toList then (number x).map fun n => .command (.render n)
  else (lookup voiceCommands m).bind fun f => (voiceOperand x).map fun v => .command (f v)

/-- A line of one word and two operands. -/
def binaryLine (m x y : List Char) : Option Line :=
  if m = "wr".toList then (address x).bind fun a => (word y).map (.wr a)
  else if m = "wrf".toList then (address x).bind fun a => (float y).map (.wrf a)
  else if m = "note".toList then (voiceOperand x).bind fun v => (word y).map (.note v)
  else (lookup oscCommands m).bind fun f =>
    (voiceOperand x).bind fun v => (oscOperand y).map fun o => .command (f v o)

/-- A line of one word and three operands. -/
def ternaryLine (m x y z : List Char) : Option Line :=
  if m = "sync".toList then
    (voiceOperand x).bind fun v => (oscOperand y).bind fun o => (float z).map (.sync v o)
  else none

/-- One line: no transaction for an empty one or a comment, none at all for text that no row of R131 or R132 gives; a
`render` count that no format R word can hold is refused here, one above 8192 is the host's illegal word. -/
def line (cs : List Char) : Option (List BusRequest) :=
  match tokens cs [] with
  | [] => some []
  | [.run m] => (lookup plainCommands m).map Line.expand
  | [.run m, .run x] =>
    (unaryLine m x).bind fun l =>
      match l with
      | .command (.render n) => if n < 2 ^ 16 then some l.expand else none
      | _ => some l.expand
  | [.run m, .run x, .comma, .run y] => (binaryLine m x y).map Line.expand
  | [.run m, .run x, .comma, .run y, .comma, .run z] => (ternaryLine m x y z).map Line.expand
  | _ => none

/-- The lines of a text. -/
def splitLines : List Char → List (List Char)
  | [] => [[]]
  | ch :: rest =>
    if ch = '\n' then [] :: splitLines rest
    else match splitLines rest with
      | [] => [[ch]]
      | l :: ls => (ch :: l) :: ls

/-- The transactions of a host program's text, in order (R131). -/
def program (text : List Char) : Option (List BusRequest) :=
  ((splitLines text).mapM line).map List.flatten

end Sys2Proof.Machine.Asm

namespace Sys2Proof.Machine

/-- A host program put at the end of what the outside presents to the block. -/
def State.withProgram (s : State) (p : List BusRequest) : State := { s with pending := s.pending ++ p.map .bus }

end Sys2Proof.Machine
end

