-- ==== Sys2Proof/Safety.lean ====
section
/-! DEFINITION. The terms claims are stated in: clear STATUS bits and host duties (spec/60_exceptions.md R300,
spec/70_reset_and_hazards.md R342), the power-on values (R330), the invariant of the machine, the registers only the host
writes, and the address sets of spec/20_memory.md R87 and spec/40_bus.md R152. -/
namespace Sys2Proof.Safety
open Sys2Proof.Machine

/-- "STATUS bit B clear", the premise a claim about a run takes for each event it must exclude (R300). -/
def clear (s : State) (e : Event) : Bool := s.status &&& e.mask == 0#7

/-! ### The host's duties (R342); the block checks none of them -/

/-- A multiplier in [0, 1). -/
def unitMultiplier (x : F32) : Bool := F32.fge x F32.f0 && F32.flt x F32.f1

/-- H1: DECAY and RELEASE in [0, 1), ATTACK in [0, 0x3F7FFFFE]. -/
def dutyH1 (e : Env) : Bool :=
  unitMultiplier e.decay && unitMultiplier e.release && F32.fge e.attack F32.f0 && F32.fle e.attack 0x3F7FFFFE#32

/-- H2: SUSTAIN in (SILENCE, 2.0). -/
def dutyH2 (e : Env) : Bool := F32.fgt e.sustain Config.machine.silence && F32.flt e.sustain F32.f2

/-- H3: PERIOD ≥ 6, and MODULATION above 0 and finite. -/
def dutyH3 (x : Osc) : Bool :=
  F32.fge x.period Config.machine.minPeriod && F32.fgt x.modulation F32.f0 && F32.isFinite x.modulation

/-- The command a WR of its word to CMD is (R153; log 10); any other instruction is itself. -/
def spelled (i : Instr) : Instr :=
  match i with
  | .wr a w => decodeRequest (.write a w)
  | j => j

/-- H4: no ENV_RESET or VOICE_RESET on an active voice, however it is spelled. -/
def dutyH4 (i : Instr) (s : State) : Bool :=
  match spelled i with
  | .nop => true
  | .engineReset => true
  | .noiseReset => true
  | .envAttack _ => true
  | .envRelease _ => true
  | .envReset v => !(s.voice v).env.isActive Config.machine
  | .oscReset _ _ => true
  | .oscSync _ _ => true
  | .voiceReset v => !(s.voice v).env.isActive Config.machine
  | .voicePan _ => true
  | .render _ => true
  | .rd _ => true
  | .wr _ _ => true

/-- H6: RENDER N with N at most 8192. A word of a greater N decodes to no command (R128) and stays a WR to CMD, so that is
the form a host's breach takes. -/
def dutyH6 (i : Instr) : Bool :=
  match spelled i with
  | .nop => true
  | .engineReset => true
  | .noiseReset => true
  | .envAttack _ => true
  | .envRelease _ => true
  | .envReset _ => true
  | .oscReset _ _ => true
  | .oscSync _ _ => true
  | .voiceReset _ => true
  | .voicePan _ => true
  | .render n => n ≤ blockMax
  | .rd _ => true
  | .wr a w => !(a == cmdAddr && decodeCommand w == .illegal .renderTooLong)

/-- H7: OUT_MUL in [0, 1) and OUT_TARGET finite. -/
def dutyH7 (s : State) : Bool := unitMultiplier s.outMul && F32.isFinite s.outTarget

/-! ### Power-on -/

/-- The table of R330, every row. -/
structure PowerOnValues (s : State) : Prop where
  id : s.readReg Config.machine .id = 0x4A583131#32
  cmd : s.readReg Config.machine .cmd = 0#32
  arg : s.arg = 0x00000000#32
  status : s.status = 0#7
  ctrl : s.ctrl = 0#1
  activeMask : s.readReg Config.machine .activeMask = 0#32
  attackMask : s.readReg Config.machine .attackMask = 0#32
  blockLen : s.blockLen = 0#32
  noiseState : s.noiseState = 22222#32
  noiseMix : s.noiseMix = 0x00000000#32
  outTarget : s.outTarget = 0x3F800000#32
  outMul : s.outMul = 0x00000000#32
  outGain : s.outGain = 0x3F800000#32
  note : ∀ v, (s.voice v).note = 0#32
  pan : ∀ v, (s.voice v).panL = 0x3F3504F3#32 ∧ (s.voice v).panR = 0x3F3504F3#32
  saw : ∀ v, (s.voice v).saw = 0x00000000#32
  env : ∀ v, (s.voice v).env = ⟨.idle, 0#32, 0#32, 0#32, 0#32, 0#32, 0#32, 0#32⟩
  osc : ∀ v o, (s.voice v).oscOf o = ⟨0#32, 0x3F800000#32, 0x3F800000#32, 0#32, 0#32, 0#32, 0#32, 0#32, 0#32⟩
  outL : ∀ i : Fin blockMax, s.readReg Config.machine (.outL i) = 0x00000000#32
  outR : ∀ i : Fin blockMax, s.readReg Config.machine (.outR i) = 0x00000000#32

/-! ### The invariant -/

/-- A sample a converter may take: no NaN, no infinity, between -1.0 and 1.0 (spec/45_engine.md R267). -/
def saneSample (x : F32) : Bool := F32.fle x F32.f1 && F32.fge x F32.fNeg1

/-- The memory is in its canonical form and lists only the output RAM, and BLOCK_LEN holds a legal count (R124, R269). -/
structure FormInvariant (s : State) : Prop where
  memory : s.mem.wf
  range : s.mem.inRam
  length : s.blockLen.toNat ≤ blockMax

/-- Every word of both output RAMs is a sane sample. -/
def OutputSane (s : State) : Prop := ∀ i < 2 * blockMax, saneSample (s.mem.readWord (outLBase + 4 * i)) = true

/-- An envelope past its attack whose host keeps duties H1 and H2: it moves from a finite level toward SUSTAIN
(spec/42_envelope.md R190 (b)). The level is at SUSTAIN or above or, where SUSTAIN is above the peak the attack reached, at
1.0 or above. -/
def sustaining (e : Env) : Bool :=
  dutyH2 e && unitMultiplier e.decay && e.target == e.sustain && e.mult == e.decay &&
    F32.isFinite e.level && (F32.fge e.level e.target || F32.fge e.level F32.f1)

/-! ### The samples of RENDER -/

/-- The state after `i` samples of a RENDER that began in `s`: one turn of the sample loop (R262–R264), `i` times over. -/
def sampleState (i : Nat) (s : State) : State := (fun x => (renderSample Config.machine x).state)^[i] s

/-- Sample `i` of a RENDER that began in `s`: the frame of one turn of the loop at the state the samples before it left. -/
def sampleFrame (i : Nat) (s : State) : Frame := (renderSample Config.machine (sampleState i s)).frame

/-! ### What only the host writes -/

/-- The parameter registers of a voice (spec/10_state.md R50, R55–R57). -/
structure SameVoiceParameters (x y : Voice) : Prop where
  attack : y.env.attack = x.env.attack
  decay : y.env.decay = x.env.decay
  sustain : y.env.sustain = x.env.sustain
  release : y.env.release = x.env.release
  period : ∀ o, (y.oscOf o).period = (x.oscOf o).period
  amplitude : ∀ o, (y.oscOf o).amplitude = (x.oscOf o).amplitude
  modulation : ∀ o, (y.oscOf o).modulation = (x.oscOf o).modulation

/-- The parameter registers of the block and of every voice (R33, R35, R39, R40, R50, R55–R57). -/
structure SameParameters (s t : State) : Prop where
  arg : t.arg = s.arg
  ctrl : t.ctrl = s.ctrl
  noiseMix : t.noiseMix = s.noiseMix
  outTarget : t.outTarget = s.outTarget
  outMul : t.outMul = s.outMul
  voices : ∀ v, SameVoiceParameters (s.voice v) (t.voice v)

/-- ENV_STATE of every voice made IDLE, to compare states that differ in nothing else (R48). -/
def erasePhases (s : State) : State :=
  { s with voices := s.voices.map fun x => { x with env := { x.env with phase := .idle } } }

/-! ### The bus -/

/-- A read of `a` completes, returns `w` and changes nothing else. -/
def Reads (s : State) (a : Addr) (w : Word) : Prop := exec (.rd a) s = .next { s with reads := s.reads ++ [w] }

/-- The byte address of offset `k` in the block of voice `v` (R85). -/
def voiceAddr (v : Fin maxVoices) (k : Nat) : Addr := BitVec.ofNat 17 (0x01000 + 0x100 * v.val + k)

/-- The byte address of offset `k` in the block of oscillator `o` of voice `v` (R85). -/
def oscAddr (v : Fin maxVoices) (o : Fin oscPerVoice) (k : Nat) : Addr :=
  BitVec.ofNat 17 (0x01000 + 0x100 * v.val + 0x40 + 0x40 * o.val + k)

/-- The reserved word addresses, by R87's list and R85's reserved slots. -/
def reservedAddress (n : Nat) : Bool :=
  decide ((0x00034 ≤ n ∧ n < 0x01000) ∨ (0x01800 ≤ n ∧ n < 0x10000) ∨
    (0x01000 ≤ n ∧ n < 0x01800 ∧
      ((0x14 ≤ n % 0x100 ∧ n % 0x100 < 0x20) ∨ (0x3C ≤ n % 0x100 ∧ n % 0x100 < 0x40) ∨
       (0x4C ≤ n % 0x100 ∧ n % 0x100 < 0x50) ∨ (0x68 ≤ n % 0x100 ∧ n % 0x100 < 0x80) ∨
       (0x8C ≤ n % 0x100 ∧ n % 0x100 < 0x90) ∨ 0xA8 ≤ n % 0x100)))

/-- The read-only word addresses, by R152's list and the tables of R84–R86. -/
def readOnlyAddress (n : Nat) : Bool :=
  decide (n = 0x00 ∨ n = 0x14 ∨ n = 0x18 ∨ n = 0x1C ∨ n = 0x20 ∨ n = 0x30 ∨ 0x10000 ≤ n ∨
    (0x01000 ≤ n ∧ n < 0x01800 ∧
      ((0x04 ≤ n % 0x100 ∧ n % 0x100 < 0x14) ∨ (0x20 ≤ n % 0x100 ∧ n % 0x100 < 0x2C) ∨
       (0x50 ≤ n % 0x100 ∧ n % 0x100 < 0x68) ∨ (0x90 ≤ n % 0x100 ∧ n % 0x100 < 0xA8))))

/-- A write R152 lets through reads as: no refusal for a CMD, STATUS or RW address. -/
def writableAddress (a : Addr) : Bool :=
  a.toNat % 4 == 0 && !reservedAddress a.toNat && !readOnlyAddress a.toNat

/-! ### Rounding (spec/00_scope.md R10) -/

/-- `r` is the rounding, to nearest with ties to even, of the exact value `num / den` units of 2^-149 (`den` positive): no
finite datum is nearer, and where one of another value is as near, the last bit of `r` is 0. -/
def NearestEven (num : Int) (den : Nat) (r : F32) : Prop :=
  ∀ x : F32, F32.isFinite x = true →
    |F32.units r * den - num| ≤ |F32.units x * den - num| ∧
    (F32.units x ≠ F32.units r → |F32.units r * den - num| = |F32.units x * den - num| → r.getLsbD 0 = false)

/-- Overflow under round-to-nearest: the exact magnitude `num / den` reaches 2^128 - 2^103, in units of 2^-149. -/
def Overflows (num : Int) (den : Nat) : Prop := ((2 ^ 25 - 1) * 2 ^ 252 : Nat) * (den : Int) ≤ |num|

/-- The one rounding of R10: to nearest even, or, on overflow, the infinity of the exact value's sign. -/
def RoundedOnce (num : Int) (den : Nat) (r : F32) : Prop :=
  (¬Overflows num den → F32.isFinite r = true ∧ NearestEven num den r) ∧
  (Overflows num den → r = F32.inf (decide (num < 0)))

end Sys2Proof.Safety
end

