-- ==== Sys2Proof/Certificates/Slice0/Obligations.lean ====
section
/-! DEFINITION. The statements for the provers (OBLIGATIONS.json lists them). -/

open Sys2Proof Sys2Proof.Machine

/-! ### Reset, step, no trap -/

/-- R330: the block right after power-on holds the table's values, and the power-on reset input, whenever it comes, sets
every piece of state to them, leaving only what the outside has still to present and has read (log 3). -/
def Obligations.PowerOnSetsEveryRegister : Prop :=
  Safety.PowerOnValues State.reset ∧
  ∀ s : State, ∃ t, step { s with pending := .powerOnReset :: s.pending } = .next t ∧
    Safety.PowerOnValues t ∧ t.mem = [] ∧ t.pending = s.pending ∧ t.reads = s.reads

/-- R95, R153: one step is the whole of the instruction that the next bus request decodes to, with that request taken off
the list; with nothing presented the block keeps its state (log 1). The third clause is the model's own choice (log 16, a
DESIGN CHOICE; no rule speaks of table words): a table word of 1 to 32 bits, placed by `withFetchWord` as a write to CMD, is
run by the next step. -/
def Obligations.StepRunsDecodedInstruction : Prop :=
  (∀ (s : State) (r : BusRequest) (rest : List HostInput), s.pending = .bus r :: rest →
    step s = exec (decodeRequest r) { s with pending := rest }) ∧
  (∀ s : State, s.pending = [] → step s = .next s) ∧
  (∀ (s : State) (nbits w : Nat) (i : Instr), decodeTableWord nbits w = some i →
    step (s.withFetchWord nbits w) = exec i s)

/-- R310, R350: no instruction and no step ever stops the block; every one completes with a next state. -/
def Obligations.NothingStopsTheBlock : Prop :=
  (∀ (i : Instr) (s : State), ∃ t, exec i s = .next t) ∧ ∀ s : State, ∃ t, step s = .next t

/-! ### Decoding -/

/-- Words of R126's map and of R128's list, against what the spec says they are. -/
def Obligations.DecodesSpecWords : Prop :=
  decodeCommand 0x00000000#32 = .command .nop ∧ decodeCommand 0x01000000#32 = .command .engineReset ∧
  decodeCommand 0x02000000#32 = .command .noiseReset ∧ decodeCommand 0x10000007#32 = .command (.envAttack 7) ∧
  decodeCommand 0x11000003#32 = .command (.envRelease 3) ∧ decodeCommand 0x12000005#32 = .command (.envReset 5) ∧
  decodeCommand 0x2000000F#32 = .command (.oscReset 7 1) ∧ decodeCommand 0x2100000A#32 = .command (.oscSync 2 1) ∧
  decodeCommand 0x30000007#32 = .command (.voiceReset 7) ∧ decodeCommand 0x31000002#32 = .command (.voicePan 2) ∧
  decodeCommand 0x40002000#32 = .command (.render 8192) ∧
  decodeCommand 0x00000001#32 = .illegal .reservedFieldNotZero ∧ decodeCommand 0x03000000#32 = .illegal .unassignedOpcode ∧
  decodeCommand 0x10000008#32 = .illegal .reservedFieldNotZero ∧ decodeCommand 0x20000010#32 = .illegal .reservedFieldNotZero ∧
  decodeCommand 0x40002001#32 = .illegal .renderTooLong ∧ decodeCommand 0x40010000#32 = .illegal .reservedFieldNotZero ∧
  decodeCommand 0xFF000000#32 = .illegal .unassignedOpcode

/-- R126: the masks are disjoint, so at most one row matches. -/
def Obligations.OpcodeRowsDisjoint : Prop :=
  opcodeMap.length = 11 ∧
  ∀ (w : Word) (i j : Nat) (r q : OpcodeRow), opcodeMap[i]? = some r → opcodeMap[j]? = some q →
    r.selects w = true → q.selects w = true → i = j

/-- R127 against R121–R124 and R128: the row decoder finds a command exactly in the words whose formats are kept (a
listed opcode, every must-be-zero field zero, N at most 8192), and is ILLEGAL on every other word. -/
def Obligations.DecoderAcceptsExactlyTheFormats : Prop :=
  ∀ w : Word, (legalCommandWord w = true ↔ ∃ i, decodeCommand w = .command i) ∧
    (legalCommandWord w = false ↔ ∃ why, decodeCommand w = .illegal why)

/-- Every well-formed instruction's request decodes to it, every operand at every value its field admits. -/
def Obligations.DecodeAfterEncode : Prop :=
  ∀ i : Instr, i.wellFormed = true → decodeRequest (encode i) = i

/-- A word that decodes to a command is that command's one word, and the command is well formed and no bus transaction. -/
def Obligations.EncodeAfterDecode : Prop :=
  ∀ (w : Word) (i : Instr), decodeCommand w = .command i →
    encode i = .write cmdAddr w ∧ i.wellFormed = true ∧ i.isCommand = true

/-! ### The bus -/

/-- R84–R86: every register and RAM word has its own word address, and no other address names it. -/
def Obligations.AddressMapInverse : Prop :=
  (∀ r : Reg, regOf (addrOf r) = some r) ∧ ∀ (a : Addr) (r : Reg), regOf a = some r → addrOf r = a

/-- R31–R41, R84, R150: what a read of each global register returns; no read changes the block. -/
def Obligations.GlobalRegisterReads : Prop :=
  ∀ s : State,
    Safety.Reads s 0x00000#17 0x4A583131#32 ∧ Safety.Reads s 0x00004#17 0#32 ∧ Safety.Reads s 0x00008#17 s.arg ∧
    Safety.Reads s 0x0000C#17 (0#25 ++ s.status) ∧ Safety.Reads s 0x00010#17 (0#31 ++ s.ctrl) ∧
    Safety.Reads s 0x00014#17 s.blockLen ∧ Safety.Reads s 0x00020#17 s.noiseState ∧
    Safety.Reads s 0x00024#17 s.noiseMix ∧ Safety.Reads s 0x00028#17 s.outTarget ∧
    Safety.Reads s 0x0002C#17 s.outMul ∧ Safety.Reads s 0x00030#17 s.outGain

/-- R36: bit `v` of ACTIVE_MASK is `LEVEL > SILENCE` of voice `v` and of ATTACK_MASK `TARGET >= 2.0`, bits 31:8 are 0;
both are read without changing anything and are read-only, and (an inference R36 marks as derived) read 0 after power-on. -/
def Obligations.MasksShowThePredicates : Prop :=
  Safety.Reads State.reset 0x00018#17 0#32 ∧ Safety.Reads State.reset 0x0001C#17 0#32 ∧
  (∀ (s : State) (w : Word), exec (.wr 0x00018#17 w) s = .next { s with status := s.status ||| 2#7 } ∧
    exec (.wr 0x0001C#17 w) s = .next { s with status := s.status ||| 2#7 }) ∧
  ∀ s : State, ∃ active attack : Word,
    Safety.Reads s 0x00018#17 active ∧ Safety.Reads s 0x0001C#17 attack ∧
    (∀ v : Fin maxVoices, active.getLsbD v.val = F32.fgt (s.voice v).env.level 0x38D1B717#32 ∧
      attack.getLsbD v.val = F32.fge (s.voice v).env.target 0x40000000#32) ∧
    ∀ k, 8 ≤ k → active.getLsbD k = false ∧ attack.getLsbD k = false

/-- R45–R50, R55–R58, R85, R150: what a read of each voice and oscillator register returns. -/
def Obligations.VoiceRegisterReads : Prop :=
  ∀ (s : State) (v : Fin maxVoices),
    Safety.Reads s (Safety.voiceAddr v 0x00) (s.voice v).note ∧ Safety.Reads s (Safety.voiceAddr v 0x04) (s.voice v).panL ∧
    Safety.Reads s (Safety.voiceAddr v 0x08) (s.voice v).panR ∧ Safety.Reads s (Safety.voiceAddr v 0x0C) (s.voice v).saw ∧
    Safety.Reads s (Safety.voiceAddr v 0x10)
      (match (s.voice v).env.phase with | .idle => 0#32 | .attack => 1#32 | .decaySustain => 2#32 | .release => 3#32) ∧
    Safety.Reads s (Safety.voiceAddr v 0x20) (s.voice v).env.level ∧
    Safety.Reads s (Safety.voiceAddr v 0x24) (s.voice v).env.target ∧
    Safety.Reads s (Safety.voiceAddr v 0x28) (s.voice v).env.mult ∧
    Safety.Reads s (Safety.voiceAddr v 0x2C) (s.voice v).env.attack ∧
    Safety.Reads s (Safety.voiceAddr v 0x30) (s.voice v).env.decay ∧
    Safety.Reads s (Safety.voiceAddr v 0x34) (s.voice v).env.sustain ∧
    Safety.Reads s (Safety.voiceAddr v 0x38) (s.voice v).env.release ∧
    ∀ o : Fin oscPerVoice,
      Safety.Reads s (Safety.oscAddr v o 0x00) ((s.voice v).oscOf o).period ∧
      Safety.Reads s (Safety.oscAddr v o 0x04) ((s.voice v).oscOf o).amplitude ∧
      Safety.Reads s (Safety.oscAddr v o 0x08) ((s.voice v).oscOf o).modulation ∧
      Safety.Reads s (Safety.oscAddr v o 0x10) ((s.voice v).oscOf o).phase ∧
      Safety.Reads s (Safety.oscAddr v o 0x14) ((s.voice v).oscOf o).phaseMax ∧
      Safety.Reads s (Safety.oscAddr v o 0x18) ((s.voice v).oscOf o).inc ∧
      Safety.Reads s (Safety.oscAddr v o 0x1C) ((s.voice v).oscOf o).sin0 ∧
      Safety.Reads s (Safety.oscAddr v o 0x20) ((s.voice v).oscOf o).sin1 ∧
      Safety.Reads s (Safety.oscAddr v o 0x24) ((s.voice v).oscOf o).dsin

/-- R82, R86, R150: OUT_L[i] is the little-endian word at 0x10000 + 4i, OUT_R[i] the one at 0x18000 + 4i. -/
def Obligations.OutputRamReads : Prop :=
  ∀ (s : State) (i : Fin blockMax),
    Safety.Reads s (BitVec.ofNat 17 (0x10000 + 4 * i.val)) (s.mem.readByte (0x10000 + 4 * i.val + 3) ++
      s.mem.readByte (0x10000 + 4 * i.val + 2) ++ s.mem.readByte (0x10000 + 4 * i.val + 1) ++
      s.mem.readByte (0x10000 + 4 * i.val)) ∧
    Safety.Reads s (BitVec.ofNat 17 (0x18000 + 4 * i.val)) (s.mem.readByte (0x18000 + 4 * i.val + 3) ++
      s.mem.readByte (0x18000 + 4 * i.val + 2) ++ s.mem.readByte (0x18000 + 4 * i.val + 1) ++
      s.mem.readByte (0x18000 + 4 * i.val))

/-- R83, R87, R152: a misaligned or reserved address refuses both transactions and a read-only one refuses a write; a
refused read returns 0, a refused write changes nothing, and both set BUSERR (bit 1) and no other bit; every other read
leaves STATUS alone, and every other write that is no command leaves BUSERR alone. -/
def Obligations.RefusedTransactions : Prop :=
  ∀ (s : State) (a : Addr),
    (a.toNat % 4 ≠ 0 ∨ Safety.reservedAddress a.toNat = true →
      exec (.rd a) s = .next { s with status := s.status ||| 2#7, reads := s.reads ++ [0#32] }) ∧
    (a.toNat % 4 = 0 ∧ Safety.reservedAddress a.toNat = false → ∃ w, Safety.Reads s a w) ∧
    (a.toNat % 4 ≠ 0 ∨ Safety.reservedAddress a.toNat = true ∨ Safety.readOnlyAddress a.toNat = true →
      ∀ w, exec (.wr a w) s = .next { s with status := s.status ||| 2#7 }) ∧
    (Safety.writableAddress a = true → a ≠ 0x00004#17 → ∀ w, ∃ t, exec (.wr a w) s = .next t ∧
      (a ≠ 0x0000C#17 → t.status = s.status) ∧ t.mem = s.mem ∧ t.pending = s.pending ∧ t.reads = s.reads)

/-- R154: a write to a RW register stores the word verbatim and has no other effect, for each of the writable registers. -/
def Obligations.WritesStoreVerbatim : Prop :=
  ∀ (s : State) (w : Word),
    exec (.wr 0x00008#17 w) s = .next { s with arg := w } ∧
    exec (.wr 0x00024#17 w) s = .next { s with noiseMix := w } ∧
    exec (.wr 0x00028#17 w) s = .next { s with outTarget := w } ∧
    exec (.wr 0x0002C#17 w) s = .next { s with outMul := w } ∧
    ∀ v : Fin maxVoices,
      exec (.wr (Safety.voiceAddr v 0x00) w) s = .next (s.setVoice v { s.voice v with note := w }) ∧
      exec (.wr (Safety.voiceAddr v 0x2C) w) s = .next (s.setEnv v { (s.voice v).env with attack := w }) ∧
      exec (.wr (Safety.voiceAddr v 0x30) w) s = .next (s.setEnv v { (s.voice v).env with decay := w }) ∧
      exec (.wr (Safety.voiceAddr v 0x34) w) s = .next (s.setEnv v { (s.voice v).env with sustain := w }) ∧
      exec (.wr (Safety.voiceAddr v 0x38) w) s = .next (s.setEnv v { (s.voice v).env with release := w }) ∧
      ∀ o : Fin oscPerVoice,
        exec (.wr (Safety.oscAddr v o 0x00) w) s =
          .next (s.setVoice v ((s.voice v).setOsc o { (s.voice v).oscOf o with period := w })) ∧
        exec (.wr (Safety.oscAddr v o 0x04) w) s =
          .next (s.setVoice v ((s.voice v).setOsc o { (s.voice v).oscOf o with amplitude := w })) ∧
        exec (.wr (Safety.oscAddr v o 0x08) w) s =
          .next (s.setVoice v ((s.voice v).setOsc o { (s.voice v).oscOf o with modulation := w }))

/-- R155: a write to STATUS clears each bit 0..6 whose bit in the word is 1, leaves the others, ignores bits 31:7, is not
refused, and touches nothing else. -/
def Obligations.StatusWriteOneClears : Prop :=
  ∀ (s : State) (w : Word), ∃ st : BitVec 7, exec (.wr 0x0000C#17 w) s = .next { s with status := st } ∧
    ∀ k, k < 7 → st.getLsbD k = (s.status.getLsbD k && !w.getLsbD k)

/-- R156: a write to CTRL sets MONO to bit 0 of the word, ignores the other bits, is not refused, and touches nothing
else; the mode is read back in bit 0 alone. -/
def Obligations.CtrlWriteSetsMono : Prop :=
  ∀ (s : State) (w : Word), ∃ t, exec (.wr 0x00010#17 w) s = .next t ∧ t = { s with ctrl := t.ctrl } ∧
    t.mono = w.getLsbD 0 ∧ Safety.Reads t 0x00010#17 (if w.getLsbD 0 then 1#32 else 0#32)

/-- R89, R90, R95: a read after a write sees the word written, at every RW address but CTRL. -/
def Obligations.ReadAfterWrite : Prop :=
  ∀ (s : State) (a : Addr) (w : Word), Safety.writableAddress a = true → a ≠ 0x00004#17 → a ≠ 0x0000C#17 → a ≠ 0x00010#17 →
    ∃ t, exec (.wr a w) s = .next t ∧ Safety.Reads t a w

/-- R128: a word written to CMD that is no legal command sets ILLEGAL (bit 0) and has no other effect. A host that breaks
duty H6 (R342) writes such a word, so that is all its RENDER of more than 8192 samples does. -/
def Obligations.IllegalWordOnlyFlags : Prop :=
  (∀ (s : State) (w : Word), legalCommandWord w = false →
    exec (.wr 0x00004#17 w) s = .next { s with status := s.status ||| 1#7 }) ∧
  ∀ (i : Instr) (s : State), Safety.dutyH6 i = false → exec i s = .next { s with status := s.status ||| 1#7 }

/-- R151, R153: a write of a command's word to CMD is that command, run to completion within the write. -/
def Obligations.CommandWriteRunsTheCommand : Prop :=
  ∀ (s : State) (w : Word) (i : Instr), decodeCommand w = .command i → exec (.wr 0x00004#17 w) s = exec i s

/-! ### Commands -/

/-- R273: NOP is the all-zero word and changes nothing. -/
def Obligations.NopChangesNothing : Prop :=
  decodeCommand 0x00000000#32 = .command .nop ∧ ∀ s : State, exec .nop s = .next s

/-- R272: ENGINE_RESET, all of its effect and its frame: every voice's oscillator internals, integrator, pan gains,
envelope and NOTE, the noise seed, the gain; everything else kept, and no flag. -/
def Obligations.EngineResetEffect : Prop :=
  decodeCommand 0x01000000#32 = .command .engineReset ∧
  ∀ s : State, exec .engineReset s = .next { s with
    noiseState := 22222#32
    outGain := s.outTarget
    voices := s.voices.map fun x => { x with
      note := 0#32, panL := 0x3F3504F3#32, panR := 0x3F3504F3#32, saw := 0#32
      env := { x.env with phase := .idle, level := 0#32, target := 0#32, mult := 0#32 }
      osc := x.osc.map fun y => { y with
        phase := 0#32, phaseMax := 0#32, inc := 0#32, sin0 := 0#32, sin1 := 0#32, dsin := 0#32 } } }

/-- R171: NOISE_RESET sets NOISE_STATE to 22222, its power-on value, and touches nothing else. -/
def Obligations.NoiseResetEffect : Prop :=
  decodeCommand 0x02000000#32 = .command .noiseReset ∧ State.reset.noiseState = 22222#32 ∧
  ∀ s : State, exec .noiseReset s = .next { s with noiseState := 22222#32 }

/-- R185: ENV_ATTACK raises LEVEL by 2·SILENCE (0x3951B717), sets TARGET to 2.0, MULT to ATTACK and STATE to ATTACK;
nothing else changes, in any state; from LEVEL +0.0 (an inference R185 marks as derived) the voice is active and in
attack at once. -/
def Obligations.EnvAttackEffect : Prop :=
  ∀ (v : Fin maxVoices), decodeCommand (0x10000000#32 ||| BitVec.ofNat 32 v.val) = .command (.envAttack v) ∧
  ∀ s : State,
    exec (.envAttack v) s = .next { s with voices := s.voices.set v { s.voice v with env := { (s.voice v).env with
      level := F32.fadd (s.voice v).env.level 0x3951B717#32
      target := 0x40000000#32
      mult := (s.voice v).env.attack
      phase := .attack } } } ∧
    ((s.voice v).env.level = 0#32 → ∀ t, exec (.envAttack v) s = .next t →
      (t.voice v).env.level = 0x3951B717#32 ∧ (t.voice v).env.isActive Config.machine = true ∧
      (t.voice v).env.isInAttack Config.machine = true)

/-- R186: ENV_RELEASE sets TARGET to +0.0, MULT to RELEASE and STATE to RELEASE; nothing else changes, in any state. -/
def Obligations.EnvReleaseEffect : Prop :=
  ∀ (v : Fin maxVoices), decodeCommand (0x11000000#32 ||| BitVec.ofNat 32 v.val) = .command (.envRelease v) ∧
  ∀ s : State, exec (.envRelease v) s = .next { s with voices := s.voices.set v { s.voice v with env :=
    { (s.voice v).env with target := 0#32, mult := (s.voice v).env.release, phase := .release } } }

/-- R188: ENV_RESET zeroes LEVEL, TARGET and MULT and sets IDLE, and sets HAZ (bit 2) when LEVEL was above SILENCE;
nothing else changes. -/
def Obligations.EnvResetEffect : Prop :=
  ∀ (v : Fin maxVoices), decodeCommand (0x12000000#32 ||| BitVec.ofNat 32 v.val) = .command (.envReset v) ∧
  ∀ s : State, exec (.envReset v) s = .next { s with
    status := if F32.fgt (s.voice v).env.level 0x38D1B717#32 then s.status ||| 4#7 else s.status
    voices := s.voices.set v { s.voice v with env :=
      { (s.voice v).env with level := 0#32, target := 0#32, mult := 0#32, phase := .idle } } }

/-- R215: OSC_RESET zeroes the six internal registers of one oscillator, in any state; its parameters and everything else
are kept. The oscillator's next step reseeds, whatever the parameters are: it outputs AMPLITUDE and leaves PHASE at -0
(an inference R215 marks as derived). -/
def Obligations.OscResetEffect : Prop :=
  ∀ (v : Fin maxVoices) (o : Fin oscPerVoice),
  decodeCommand (0x20000000#32 ||| (BitVec.ofNat 32 o.val <<< 3) ||| BitVec.ofNat 32 v.val) = .command (.oscReset v o) ∧
  ∀ s : State, (exec (.oscReset v o) s = .next { s with voices := s.voices.set v { s.voice v with
    osc := (s.voice v).osc.set o { (s.voice v).oscOf o with
      phase := 0#32, phaseMax := 0#32, inc := 0#32, sin0 := 0#32, sin1 := 0#32, dsin := 0#32 } } }) ∧
    ∀ t, exec (.oscReset v o) s = .next t →
      (((t.voice v).oscOf o).step Config.machine).out = ((s.voice v).oscOf o).amplitude ∧
      (((t.voice v).oscOf o).step Config.machine).osc.phase = 0x80000000#32

/-- R216: OSC_SYNC, by the sign of the companion's INC (above 0, below 0, or zero or NaN), with newPeriod from ARG:
PHASE, INC and PHASE_MAX as the rule gives them, SIN0, SIN1 and DSIN zero; the companion, ARG and everything else are
kept. -/
def Obligations.OscSyncEffect : Prop :=
  ∀ (v : Fin maxVoices) (o p : Fin oscPerVoice), p ≠ o →
  decodeCommand (0x21000000#32 ||| (BitVec.ofNat 32 o.val <<< 3) ||| BitVec.ofNat 32 v.val) = .command (.oscSync v o) ∧
  ∀ (s : State) (c : Osc), (s.voice v).oscOf p = c →
    ∃ phase inc : F32,
      (F32.fgt c.inc 0#32 = true → phase = F32.fsub (F32.fadd c.phaseMax c.phaseMax) c.phase ∧ inc = F32.fneg c.inc) ∧
      (F32.flt c.inc 0#32 = true → phase = c.phase ∧ inc = c.inc) ∧
      (F32.fgt c.inc 0#32 = false → F32.flt c.inc 0#32 = false →
        phase = F32.fneg 0x40490FDB#32 ∧ inc = 0x40490FDB#32) ∧
      exec (.oscSync v o) s = .next { s with voices := s.voices.set v { s.voice v with
        osc := (s.voice v).osc.set o { (s.voice v).oscOf o with
          phase := F32.fadd phase (F32.fdiv (F32.fmul 0x40490FDB#32 s.arg) 0x40000000#32)
          phaseMax := F32.fadd phase (F32.fdiv (F32.fmul 0x40490FDB#32 s.arg) 0x40000000#32)
          inc := inc
          sin0 := 0#32, sin1 := 0#32, dsin := 0#32 } } }

/-- R245: VOICE_RESET zeroes both oscillators' internal registers and SAW and centres the pan, and sets HAZ (bit 2) when
the voice was active; the envelope, NOTE, the parameters and everything else are kept. -/
def Obligations.VoiceResetEffect : Prop :=
  ∀ (v : Fin maxVoices), decodeCommand (0x30000000#32 ||| BitVec.ofNat 32 v.val) = .command (.voiceReset v) ∧
  ∀ s : State, exec (.voiceReset v) s = .next { s with
    status := if F32.fgt (s.voice v).env.level 0x38D1B717#32 then s.status ||| 4#7 else s.status
    voices := s.voices.set v { s.voice v with
      saw := 0#32, panL := 0x3F3504F3#32, panR := 0x3F3504F3#32
      osc := (s.voice v).osc.map fun y => { y with
        phase := 0#32, phaseMax := 0#32, inc := 0#32, sin0 := 0#32, sin1 := 0#32, dsin := 0#32 } } }

/-- R246: VOICE_PAN sets the pan gains of a voice from its NOTE by the constant-power law, whatever function FSIN is;
nothing else changes. -/
def Obligations.VoicePanEffect : Prop :=
  ∀ (v : Fin maxVoices), decodeCommand (0x31000000#32 ||| BitVec.ofNat 32 v.val) = .command (.voicePan v) ∧
  ∀ (s : State) (q p : F32),
    q = F32.fdiv (F32.fsub (F32.i2f (s.voice v).note) 0x42700000#32) 0x41C00000#32 →
    p = (if F32.flt q 0xBF800000#32 then 0xBF800000#32 else if F32.fgt q 0x3F800000#32 then 0x3F800000#32 else q) →
    exec (.voicePan v) s = .next { s with voices := s.voices.set v { s.voice v with
      panL := Config.FSIN (F32.fmul 0x3F490FDB#32 (F32.fsub 0x3F800000#32 p))
      panR := Config.FSIN (F32.fmul 0x3F490FDB#32 (F32.fadd 0x3F800000#32 p)) } }

/-- R33, R35, R39, R40, R50, R55–R57: no command writes a parameter register; and only RENDER writes the output RAM or
BLOCK_LEN (R60, R37), only RENDER, NOISE_RESET and ENGINE_RESET write NOISE_STATE (R38), only RENDER and ENGINE_RESET
write OUT_GAIN (R41). -/
def Obligations.CommandsKeepParameters : Prop :=
  ∀ (i : Instr) (s : State), i.isCommand = true → ∃ t, exec i s = .next t ∧ Safety.SameParameters s t ∧
    t.pending = s.pending ∧ t.reads = s.reads ∧
    ((∀ n, i ≠ .render n) → (∀ a, t.mem.readByte a = s.mem.readByte a) ∧ t.blockLen = s.blockLen ∧
      (i ≠ .engineReset → t.outGain = s.outGain ∧ (i ≠ .noiseReset → t.noiseState = s.noiseState)))

/-! ### Envelope -/

/-- R180: one envelope step, the update and then the threshold test on the new level, with ATTACK_DONE = 3.0. -/
def Obligations.EnvStepEffect : Prop :=
  ∀ (e : Env) (level : F32), level = F32.fadd (F32.fmul e.mult (F32.fsub e.level e.target)) e.target →
    e.step Config.machine =
      if F32.fgt (F32.fadd level e.target) 0x40400000#32 then
        { e with level := level, mult := e.decay, target := e.sustain, phase := .decaySustain }
      else { e with level := level }

/-- R190 (a'), an inference the spec marks as derived: ATTACK = 0x3F7FFFFF never ends. After ENV_ATTACK from LEVEL +0.0,
which makes it 2·SILENCE, one-sample RENDERs keep LEVEL below 1.0 for 8386930 samples, at exactly 1.0 from then on, and the
voice active and in attack for ever; an envelope step at 1.0 changes nothing. -/
def Obligations.LargestAttackNeverEnds : Prop :=
  (∀ e : Env, e.mult = 0x3F7FFFFF#32 → e.level = 0x3F800000#32 → e.target = 0x40000000#32 →
    e.step Config.machine = e ∧ e.isInAttack Config.machine = true) ∧
  ∀ (s : State) (v : Fin maxVoices), (s.voice v).env.level = 0#32 → (s.voice v).env.attack = 0x3F7FFFFF#32 →
    ∃ f : Nat → State, exec (.envAttack v) s = .next (f 0) ∧ ((f 0).voice v).env.level = 0x3951B717#32 ∧
      ∀ k, exec (.render 1) (f k) = .next (f (k + 1)) ∧
        ((f k).voice v).env.isActive Config.machine = true ∧ ((f k).voice v).env.isInAttack Config.machine = true ∧
        (k < 8386930 → F32.flt ((f k).voice v).env.level 0x3F800000#32 = true) ∧
        (8386930 ≤ k → ((f k).voice v).env.level = 0x3F800000#32)

/-- R190 (b), an inference the spec marks as derived: past the attack, with DECAY in [0, 1) and SUSTAIN in (SILENCE, 2.0),
the voice stays active however many samples RENDER makes. A LEVEL at or above SUSTAIN never falls below it. The rule's own
argument supposes such a LEVEL; where SUSTAIN is above the peak the attack reached, LEVEL never falls and never passes
SUSTAIN. The step whose threshold test ends an attack leads into this, for every SUSTAIN of that range. -/
def Obligations.SustainKeepsVoiceActive : Prop :=
  (∀ (n : Nat) (s : State) (v : Fin maxVoices), n ≤ blockMax → Safety.sustaining (s.voice v).env = true →
    ∃ t, exec (.render n) s = .next t ∧ Safety.sustaining (t.voice v).env = true ∧
      (t.voice v).env.sustain = (s.voice v).env.sustain ∧ (t.voice v).env.isActive Config.machine = true ∧
      (F32.fge (s.voice v).env.level (s.voice v).env.sustain = true →
        F32.fge (t.voice v).env.level (t.voice v).env.sustain = true) ∧
      (F32.flt (s.voice v).env.level (s.voice v).env.sustain = true →
        F32.fge (t.voice v).env.level (s.voice v).env.level = true ∧
        F32.fle (t.voice v).env.level (t.voice v).env.sustain = true)) ∧
  ∀ e : Env, Safety.dutyH2 e = true → Safety.unitMultiplier e.decay = true → e.target = 0x40000000#32 →
    F32.isFinite (e.step Config.machine).level = true →
    F32.fgt (F32.fadd (e.step Config.machine).level 0x40000000#32) 0x40400000#32 = true →
    Safety.sustaining (e.step Config.machine) = true

/-- R189: a command moves ENV_STATE of a voice only by ENV_ATTACK to ATTACK, by ENV_RELEASE to RELEASE, in RENDER to
DECAY_SUSTAIN or (retirement) IDLE, and by ENV_RESET or ENGINE_RESET to IDLE. -/
def Obligations.EnvPhaseTransitions : Prop :=
  ∀ (i : Instr) (s t : State) (v : Fin maxVoices), i.isCommand = true → exec i s = .next t →
    (t.voice v).env.phase = (s.voice v).env.phase ∨
    ((t.voice v).env.phase = .attack ∧ i = .envAttack v) ∨
    ((t.voice v).env.phase = .release ∧ i = .envRelease v) ∨
    ((t.voice v).env.phase = .decaySustain ∧ ∃ n, i = .render n) ∨
    ((t.voice v).env.phase = .idle ∧ (i = .envReset v ∨ i = .engineReset ∨ ∃ n, i = .render n))

/-- R48: ENV_STATE is informational. Nothing but ENV_STATE itself depends on it: two runs of any instruction from states
that differ in ENV_STATE alone end in states that differ in ENV_STATE alone, unless the instruction reads ENV_STATE. -/
def Obligations.EnvStateIsInformational : Prop :=
  ∀ (i : Instr) (s : State), (∀ v, i ≠ .rd (Safety.voiceAddr v 0x10)) →
    ∃ t u, exec i s = .next t ∧ exec i (Safety.erasePhases s) = .next u ∧ Safety.erasePhases t = Safety.erasePhases u

/-! ### Oscillator and voice -/

/-- R210, R211: where the advanced phase is at or below π/4 the oscillator reseeds: PHASE_MAX, INC, PHASE, SIN0, SIN1,
DSIN, the sample and PLOW as the rule's statements give them in order. -/
def Obligations.OscStepReseeds : Prop :=
  ∀ (x : Osc) (hp pm inc phase : F32), F32.fle (F32.fadd x.phase x.inc) 0x3F490FDB#32 = true →
    hp = F32.fmul (F32.fdiv x.period 0x40000000#32) x.modulation →
    pm = F32.fmul (F32.fsub (F32.ffloor (F32.fadd 0x3F000000#32 hp)) 0x3F000000#32) 0x40490FDB#32 →
    inc = F32.fdiv pm hp → phase = F32.fneg (F32.fadd x.phase x.inc) →
    (x.step Config.machine).osc = { x with
      phaseMax := pm, inc := inc, phase := phase
      sin0 := F32.fmul x.amplitude (Config.FSIN phase)
      sin1 := F32.fmul x.amplitude (Config.FSIN (F32.fsub phase inc))
      dsin := F32.fmul 0x40000000#32 (Config.FCOS inc) } ∧
    (x.step Config.machine).out =
      (if F32.fgt (F32.fmul phase phase) 0x3089705F#32 then F32.fdiv (F32.fmul x.amplitude (Config.FSIN phase)) phase
       else x.amplitude) ∧
    (x.step Config.machine).plow = !F32.fge x.period 0x40C00000#32

/-- R210, R212, R213: elsewhere (a NaN phase too) the phase folds back when it is above PHASE_MAX, the recurrence
advances, the sample is the new sine over the phase, and no flag is raised. -/
def Obligations.OscStepContinues : Prop :=
  ∀ (x : Osc) (p phase inc : F32), p = F32.fadd x.phase x.inc → F32.fle p 0x3F490FDB#32 = false →
    (F32.fgt p x.phaseMax = true → phase = F32.fsub (F32.fadd x.phaseMax x.phaseMax) p ∧ inc = F32.fneg x.inc) →
    (F32.fgt p x.phaseMax = false → phase = p ∧ inc = x.inc) →
    x.step Config.machine =
      { osc := { x with
          phase := phase, inc := inc, sin1 := x.sin0, sin0 := F32.fsub (F32.fmul x.dsin x.sin0) x.sin1 }
        out := F32.fdiv (F32.fsub (F32.fmul x.dsin x.sin0) x.sin1) phase
        plow := false }

/-- R240, R242: one voice step: osc[0], osc[1], SAW (with LEAK 0x3F7F3B64), the noise, then the envelope's new level. -/
def Obligations.VoiceStepFormula : Prop :=
  ∀ (x : Voice) (noise : F32) (r1 r2 : OscResult) (saw : F32),
    r1 = (x.oscOf 0).step Config.machine → r2 = (x.oscOf 1).step Config.machine →
    saw = F32.fsub (F32.fadd (F32.fmul x.saw 0x3F7F3B64#32) r1.out) r2.out →
    (x.step Config.machine noise).out = F32.fmul (F32.fadd saw noise) (x.env.step Config.machine).level ∧
    (x.step Config.machine noise).plow = (r1.plow || r2.plow) ∧
    (x.step Config.machine noise).voice.saw = saw ∧
    (x.step Config.machine noise).voice.env = x.env.step Config.machine ∧
    (x.step Config.machine noise).voice.oscOf 0 = r1.osc ∧ (x.step Config.machine noise).voice.oscOf 1 = r2.osc ∧
    (x.step Config.machine noise).voice.note = x.note ∧ (x.step Config.machine noise).voice.panL = x.panL ∧
    (x.step Config.machine noise).voice.panR = x.panR

/-! ### Noise and RENDER -/

/-- R170, with the corner cases it marks as derived: every noise sample is exactly `t / 2^24` for the `t` of the rule, in
[-1, 1 - 2^-24], never a NaN, an infinity or -0.0. -/
def Obligations.NoiseSampleExact : Prop :=
  ∀ st : Word, ∃ t : Int, t = (st.toNat / 2 ^ 7 : Nat) - 2 ^ 24 ∧
    F32.isFinite (noiseSample st) = true ∧ F32.units (noiseSample st) * 2 ^ 24 = t * 2 ^ 149 ∧
    noiseSample st ≠ 0x80000000#32 ∧ -(2 ^ 149) ≤ F32.units (noiseSample st) ∧
    F32.units (noiseSample st) ≤ 2 ^ 149 - 2 ^ 125

/-- R270, an inference the spec marks as derived: RENDER 0 draws no noise, steps nothing and writes no output word; it
runs retirement and sets BLOCK_LEN to 0. -/
def Obligations.RenderZeroOnlyRetires : Prop :=
  decodeCommand 0x40000000#32 = .command (.render 0) ∧
  ∀ s : State, exec (.render 0) s = .next { s with
    blockLen := 0#32
    voices := s.voices.map fun x =>
      if F32.fgt x.env.level 0x38D1B717#32 then x
      else { x with saw := 0#32, env := { x.env with phase := .idle, level := 0#32, target := 0#32, mult := 0#32 } } }

/-- R261, R262, R264, R269: RENDER N completes for every legal N in every state; NOISE_STATE advances by exactly N draws
and OUT_GAIN by exactly N smoother steps whatever the voices do, BLOCK_LEN is N, and every register no rule of the
command writes keeps its value. -/
def Obligations.RenderAdvancesNoiseAndGain : Prop :=
  ∀ (n : Nat) (s : State), n ≤ 8192 → ∃ t, exec (.render n) s = .next t ∧
    t.blockLen = BitVec.ofNat 32 n ∧
    t.noiseState = (fun st => st * 196314165#32 + 907633515#32)^[n] s.noiseState ∧
    t.outGain = (fun g => F32.fadd (F32.fmul s.outMul (F32.fsub g s.outTarget)) s.outTarget)^[n] s.outGain ∧
    Safety.SameParameters s t ∧
    (∀ v, (t.voice v).note = (s.voice v).note ∧ (t.voice v).panL = (s.voice v).panL ∧
      (t.voice v).panR = (s.voice v).panR) ∧
    t.pending = s.pending ∧ t.reads = s.reads

/-- R262–R264: one sample: the noise drawn and scaled, each active voice stepped once and only it, the panned outputs
summed from +0.0 in ascending voice order, and both sums scaled by the new gain. An inactive voice contributes nothing. -/
def Obligations.SampleSumsActiveVoicesInOrder : Prop :=
  ∀ (s : State) (st : Word) (noise gain : F32) (active : List (Fin maxVoices)),
    st = s.noiseState * 196314165#32 + 907633515#32 → noise = F32.fmul (noiseSample st) s.noiseMix →
    gain = F32.fadd (F32.fmul s.outMul (F32.fsub s.outGain s.outTarget)) s.outTarget →
    active = [0, 1, 2, 3, 4, 5, 6, 7].filter (fun v => F32.fgt (s.voice v).env.level 0x38D1B717#32) →
    (renderSample Config.machine s).frame.left = F32.fmul (active.foldl (fun acc v => F32.fadd acc
      (F32.fmul ((s.voice v).step Config.machine noise).out (s.voice v).panL)) 0#32) gain ∧
    (renderSample Config.machine s).frame.right = F32.fmul (active.foldl (fun acc v => F32.fadd acc
      (F32.fmul ((s.voice v).step Config.machine noise).out (s.voice v).panR)) 0#32) gain ∧
    (∀ v, (renderSample Config.machine s).state.voice v =
      if v ∈ active then ((s.voice v).step Config.machine noise).voice else s.voice v) ∧
    (renderSample Config.machine s).state.status = (if active.any (fun v => ((s.voice v).step Config.machine noise).plow)
      then s.status ||| 8#7 else s.status)

/-- R243: what RENDER leaves in a voice depends on that voice's own registers and on the noise, and on nothing else: not
on another voice, a STATUS bit, the gain, the mode or the RAM. -/
def Obligations.VoicesDoNotInterfere : Prop :=
  ∀ (n : Nat) (s s' : State) (v : Fin maxVoices), s.noiseState = s'.noiseState → s.noiseMix = s'.noiseMix →
    s.voice v = s'.voice v → n ≤ blockMax →
    ∃ t t', exec (.render n) s = .next t ∧ exec (.render n) s' = .next t' ∧ t.voice v = t'.voice v

/-- R260, R265, R267 in stereo: RENDER N writes the clamped left and right of sample `i` (the frame of one turn of the loop
at the state `i` turns leave) to OUT_L[i] and OUT_R[i] for each `i < N`, and leaves every other byte of both RAMs alone. -/
def Obligations.StereoRenderWritesBothChannels : Prop :=
  ∀ (n : Nat) (s : State), n ≤ 8192 → s.mem.wf → s.ctrl = 0#1 → ∃ t, exec (.render n) s = .next t ∧
    (∀ i, i < n →
      t.mem.readWord (0x10000 + 4 * i) = saneWord Config.machine (Safety.sampleFrame i s).left ∧
      t.mem.readWord (0x18000 + 4 * i) = saneWord Config.machine (Safety.sampleFrame i s).right) ∧
    ∀ a, (a < 0x10000 ∨ (0x10000 + 4 * n ≤ a ∧ a < 0x18000) ∨ 0x18000 + 4 * n ≤ a) →
      t.mem.readByte a = s.mem.readByte a

/-- R260, R265, R267 in mono: RENDER N writes the clamped (L + R)·0.5 of sample `i` to OUT_L[i] for each `i < N` and leaves
every other byte alone, all of OUT_R included. -/
def Obligations.MonoRenderWritesLeftOnly : Prop :=
  ∀ (n : Nat) (s : State), n ≤ 8192 → s.mem.wf → s.ctrl = 1#1 → ∃ t, exec (.render n) s = .next t ∧
    (∀ i, i < n → t.mem.readWord (0x10000 + 4 * i) = saneWord Config.machine
      (F32.fmul (F32.fadd (Safety.sampleFrame i s).left (Safety.sampleFrame i s).right) 0x3F000000#32)) ∧
    ∀ a, (a < 0x10000 ∨ 0x10000 + 4 * n ≤ a) → t.mem.readByte a = s.mem.readByte a

/-- R267: what the clamp makes of one word and which bits it flags, in its five cases (the machine's MUTE_SCOPE is
`sample`), and what the `channel_block` alternative makes of a channel. -/
def Obligations.SafetyClampCases : Prop :=
  (∀ x : F32,
    (F32.isNaN x = true ∨ F32.isInf x = true → saneWord Config.machine x = 0#32 ∧ saneEvents Config.machine x = 0x60#7) ∧
    (F32.isFinite x = true → F32.fgt x 0x40000000#32 = true ∨ F32.flt x 0xC0000000#32 = true →
      saneWord Config.machine x = 0#32 ∧ saneEvents Config.machine x = 0x20#7) ∧
    (F32.fgt x 0x3F800000#32 = true → F32.fle x 0x40000000#32 = true →
      saneWord Config.machine x = 0x3F800000#32 ∧ saneEvents Config.machine x = 0x10#7) ∧
    (F32.flt x 0xBF800000#32 = true → F32.fge x 0xC0000000#32 = true →
      saneWord Config.machine x = 0xBF800000#32 ∧ saneEvents Config.machine x = 0x10#7) ∧
    (F32.fge x 0xBF800000#32 = true → F32.fle x 0x3F800000#32 = true →
      saneWord Config.machine x = x ∧ saneEvents Config.machine x = 0#7)) ∧
  (∀ ws : List F32, channelWords Config.machine ws = ws.map (saneWord Config.machine)) ∧
  ∀ ws : List F32, channelWords { Config.machine with muteScope := .channelBlock } ws =
    if ∃ x ∈ ws, (saneEvents Config.machine x).getLsbD 5 = true then ws.map (fun _ => 0#32)
    else ws.map (saneWord Config.machine)

/-- R211, R263, R267, R300–R302 for RENDER, exactly: a bit of STATUS is set afterwards if and only if it was set before, or
it is PLOW (bit 3) and in some sample an oscillator of a voice then active flagged it, or the clamp flags it for a word the
command writes (left and right of each sample in stereo, their mean in mono). So it clears no bit, sets none of ILLEGAL,
BUSERR and HAZ, sets NONFINITE only together with MUTED, and leaves PLOW alone where every oscillator of every voice active
at the start has PERIOD at least 6.0 (duty H3). -/
def Obligations.RenderStatusBits : Prop :=
  ∀ (n : Nat) (s : State), n ≤ blockMax → ∃ t, exec (.render n) s = .next t ∧
    (∀ k, t.status.getLsbD k = true ↔ s.status.getLsbD k = true ∨
      (k = 3 ∧ ∃ i < n, ∃ v o, F32.fgt ((Safety.sampleState i s).voice v).env.level 0x38D1B717#32 = true ∧
        ((((Safety.sampleState i s).voice v).oscOf o).step Config.machine).plow = true) ∨
      (s.ctrl = 0#1 ∧ ∃ i < n, (saneEvents Config.machine (Safety.sampleFrame i s).left).getLsbD k = true ∨
        (saneEvents Config.machine (Safety.sampleFrame i s).right).getLsbD k = true) ∨
      (s.ctrl = 1#1 ∧ ∃ i < n, (saneEvents Config.machine (F32.fmul
        (F32.fadd (Safety.sampleFrame i s).left (Safety.sampleFrame i s).right) 0x3F000000#32)).getLsbD k = true)) ∧
    (∀ k, s.status.getLsbD k = true → t.status.getLsbD k = true) ∧
    (∀ k, k < 3 → t.status.getLsbD k = s.status.getLsbD k) ∧
    (t.status.getLsbD 6 = true → s.status.getLsbD 6 = true ∨ t.status.getLsbD 5 = true) ∧
    ((∀ v o, F32.fgt (s.voice v).env.level 0x38D1B717#32 = true →
      F32.fge ((s.voice v).oscOf o).period 0x40C00000#32 = true) → t.status.getLsbD 3 = s.status.getLsbD 3)

/-- R260, R268: RENDER N leaves each voice as N turns of the sample loop leave it and then retires it: a voice whose LEVEL is
not above SILENCE after the last sample has LEVEL, TARGET, MULT and SAW at +0.0 and STATE at IDLE, and keeps the rest; a
voice above it stays as the last sample left it. -/
def Obligations.RenderRetiresInactiveVoices : Prop :=
  ∀ (n : Nat) (s : State) (v : Fin maxVoices) (x : Voice), n ≤ blockMax → x = (Safety.sampleState n s).voice v →
    ∃ t, exec (.render n) s = .next t ∧
      t.voice v = if F32.fgt x.env.level 0x38D1B717#32 then x
        else { x with saw := 0#32, env := { x.env with phase := .idle, level := 0#32, target := 0#32, mult := 0#32 } }

/-- R271, an inference the spec marks as derived: RENDER a then RENDER b leave every register as RENDER (a+b) does, but
for BLOCK_LEN, and the words they write, read in order, are the words RENDER (a+b) writes. -/
def Obligations.BlockSplitting : Prop :=
  ∀ (a b : Nat) (s : State), a + b ≤ 8192 → s.mem.wf → ∃ s1 s2 t,
    exec (.render a) s = .next s1 ∧ exec (.render b) s1 = .next s2 ∧ exec (.render (a + b)) s = .next t ∧
    s2.blockLen = BitVec.ofNat 32 b ∧ t.blockLen = BitVec.ofNat 32 (a + b) ∧
    { s2 with mem := t.mem, blockLen := t.blockLen } = t ∧
    (∀ i, i < a → s1.mem.readWord (0x10000 + 4 * i) = t.mem.readWord (0x10000 + 4 * i) ∧
      (s.ctrl = 0#1 → s1.mem.readWord (0x18000 + 4 * i) = t.mem.readWord (0x18000 + 4 * i))) ∧
    ∀ i, i < b → s2.mem.readWord (0x10000 + 4 * i) = t.mem.readWord (0x10000 + 4 * (a + i)) ∧
      (s.ctrl = 0#1 → s2.mem.readWord (0x18000 + 4 * i) = t.mem.readWord (0x18000 + 4 * (a + i)))

/-- R274, an inference the spec marks as derived, in all its cases: after ENGINE_RESET, RENDER N leaves no voice active and
writes one word everywhere. With OUT_TARGET and OUT_MUL finite it is the zero of OUT_TARGET's sign and no STATUS bit is set
(where OUT_TARGET is -0.0, which the rule calls non-negative, the sign of a zero sum, log 12, makes it the zero of OUT_MUL's
sign). With one of them a NaN or an infinity it is +0.0, and a RENDER of at least one sample sets MUTED and NONFINITE and no
other bit. -/
def Obligations.SilentRenderAfterEngineReset : Prop :=
  ∀ (n : Nat) (s : State) (gainsFinite : Bool) (w : Word), n ≤ 8192 → s.mem.wf →
    gainsFinite = (F32.isFinite s.outTarget && F32.isFinite s.outMul) →
    w = (if gainsFinite = true then
      F32.zero (if s.outTarget = 0x80000000#32 then F32.signBit s.outMul else F32.signBit s.outTarget) else 0#32) →
    ∃ r t, exec .engineReset s = .next r ∧ exec (.render n) r = .next t ∧
      (∀ i, i < n → t.mem.readWord (0x10000 + 4 * i) = w ∧ (s.ctrl = 0#1 → t.mem.readWord (0x18000 + 4 * i) = w)) ∧
      t.status = (if gainsFinite = true ∨ n = 0 then s.status else s.status ||| 0x60#7) ∧
      ∀ v, (t.voice v).env.isActive Config.machine = false

/-- R331, an inference the spec marks as derived: a RENDER issued at once after power-on writes +0.0 to every word and
sets no STATUS bit; the whole state after it is the power-on state but for NOISE_STATE and BLOCK_LEN. -/
def Obligations.RenderAfterPowerOnIsSilent : Prop :=
  ∀ n, n ≤ 8192 → exec (.render n) State.reset = .next { State.reset with
    noiseState := (fun st => st * 196314165#32 + 907633515#32)^[n] 22222#32
    blockLen := BitVec.ofNat 32 n }

/-! ### Whole-machine rules -/

/-- R300: a STATUS bit once set stays set over every step, unless the step is a host write of 1 to it or power-on reset. -/
def Obligations.StatusBitsAreSticky : Prop :=
  ∀ (s t : State) (k : Nat), step s = .next t → s.status.getLsbD k = true →
    t.status.getLsbD k = true ∨ (∃ rest, s.pending = .powerOnReset :: rest) ∨
    ∃ w rest, s.pending = .bus (.write 0x0000C#17 w) :: rest ∧ w.getLsbD k = true

/-- Every step keeps the memory in its canonical form and inside the output RAM, and BLOCK_LEN at a legal count. -/
def Obligations.StepKeepsFormInvariant : Prop :=
  ∀ s t : State, Safety.FormInvariant s → step s = .next t → Safety.FormInvariant t

/-- R60, R267: in every run both output RAMs hold only samples a converter may take, no NaN, no infinity, nothing beyond
±1.0: every step keeps it so. -/
def Obligations.StepKeepsOutputSane : Prop :=
  ∀ s t : State, Safety.FormInvariant s → Safety.OutputSane s → step s = .next t → Safety.OutputSane t

/-- The two invariants hold at reset. -/
def Obligations.ResetMeetsInvariants : Prop :=
  Safety.FormInvariant State.reset ∧ Safety.OutputSane State.reset

/-! ### Arithmetic and text -/

/-- R10: addition, subtraction, multiplication and division of finite data are the exact result rounded once, to nearest
with ties to even, subnormals kept, overflow to the infinity of the result's sign; `i2f` of a word is its value so
rounded. `ffloor` is exact: of a finite datum the greatest whole number not above it, -1.0 between -1.0 and 0, +0.0 between 0
and 1.0 (the sign of that zero is log 12, PRESUMED), the operand itself where it is a zero or an infinity. -/
def Obligations.ArithmeticRoundsOnceToNearestEven : Prop :=
  (∀ a b : F32, F32.isFinite a = true → F32.isFinite b = true →
    Safety.RoundedOnce (F32.units a + F32.units b) 1 (F32.fadd a b) ∧
    Safety.RoundedOnce (F32.units a - F32.units b) 1 (F32.fsub a b) ∧
    Safety.RoundedOnce (F32.units a * F32.units b) (2 ^ 149) (F32.fmul a b) ∧
    (F32.units b ≠ 0 → Safety.RoundedOnce (F32.units a * (F32.units b).sign * 2 ^ 149) (F32.units b).natAbs
      (F32.fdiv a b))) ∧
  (∀ w : Word, Safety.RoundedOnce (w.toInt * 2 ^ 149) 1 (F32.i2f w)) ∧
  ∀ a : F32,
    (F32.isFinite a = true → F32.isFinite (F32.ffloor a) = true ∧
      F32.units (F32.ffloor a) = F32.units a / 2 ^ 149 * 2 ^ 149) ∧
    (F32.flt 0xBF800000#32 a = true → F32.flt a 0#32 = true → F32.ffloor a = 0xBF800000#32) ∧
    (F32.flt 0#32 a = true → F32.flt a 0x3F800000#32 = true → F32.ffloor a = 0#32) ∧
    (F32.units a = 0 ∨ F32.isInf a = true → F32.ffloor a = a)

/-- R10, R12: a NaN operand makes every arithmetic result the canonical NaN and every comparison false; so do, of other
operands, infinity plus the opposite infinity, zero times infinity, infinity over infinity and zero over zero. Every other
operation on an infinity, a nonzero datum over zero, the sign of an exact zero sum and of every product and quotient are
IEEE 754's (log 12, PRESUMED: R10 says "the IEEE 754 operations" and spells none of these out). `fneg` flips bit 31 of any
pattern. Of operands that are no NaN the comparisons follow the values: -0.0 equals +0.0, and an infinity is beyond every
finite datum, on its own side. -/
def Obligations.NanAndComparisonRules : Prop :=
  ∀ a b : F32,
    (F32.isNaN a = true ∨ F32.isNaN b = true →
      F32.fadd a b = 0x7FC00000#32 ∧ F32.fsub a b = 0x7FC00000#32 ∧ F32.fmul a b = 0x7FC00000#32 ∧
      F32.fdiv a b = 0x7FC00000#32 ∧ F32.flt a b = false ∧ F32.fle a b = false ∧ F32.fgt a b = false ∧
      F32.fge a b = false) ∧
    (F32.isNaN a = true → F32.ffloor a = 0x7FC00000#32) ∧
    (∀ k, (F32.fneg a).getLsbD k = (if k = 31 then !a.getLsbD k else a.getLsbD k)) ∧
    F32.fsub a b = F32.fadd a (F32.fneg b) ∧
    (F32.isInf a = true → F32.isInf b = true →
      F32.fadd a b = (if F32.signBit a = F32.signBit b then a else 0x7FC00000#32) ∧
      F32.fmul a b = F32.inf (F32.signBit a != F32.signBit b) ∧ F32.fdiv a b = 0x7FC00000#32 ∧
      (F32.units a = F32.units b ↔ F32.signBit a = F32.signBit b)) ∧
    (F32.isInf a = true → F32.isFinite b = true →
      F32.fadd a b = a ∧ F32.fadd b a = a ∧
      F32.fmul a b = (if F32.units b = 0 then 0x7FC00000#32 else F32.inf (F32.signBit a != F32.signBit b)) ∧
      F32.fmul b a = F32.fmul a b ∧ F32.fdiv a b = F32.inf (F32.signBit a != F32.signBit b) ∧
      F32.fdiv b a = F32.zero (F32.signBit b != F32.signBit a) ∧
      (if F32.signBit a = true then F32.units a < F32.units b else F32.units b < F32.units a)) ∧
    (F32.isFinite a = true → F32.isFinite b = true →
      (F32.units b = 0 → F32.fdiv a b =
        (if F32.units a = 0 then 0x7FC00000#32 else F32.inf (F32.signBit a != F32.signBit b))) ∧
      (F32.units a + F32.units b = 0 → F32.fadd a b = F32.zero (F32.signBit a && F32.signBit b)) ∧
      F32.signBit (F32.fmul a b) = (F32.signBit a != F32.signBit b) ∧
      (F32.units b ≠ 0 → F32.signBit (F32.fdiv a b) = (F32.signBit a != F32.signBit b))) ∧
    (F32.isNaN a = false → F32.isNaN b = false →
      (F32.flt a b = true ↔ F32.units a < F32.units b) ∧ (F32.fle a b = true ↔ F32.units a ≤ F32.units b) ∧
      (F32.fgt a b = true ↔ F32.units b < F32.units a) ∧ (F32.fge a b = true ↔ F32.units b ≤ F32.units a)) ∧
    (F32.units 0x00000000#32 = 0 ∧ F32.units 0x80000000#32 = 0)

/-- R131, R132: lines of the assembler and the transactions they stand for, the pseudo-instructions' expansions among
them. -/
def Obligations.AssemblerExamples : Prop :=
  Asm.program "env.attack v3".toList = some [.write 0x00004#17 0x10000003#32] ∧
  Asm.program "osc.sync v2, o1".toList = some [.write 0x00004#17 0x2100000A#32] ∧
  Asm.program "render 512".toList = some [.write 0x00004#17 0x40000200#32] ∧
  Asm.program "wrf V0.O0.PERIOD, 100.0".toList = some [.write 0x01040#17 0x42C80000#32] ∧
  Asm.program "note v0, 60".toList = some [.write 0x01000#17 0x3C#32, .write 0x00004#17 0x31000000#32] ∧
  Asm.program "sync v0, o1, 100.0".toList = some [.write 0x00008#17 0x42C80000#32, .write 0x00004#17 0x21000008#32] ∧
  Asm.program "clrstat ; a comment".toList = some [.write 0x0000C#17 0x7F#32] ∧
  Asm.program "mono".toList = some [.write 0x00010#17 1#32] ∧ Asm.program "stereo".toList = some [.write 0x00010#17 0#32]

/-! ### The envelope over RENDER -/

/-- R190 (a), (c) and (d), inferences the spec marks as derived, over one-sample RENDERs (R271 makes longer blocks of them).
(a) After ENV_ATTACK from LEVEL in [0, 1), with ATTACK in [0, 0x3F7FFFFE], LEVEL rises strictly at every sample while the
voice is in attack, and the attack ends (SUSTAIN must not be 2.0 or more, duty H2, for `isInAttack` to show it); under duties
H1 and H2 it ends in what SustainKeepsVoiceActive calls sustaining. (c) After ENV_RELEASE, with RELEASE = r in (0, 1) and
LEVEL at most 3.0, the voice is active through `k ≤ -1/ln r` samples if LEVEL times (1 - 2^-24)^k, the most that k roundings
take, is above e times SILENCE. (d) After ENV_RELEASE, with RELEASE in [0, 1) and LEVEL at most 3.0, LEVEL falls strictly at
every sample while the voice is active, and it becomes inactive, which retirement completes. -/
def Obligations.AttackAndReleaseEnd : Prop :=
  ∀ (s : State) (v : Fin maxVoices) (e : Env), e = (s.voice v).env →
    (F32.fge e.level 0#32 = true → F32.flt e.level 0x3F800000#32 = true → F32.fge e.attack 0#32 = true →
      F32.fle e.attack 0x3F7FFFFE#32 = true → F32.fge e.sustain 0x40000000#32 = false →
      ∃ (k : Nat) (f : Nat → State), exec (.envAttack v) s = .next (f 0) ∧
        (∀ j ≤ k, exec (.render 1) (f j) = .next (f (j + 1)) ∧
          ((f j).voice v).env.isInAttack Config.machine = true ∧
          F32.flt ((f j).voice v).env.level ((f (j + 1)).voice v).env.level = true) ∧
        ((f (k + 1)).voice v).env.isInAttack Config.machine = false ∧
        (Safety.dutyH2 e = true → Safety.unitMultiplier e.decay = true →
          Safety.sustaining ((f (k + 1)).voice v).env = true)) ∧
    (F32.fle e.level 0x40400000#32 = true → F32.fgt e.release 0#32 = true → F32.flt e.release 0x3F800000#32 = true →
      ∀ k : Nat, (k : ℝ) * -Real.log ((F32.units e.release : ℝ) / 2 ^ 149) ≤ 1 →
        (F32.units 0x38D1B717#32 : ℝ) * Real.exp 1 < F32.units e.level * (1 - 1 / 2 ^ 24) ^ k →
        ∃ f : Nat → State, exec (.envRelease v) s = .next (f 0) ∧
          (∀ j < k, exec (.render 1) (f j) = .next (f (j + 1))) ∧
          ∀ j ≤ k, ((f j).voice v).env.isActive Config.machine = true) ∧
    (F32.fle e.level 0x40400000#32 = true → F32.fge e.release 0#32 = true → F32.flt e.release 0x3F800000#32 = true →
      ∃ (k : Nat) (f : Nat → State), exec (.envRelease v) s = .next (f 0) ∧
        (∀ j < k, exec (.render 1) (f j) = .next (f (j + 1)) ∧ ((f j).voice v).env.isActive Config.machine = true ∧
          F32.flt ((f (j + 1)).voice v).env.level ((f j).voice v).env.level = true) ∧
        ((f k).voice v).env.isActive Config.machine = false ∧
        (k ≠ 0 → ((f k).voice v).env =
          { ((f 0).voice v).env with phase := .idle, level := 0#32, target := 0#32, mult := 0#32 }))
end

