-- ==== Sys2Proof/Laws/Config.lean ====
section
/-! SUPPORT. The machine's parameters, one lemma a field (spec/00_scope.md R7). -/
namespace Sys2Proof

/-- The sizes are the configuration's: the types and the counts follow them (log 6). -/
theorem Config.machine_sizes : Config.machine.maxVoices = maxVoices ∧ Config.machine.oscPerVoice = oscPerVoice ∧
    Config.machine.blockMax = blockMax ∧ Word = BitVec Config.machine.dataBits ∧ Addr = BitVec Config.machine.addrBits :=
  ⟨rfl, rfl, rfl, rfl, rfl⟩

@[simp] theorem Config.machine_maxVoices : Config.machine.maxVoices = 8 := rfl
@[simp] theorem Config.machine_oscPerVoice : Config.machine.oscPerVoice = 2 := rfl
@[simp] theorem Config.machine_blockMax : Config.machine.blockMax = 8192 := rfl
@[simp] theorem Config.machine_addrBits : Config.machine.addrBits = 17 := rfl
@[simp] theorem Config.machine_dataBits : Config.machine.dataBits = 32 := rfl

/-- A word's bound and an address's, with the widths as numerals. -/
theorem word_lt (w : Word) : w.toNat < 2 ^ 32 := w.isLt
theorem addr_lt (a : Addr) : a.toNat < 2 ^ 17 := a.isLt

@[simp] theorem Config.machine_attackTarget : Config.machine.attackTarget = 0x40000000#32 := rfl
@[simp] theorem Config.machine_attackDone : Config.machine.attackDone = 0x40400000#32 := rfl
@[simp] theorem Config.machine_silence : Config.machine.silence = 0x38D1B717#32 := rfl
@[simp] theorem Config.machine_minPeriod : Config.machine.minPeriod = 0x40C00000#32 := rfl
@[simp] theorem Config.machine_reseedT : Config.machine.reseedT = 0x3F490FDB#32 := rfl
@[simp] theorem Config.machine_nearZeroSq : Config.machine.nearZeroSq = 0x3089705F#32 := rfl
@[simp] theorem Config.machine_pi : Config.machine.pi = 0x40490FDB#32 := rfl
@[simp] theorem Config.machine_piOver4 : Config.machine.piOver4 = 0x3F490FDB#32 := rfl
@[simp] theorem Config.machine_leak : Config.machine.leak = 0x3F7F3B64#32 := rfl
@[simp] theorem Config.machine_panCenter : Config.machine.panCenter = 0x42700000#32 := rfl
@[simp] theorem Config.machine_panSpan : Config.machine.panSpan = 0x41C00000#32 := rfl
@[simp] theorem Config.machine_panC : Config.machine.panC = 0x3F3504F3#32 := rfl
@[simp] theorem Config.machine_noiseA : Config.machine.noiseA = 196314165#32 := rfl
@[simp] theorem Config.machine_noiseC : Config.machine.noiseC = 907633515#32 := rfl
@[simp] theorem Config.machine_noiseSeed : Config.machine.noiseSeed = 22222#32 := rfl
@[simp] theorem Config.machine_muteLimit : Config.machine.muteLimit = 0x40000000#32 := rfl
@[simp] theorem Config.machine_clipLimit : Config.machine.clipLimit = 0x3F800000#32 := rfl
@[simp] theorem Config.machine_muteScope : Config.machine.muteScope = .sample := rfl
@[simp] theorem Config.machine_monoScale : Config.machine.monoScale = 0x3F000000#32 := rfl
@[simp] theorem Config.machine_idWord : Config.machine.idWord = 0x4A583131#32 := rfl
@[simp] theorem Config.machine_fsin : Config.machine.fsin = Config.FSIN := rfl
@[simp] theorem Config.machine_fcos : Config.machine.fcos = Config.FCOS := rfl

end Sys2Proof
end

