-- ==== Sys2Proof/Laws/Float.lean ====
section
/-! SUPPORT. What the rounding does, once for every primitive: nearest, ties to even, exact on what is representable, monotone. -/
namespace Sys2Proof
namespace F32

/-! ### The encoding as a number -/

/-- The magnitude a sign-less encoding stands for, in units of 2^-149, with the exponent unbounded. -/
def magNat (b : Nat) : Nat := if b < 2 ^ 23 then b else (2 ^ 23 + b % 2 ^ 23) * 2 ^ (b / 2 ^ 23 - 1)

theorem fracField_eq (a : F32) : fracField a = a.toNat % 2 ^ 23 := by
  simp [fracField, BitVec.extractLsb'_toNat]

theorem expField_eq (a : F32) : expField a = a.toNat / 2 ^ 23 % 2 ^ 8 := by
  simp [expField, BitVec.extractLsb'_toNat, Nat.shiftRight_eq_div_pow]

theorem mag_eq (a : F32) : mag a = magNat (a.toNat % 2 ^ 31) := by
  have ha := a.isLt
  simp only [mag, magNat, fracField_eq, expField_eq]
  have h1 : a.toNat % 2 ^ 31 / 2 ^ 23 = a.toNat / 2 ^ 23 % 2 ^ 8 := by omega
  have h2 : a.toNat % 2 ^ 31 % 2 ^ 23 = a.toNat % 2 ^ 23 := by omega
  by_cases h : a.toNat / 2 ^ 23 % 2 ^ 8 = 0
  · rw [if_pos h, if_pos (by omega)]; omega
  · rw [if_neg h, if_neg (by omega), h1, h2]

/-- A significand `n` of at most 2^24 at quantum `q` stands for `n·2^q`; above the least quantum it must be normal. -/
theorem magNat_pack (q n : Nat) (hn : n ≤ 2 ^ 24) (hq : q = 0 ∨ 2 ^ 23 ≤ n) : magNat (q * 2 ^ 23 + n) = n * 2 ^ q := by
  unfold magNat
  by_cases h0 : q * 2 ^ 23 + n < 2 ^ 23
  · have : q = 0 := by omega
    subst this
    rw [if_pos h0, Nat.zero_mul, Nat.zero_add, pow_zero, Nat.mul_one]
  · rw [if_neg h0]
    have hn23 : 2 ^ 23 ≤ n := by omega
    rcases Nat.lt_or_ge n (2 ^ 24) with h | h
    · have h1 : (q * 2 ^ 23 + n) / 2 ^ 23 = q + 1 := by omega
      have h2 : (q * 2 ^ 23 + n) % 2 ^ 23 = n - 2 ^ 23 := by omega
      rw [h1, h2, show 2 ^ 23 + (n - 2 ^ 23) = n by omega, Nat.add_sub_cancel]
    · have hn' : n = 2 ^ 24 := by omega
      subst hn'
      have h1 : (q * 2 ^ 23 + 2 ^ 24) / 2 ^ 23 = q + 2 := by omega
      have h2 : (q * 2 ^ 23 + 2 ^ 24) % 2 ^ 23 = 0 := by omega
      rw [h1, h2, show q + 2 - 1 = q + 1 by omega, pow_succ]
      ring

/-- Every encoding is a packed significand, normal above the least quantum. -/
theorem exists_pack (b : Nat) : ∃ q n, b = q * 2 ^ 23 + n ∧ n < 2 ^ 24 ∧ (q = 0 ∨ 2 ^ 23 ≤ n) ∧ magNat b = n * 2 ^ q := by
  by_cases h : b < 2 ^ 23
  · exact ⟨0, b, by omega, by omega, .inl rfl, by rw [magNat, if_pos h, pow_zero, Nat.mul_one]⟩
  · refine ⟨b / 2 ^ 23 - 1, 2 ^ 23 + b % 2 ^ 23, by omega, by omega, .inr (by omega), ?_⟩
    rw [magNat, if_neg h]

/-! ### Rounding a quotient to a whole number -/

/-- The rounded quotient is within half of the exact one, from both sides. -/
theorem rneDiv_bounds (n d : Nat) (hd : 0 < d) : 2 * n ≤ 2 * (rneDiv n d * d) + d ∧ 2 * (rneDiv n d * d) ≤ 2 * n + d := by
  have h := Nat.div_add_mod n d
  have hm := Nat.mod_lt n hd
  have e : n / d * d = d * (n / d) := Nat.mul_comm _ _
  unfold rneDiv
  split
  · constructor <;> omega
  · split
    · have : (n / d + 1) * d = n / d * d + d := by ring
      constructor <;> omega
    · rcases Nat.mod_two_eq_zero_or_one (n / d) with h2 | h2
      · rw [h2, Nat.add_zero]
        constructor <;> omega
      · have : (n / d + n / d % 2) * d = n / d * d + d := by rw [h2]; ring
        constructor <;> omega

/-- Halfway between two whole numbers the rounded quotient is the even one. -/
theorem rneDiv_tie (n d : Nat) (hd : 0 < d)
    (h : 2 * n = 2 * (rneDiv n d * d) + d ∨ 2 * (rneDiv n d * d) = 2 * n + d) : rneDiv n d % 2 = 0 := by
  have hdm := Nat.div_add_mod n d
  have hm := Nat.mod_lt n hd
  have e : n / d * d = d * (n / d) := Nat.mul_comm _ _
  revert h
  unfold rneDiv
  split
  · intro h; exfalso
    rcases h with h | h <;> omega
  · split
    · have : (n / d + 1) * d = n / d * d + d := by ring
      intro h; exfalso
      rcases h with h | h <;> omega
    · intro _
      omega

/-- The rounded quotient is the nearest whole number. -/
theorem rneDiv_nearest (n d k : Nat) (hd : 0 < d) :
    |((rneDiv n d * d : Nat) : Int) - n| ≤ |((k * d : Nat) : Int) - n| := by
  obtain ⟨h1, h2⟩ := rneDiv_bounds n d hd
  rcases Nat.lt_trichotomy k (rneDiv n d) with h | h | h
  · have : (k + 1) * d ≤ rneDiv n d * d := Nat.mul_le_mul_right d h
    rw [Nat.add_mul, Nat.one_mul] at this
    have hk : |((k * d : Nat) : Int) - n| = n - (k * d : Nat) := by
      rw [abs_of_nonpos (by omega)]; omega
    rw [hk, abs_le]
    constructor <;> omega
  · rw [h]
  · have : (rneDiv n d + 1) * d ≤ k * d := Nat.mul_le_mul_right d h
    rw [Nat.add_mul, Nat.one_mul] at this
    have hk : |((k * d : Nat) : Int) - n| = (k * d : Nat) - n := abs_of_nonneg (by omega)
    rw [hk, abs_le]
    constructor <;> omega

/-- Another whole number as near as the rounded quotient leaves the rounded quotient even. -/
theorem rneDiv_even_of_tie (n d k : Nat) (hd : 0 < d) (hk : k ≠ rneDiv n d)
    (h : |((k * d : Nat) : Int) - n| = |((rneDiv n d * d : Nat) : Int) - n|) : rneDiv n d % 2 = 0 := by
  apply rneDiv_tie n d hd
  obtain ⟨h1, h2⟩ := rneDiv_bounds n d hd
  rcases Nat.lt_or_gt_of_ne hk with hlt | hlt
  · have : (k + 1) * d ≤ rneDiv n d * d := Nat.mul_le_mul_right d hlt
    rw [Nat.add_mul, Nat.one_mul] at this
    rw [abs_of_nonpos (by omega)] at h
    rcases abs_cases (((rneDiv n d * d : Nat) : Int) - n) with ⟨e, -⟩ | ⟨e, -⟩ <;> rw [e] at h <;> omega
  · have : (rneDiv n d + 1) * d ≤ k * d := Nat.mul_le_mul_right d hlt
    rw [Nat.add_mul, Nat.one_mul] at this
    rw [abs_of_nonneg (a := ((k * d : Nat) : Int) - n) (by omega)] at h
    rcases abs_cases (((rneDiv n d * d : Nat) : Int) - n) with ⟨e, -⟩ | ⟨e, -⟩ <;> rw [e] at h <;> omega

/-- The rounded quotient of an exact multiple is that multiple. -/
theorem rneDiv_exact (k d : Nat) (hd : 0 < d) : rneDiv (k * d) d = k := by
  simp [rneDiv, Nat.mul_mod_left, Nat.mul_div_cancel _ hd, hd]

/-- Rounding a quotient is monotone. -/
theorem rneDiv_mono (n n' d d' : Nat) (hd : 0 < d) (hd' : 0 < d') (h : n * d' ≤ n' * d) : rneDiv n d ≤ rneDiv n' d' := by
  by_contra hc
  have hlt : rneDiv n' d' + 1 ≤ rneDiv n d := by omega
  obtain ⟨-, h2⟩ := rneDiv_bounds n d hd
  obtain ⟨h1', -⟩ := rneDiv_bounds n' d' hd'
  -- the exact quotients pinch: 2r-1 ≤ 2n/d ≤ 2n'/d' ≤ 2r'+1 ≤ 2r-1
  have a1 : (2 * rneDiv n d) * d ≤ 2 * n + d := by nlinarith
  have a2 : 2 * n' ≤ (2 * rneDiv n' d' + 1) * d' := by nlinarith
  have b1 : (2 * rneDiv n d) * d * d' ≤ (2 * n + d) * d' := Nat.mul_le_mul_right _ a1
  have b2 : 2 * n' * d ≤ (2 * rneDiv n' d' + 1) * d' * d := Nat.mul_le_mul_right _ a2
  have hpos : 0 < d * d' := Nat.mul_pos hd hd'
  have e1 : (2 * rneDiv n d) * (d * d') ≤ (2 * rneDiv n' d' + 2) * (d * d') := by nlinarith
  have e2 : 2 * rneDiv n d ≤ 2 * rneDiv n' d' + 2 := Nat.le_of_mul_le_mul_right e1 hpos
  have e3 : rneDiv n d = rneDiv n' d' + 1 := by omega
  -- so every inequality is an equality: both quotients are the same tie, rounded to two different even numbers
  have c1 : 2 * (n * d') = 2 * (n' * d) := by
    have : (2 * (rneDiv n' d' + 1)) * (d * d') ≤ 2 * (n * d') + d * d' := by rw [← e3]; nlinarith
    nlinarith
  have t1 : 2 * (rneDiv n d * d) = 2 * n + d := by
    have : (2 * (rneDiv n d * d)) * d' = (2 * n + d) * d' := by
      rw [e3]; nlinarith
    exact Nat.eq_of_mul_eq_mul_right hd' this
  have t2 : 2 * n' = 2 * (rneDiv n' d' * d') + d' := by
    have : 2 * n' * d = (2 * (rneDiv n' d' * d') + d') * d := by nlinarith
    exact Nat.eq_of_mul_eq_mul_right hd this
  have p1 := rneDiv_tie n d hd (.inr t1)
  have p2 := rneDiv_tie n' d' hd' (.inl t2)
  omega

/-! ### Rounding to 24 binary digits -/

/-- The significand of the rounded magnitude. -/
def significand (num den : Nat) : Nat := rneDiv num (den * 2 ^ quantum num den)

theorem roundMag_eq (num den : Nat) : roundMag num den = quantum num den * 2 ^ 23 + significand num den := rfl

theorem num_lt_quantum (num den : Nat) (hd : 0 < den) : num < den * 2 ^ (quantum num den + 24) := by
  have h : num / den < 2 ^ ((num / den).log2 + 1) := Nat.lt_log2_self
  have h2 : (2 : Nat) ^ ((num / den).log2 + 1) ≤ 2 ^ (quantum num den + 24) :=
    Nat.pow_le_pow_right (by omega) (by unfold quantum; omega)
  rw [Nat.mul_comm]
  exact (Nat.div_lt_iff_lt_mul hd).1 (lt_of_lt_of_le h h2)

theorem quantum_le_num (num den : Nat) (hd : 0 < den) (hq : quantum num den ≠ 0) :
    den * 2 ^ (quantum num den + 23) ≤ num := by
  have hl : (num / den).log2 = quantum num den + 23 := by unfold quantum at *; omega
  have h0 : num / den ≠ 0 := by
    intro h; rw [h] at hl; simp at hl
  have h : 2 ^ (num / den).log2 ≤ num / den := Nat.log2_self_le h0
  rw [hl] at h
  rw [Nat.mul_comm]
  exact (Nat.le_div_iff_mul_le hd).1 h

theorem significand_le (num den : Nat) (hd : 0 < den) : significand num den ≤ 2 ^ 24 := by
  have hp : 0 < den * 2 ^ quantum num den := Nat.mul_pos hd (by positivity)
  calc significand num den ≤ rneDiv (2 ^ 24 * (den * 2 ^ quantum num den)) (den * 2 ^ quantum num den) := by
        apply rneDiv_mono _ _ _ _ hp hp
        apply Nat.mul_le_mul_right
        have := num_lt_quantum num den hd
        rw [pow_add] at this
        nlinarith
    _ = 2 ^ 24 := rneDiv_exact _ _ hp

theorem significand_ge (num den : Nat) (hd : 0 < den) (hq : quantum num den ≠ 0) : 2 ^ 23 ≤ significand num den := by
  have hp : 0 < den * 2 ^ quantum num den := Nat.mul_pos hd (by positivity)
  calc 2 ^ 23 = rneDiv (2 ^ 23 * (den * 2 ^ quantum num den)) (den * 2 ^ quantum num den) := (rneDiv_exact _ _ hp).symm
    _ ≤ significand num den := by
        apply rneDiv_mono _ _ _ _ hp hp
        apply Nat.mul_le_mul_right
        have := quantum_le_num num den hd hq
        rw [pow_add] at this
        nlinarith

/-- The magnitude of the rounded encoding. -/
theorem magNat_roundMag (num den : Nat) (hd : 0 < den) :
    magNat (roundMag num den) = significand num den * 2 ^ quantum num den := by
  rw [roundMag_eq]
  apply magNat_pack _ _ (significand_le num den hd)
  by_cases h : quantum num den = 0
  · exact .inl h
  · exact .inr (significand_ge num den hd h)

theorem magNat_lt_succ (b : Nat) : magNat b < magNat (b + 1) := by
  obtain ⟨q, n, rfl, hn, hq, hm⟩ := exists_pack b
  rw [hm, Nat.add_assoc, magNat_pack q (n + 1) (by omega) (by omega)]
  have : 0 < 2 ^ q := by positivity
  nlinarith

/-- A greater encoding stands for a greater magnitude. -/
theorem magNat_strictMono : StrictMono magNat := strictMono_nat_of_lt_succ magNat_lt_succ

theorem magNat_injective : Function.Injective magNat := magNat_strictMono.injective

/-- A magnitude of 2^24 quanta or more is a whole number of quanta. -/
theorem magNat_multiple (b q : Nat) (h : 2 ^ (q + 23) ≤ magNat b) : ∃ k, magNat b = k * 2 ^ q := by
  obtain ⟨p, n, -, hn, -, hm⟩ := exists_pack b
  by_cases hpq : q ≤ p
  · exact ⟨n * 2 ^ (p - q), by rw [hm, Nat.mul_assoc, ← pow_add, Nat.sub_add_cancel hpq]⟩
  · exfalso
    have h1 : n * 2 ^ p < 2 ^ 24 * 2 ^ p := Nat.mul_lt_mul_of_pos_right hn (by positivity)
    rw [← pow_add] at h1
    have h2 : (2 : Nat) ^ (24 + p) ≤ 2 ^ (q + 23) := Nat.pow_le_pow_right (by omega) (by omega)
    omega

theorem normal_quanta (d q : Nat) : 2 ^ 23 * (d * 2 ^ q) = d * 2 ^ (q + 23) := by
  rw [pow_add, Nat.mul_left_comm, Nat.mul_comm (2 ^ 23)]

/-- No encoding is nearer to the exact quotient than the rounded one. -/
theorem roundMag_nearest (num den b : Nat) (hd : 0 < den) :
    |((magNat (roundMag num den) * den : Nat) : Int) - num| ≤ |((magNat b * den : Nat) : Int) - num| := by
  have hp : 0 < den * 2 ^ quantum num den := Nat.mul_pos hd (by positivity)
  have key : ∀ k, |((magNat (roundMag num den) * den : Nat) : Int) - num| ≤
      |((k * (den * 2 ^ quantum num den) : Nat) : Int) - num| := by
    intro k
    rw [magNat_roundMag num den hd, Nat.mul_assoc, Nat.mul_comm (2 ^ _) den]
    exact rneDiv_nearest _ _ _ hp
  by_cases hb' : quantum num den = 0 ∨ 2 ^ (quantum num den + 23) ≤ magNat b
  · have : ∃ k, magNat b = k * 2 ^ quantum num den := by
      rcases hb' with h | h
      · exact ⟨magNat b, by rw [h]; simp⟩
      · exact magNat_multiple _ _ h
    obtain ⟨k, hk⟩ := this
    rw [hk, Nat.mul_assoc, Nat.mul_comm (2 ^ _) den]
    exact key k
  · obtain ⟨h0, hlt⟩ := not_or.1 hb'
    have hlt := Nat.not_le.1 hlt
    have hle := quantum_le_num num den hd h0
    refine (key (2 ^ 23)).trans ?_
    have e : 2 ^ 23 * (den * 2 ^ quantum num den) = den * 2 ^ (quantum num den + 23) := normal_quanta _ _
    rw [e]
    have h1 : magNat b * den < den * 2 ^ (quantum num den + 23) := by
      rw [Nat.mul_comm]; exact Nat.mul_lt_mul_of_pos_left hlt hd
    rw [abs_of_nonpos (by omega), abs_of_nonpos (by omega)]
    omega

/-- Where another encoding is as near, the rounded one is even. -/
theorem roundMag_even_of_tie (num den b : Nat) (hd : 0 < den) (hb : b ≠ roundMag num den)
    (h : |((magNat b * den : Nat) : Int) - num| = |((magNat (roundMag num den) * den : Nat) : Int) - num|) :
    roundMag num den % 2 = 0 := by
  have hp : 0 < den * 2 ^ quantum num den := Nat.mul_pos hd (by positivity)
  have hr : magNat (roundMag num den) * den = significand num den * (den * 2 ^ quantum num den) := by
    rw [magNat_roundMag num den hd, Nat.mul_assoc, Nat.mul_comm (2 ^ _) den]
  suffices hs : significand num den % 2 = 0 by rw [roundMag_eq]; omega
  by_cases hb' : quantum num den = 0 ∨ 2 ^ (quantum num den + 23) ≤ magNat b
  · have : ∃ k, magNat b = k * 2 ^ quantum num den := by
      rcases hb' with h | h
      · exact ⟨magNat b, by rw [h]; simp⟩
      · exact magNat_multiple _ _ h
    obtain ⟨k, hk⟩ := this
    have hne : k ≠ significand num den := by
      rintro rfl
      exact hb (magNat_injective (by rw [hk, magNat_roundMag num den hd]))
    apply rneDiv_even_of_tie num _ k hp hne
    rw [hr, hk, Nat.mul_assoc, Nat.mul_comm (2 ^ _) den] at h
    exact h
  · exfalso
    obtain ⟨h0, hlt⟩ := not_or.1 hb'
    have hlt := Nat.not_le.1 hlt
    have hle := quantum_le_num num den hd h0
    have e : 2 ^ 23 * (den * 2 ^ quantum num den) = den * 2 ^ (quantum num den + 23) := normal_quanta _ _
    have h1 : magNat b * den < den * 2 ^ (quantum num den + 23) := by
      rw [Nat.mul_comm]; exact Nat.mul_lt_mul_of_pos_left hlt hd
    have k2 := rneDiv_nearest num _ (2 ^ 23) hp
    rw [e, abs_of_nonpos (a := ((den * 2 ^ (quantum num den + 23) : Nat) : Int) - num) (by omega)] at k2
    rw [abs_of_nonpos (a := ((magNat b * den : Nat) : Int) - num) (by omega), hr] at h
    simp only [significand] at h
    omega

/-- A representable magnitude is left as it is. -/
theorem roundMag_exact (b den : Nat) (hd : 0 < den) : roundMag (magNat b * den) den = b := by
  have h := roundMag_nearest (magNat b * den) den b hd
  rw [sub_self, abs_zero, abs_nonpos_iff] at h
  have h2 : magNat (roundMag (magNat b * den) den) * den = magNat b * den := by omega
  exact magNat_injective (Nat.eq_of_mul_eq_mul_right hd h2)

theorem quantum_mono {num num' den den' : Nat} (hd : 0 < den) (hd' : 0 < den') (h : num * den' ≤ num' * den) :
    quantum num den ≤ quantum num' den' := by
  have : num / den ≤ num' / den' := by
    rw [Nat.le_div_iff_mul_le hd']
    have h1 : num / den * den ≤ num := Nat.div_mul_le_self _ _
    have h2 : num / den * den' * den ≤ num' * den := by nlinarith
    exact Nat.le_of_mul_le_mul_right h2 hd
  unfold quantum
  have h2 : (num / den).log2 ≤ (num' / den').log2 := by
    rw [Nat.log2_eq_log_two, Nat.log2_eq_log_two]
    exact Nat.log_mono_right this
  omega

/-- Rounding is monotone. -/
theorem roundMag_mono {num num' den den' : Nat} (hd : 0 < den) (hd' : 0 < den') (h : num * den' ≤ num' * den) :
    roundMag num den ≤ roundMag num' den' := by
  have hq := quantum_mono hd hd' h
  rcases Nat.lt_or_ge (quantum num den) (quantum num' den') with hlt | hge
  · have h1 := significand_le num den hd
    have h2 := significand_ge num' den' hd' (by omega)
    rw [roundMag_eq, roundMag_eq]
    omega
  · have he : quantum num den = quantum num' den' := by omega
    rw [roundMag_eq, roundMag_eq, he]
    apply Nat.add_le_add_left
    unfold significand
    rw [he]
    apply rneDiv_mono _ _ _ _ (Nat.mul_pos hd (by positivity)) (Nat.mul_pos hd' (by positivity))
    have : num * den' * 2 ^ quantum num' den' ≤ num' * den * 2 ^ quantum num' den' := Nat.mul_le_mul_right _ h
    nlinarith

/-! ### The rounded datum -/

/-- The encoding of a finite datum, without its sign, is below the infinity's. -/
theorem isFinite_iff (a : F32) : isFinite a = true ↔ a.toNat % 2 ^ 31 < 0x7F800000 := by
  have := a.isLt
  simp only [isFinite, expField_eq, bne_iff_ne, ne_eq]
  omega

theorem isNaN_iff (a : F32) : isNaN a = true ↔ 0x7F800000 < a.toNat % 2 ^ 31 := by
  have := a.isLt
  simp only [isNaN, expField_eq, fracField_eq, Bool.and_eq_true, beq_iff_eq, bne_iff_ne, ne_eq]
  omega

theorem isInf_iff (a : F32) : isInf a = true ↔ a.toNat % 2 ^ 31 = 0x7F800000 := by
  have := a.isLt
  simp only [isInf, expField_eq, fracField_eq, Bool.and_eq_true, beq_iff_eq]
  omega

theorem signBit_iff (a : F32) : signBit a = true ↔ 2 ^ 31 ≤ a.toNat := by
  have := a.isLt
  simp only [signBit, BitVec.getLsbD, Nat.testBit_eq_decide_div_mod_eq, decide_eq_true_eq]
  omega

/-- A datum put together from a sign and an encoding below 2^31. -/
theorem toNat_or_zero (b : Nat) (hb : b < 2 ^ 31) (neg : Bool) :
    (BitVec.ofNat 32 b ||| zero neg).toNat = b + if neg then 2 ^ 31 else 0 := by
  cases neg
  · simp only [zero, Bool.false_eq_true, if_false, BitVec.toNat_or, BitVec.toNat_ofNat]
    rw [Nat.mod_eq_of_lt (by omega)]
    simp
  · simp only [zero, if_true, BitVec.toNat_or, BitVec.toNat_ofNat]
    rw [Nat.mod_eq_of_lt (by omega), Nat.or_comm]
    have : (0x80000000 % 2 ^ 32 ||| b : Nat) = 2 ^ 31 * 1 + b := by
      rw [Nat.two_pow_add_eq_or_of_lt hb]
      rfl
    omega

/-- The rounded datum, below overflow: its sign is the one given and its encoding the rounded one. -/
theorem toNat_round (neg : Bool) (num den : Nat) (h : roundMag num den < 0x7F800000) :
    (round neg num den).toNat = roundMag num den + if neg then 2 ^ 31 else 0 := by
  rw [round, if_pos h, toNat_or_zero _ (by omega)]

/-- The rounded datum at or past overflow is the infinity. -/
theorem round_overflow (neg : Bool) (num den : Nat) (h : ¬roundMag num den < 0x7F800000) :
    round neg num den = inf neg := if_neg h

/-- Rounding never makes a NaN. -/
theorem isNaN_round (neg : Bool) (num den : Nat) : isNaN (round neg num den) = false := by
  by_cases h : roundMag num den < 0x7F800000
  · rw [Bool.eq_false_iff, ne_eq, isNaN_iff, toNat_round _ _ _ h]
    cases neg <;> simp <;> omega
  · rw [round_overflow _ _ _ h]
    cases neg <;> decide

/-- The rounded datum has the sign given. -/
theorem signBit_round (neg : Bool) (num den : Nat) : signBit (round neg num den) = neg := by
  by_cases h : roundMag num den < 0x7F800000
  · rw [Bool.eq_iff_iff, signBit_iff, toNat_round _ _ _ h]
    cases neg
    · simp; omega
    · simp
  · rw [round_overflow _ _ _ h]
    cases neg <;> decide

/-- The rounded datum is finite exactly below overflow. -/
theorem isFinite_round (neg : Bool) (num den : Nat) :
    isFinite (round neg num den) = true ↔ roundMag num den < 0x7F800000 := by
  by_cases h : roundMag num den < 0x7F800000
  · rw [isFinite_iff, toNat_round _ _ _ h]
    cases neg <;> simp <;> omega
  · rw [round_overflow _ _ _ h]
    cases neg <;> simp only [h, iff_false] <;> decide

/-- The magnitude of the rounded datum, below overflow. -/
theorem mag_round (neg : Bool) (num den : Nat) (h : roundMag num den < 0x7F800000) :
    mag (round neg num den) = magNat (roundMag num den) := by
  rw [mag_eq, toNat_round _ _ _ h]
  congr 1
  cases neg <;> simp <;> omega

/-- The magnitude of any datum at least as great as the infinity's encoding, and the order of magnitudes. -/
theorem mag_le_iff (a b : F32) : mag a ≤ mag b ↔ a.toNat % 2 ^ 31 ≤ b.toNat % 2 ^ 31 := by
  rw [mag_eq, mag_eq]
  exact magNat_strictMono.le_iff_le

/-! ### The value of a result -/

/-- A whole number of units that 24 binary digits hold; every finite datum's value is one, and no primitive's rounding is
farther from the exact result than any of them. -/
def Representable (v : Int) : Prop := ∃ n q : Nat, n ≤ 2 ^ 24 ∧ v.natAbs = n * 2 ^ q

theorem representable_zero : Representable 0 := ⟨0, 0, by omega, rfl⟩

theorem representable_neg {v : Int} (h : Representable v) : Representable (-v) := by
  obtain ⟨n, q, hn, hv⟩ := h
  exact ⟨n, q, hn, by rw [Int.natAbs_neg, hv]⟩

theorem representable_mul_pow (n q : Nat) (hn : n ≤ 2 ^ 24) : Representable ((n * 2 ^ q : Nat) : Int) := ⟨n, q, hn, rfl⟩

/-- Every 24-digit magnitude has an encoding. -/
theorem exists_magNat (q : Nat) : ∀ n ≤ 2 ^ 24, ∃ b, magNat b = n * 2 ^ q := by
  induction q with
  | zero => exact fun n hn => ⟨0 * 2 ^ 23 + n, magNat_pack 0 n hn (.inl rfl)⟩
  | succ q ih =>
    intro n hn
    by_cases h : 2 ^ 23 ≤ n
    · exact ⟨(q + 1) * 2 ^ 23 + n, magNat_pack (q + 1) n hn (.inr h)⟩
    · obtain ⟨b, hb⟩ := ih (2 * n) (by omega)
      exact ⟨b, by rw [hb, pow_succ]; ring⟩

theorem representable_units (a : F32) : Representable (units a) := by
  obtain ⟨q, n, -, hn, -, hm⟩ := exists_pack (a.toNat % 2 ^ 31)
  refine ⟨n, q, hn.le, ?_⟩
  rw [← hm, ← mag_eq, units]
  split <;> simp

/-- A representable magnitude of 2^(q+23) units or more is a whole number of quanta 2^q. -/
theorem units_multiple (a : F32) (q : Nat) (h : (2 : Int) ^ (q + 23) ≤ units a) : ∃ k : Nat, units a = k * 2 ^ q := by
  have hpos : (0 : Int) < 2 ^ (q + 23) := by positivity
  have hu : units a = (mag a : Int) := by
    unfold units at *
    split
    · rename_i hs; rw [if_pos hs] at h; omega
    · rfl
  rw [hu, mag_eq] at h
  obtain ⟨k, hk⟩ := magNat_multiple _ q (by exact_mod_cast h)
  exact ⟨k, by rw [hu, mag_eq, hk]; push_cast; rfl⟩

theorem mag_lt_of_isFinite {a : F32} (h : isFinite a = true) : mag a < 2 ^ 277 := by
  rw [isFinite_iff] at h
  have e : magNat 0x7F800000 = 2 ^ 277 := by
    rw [show (0x7F800000 : Nat) = 254 * 2 ^ 23 + 2 ^ 23 from rfl, magNat_pack _ _ (by omega) (.inr le_rfl), ← pow_add]
  rw [mag_eq, ← e]
  exact magNat_strictMono h

theorem mag_of_isInf {a : F32} (h : isInf a = true) : mag a = 2 ^ 277 := by
  rw [isInf_iff] at h
  rw [mag_eq, h, show (0x7F800000 : Nat) = 254 * 2 ^ 23 + 2 ^ 23 from rfl, magNat_pack _ _ (by omega) (.inr le_rfl), ← pow_add]

theorem natAbs_units (a : F32) : (units a).natAbs = mag a := by
  unfold units; split <;> simp

/-- What is no NaN and of a magnitude below the infinity's is finite. -/
theorem isFinite_of_units {a : F32} (hn : isNaN a = false) (h : (units a).natAbs < 2 ^ 277) : isFinite a = true := by
  rw [natAbs_units] at h
  by_contra hf
  rw [isFinite_iff] at hf
  have hn' : ¬0x7F800000 < a.toNat % 2 ^ 31 := fun hc => by rw [(isNaN_iff a).2 hc] at hn; cases hn
  have := mag_of_isInf ((isInf_iff a).2 (by omega))
  omega

theorem isNaN_of_isFinite {a : F32} (h : isFinite a = true) : isNaN a = false := by
  rw [isFinite_iff] at h
  rw [Bool.eq_false_iff, ne_eq, isNaN_iff]
  omega

theorem isInf_of_isFinite {a : F32} (h : isFinite a = true) : isInf a = false := by
  rw [isFinite_iff] at h
  rw [Bool.eq_false_iff, ne_eq, isInf_iff]
  omega

/-- The value of the rounded datum, below overflow. -/
theorem units_round (neg : Bool) (num den : Nat) (h : roundMag num den < 0x7F800000) :
    units (round neg num den) = if neg then -(magNat (roundMag num den) : Int) else (magNat (roundMag num den) : Int) := by
  rw [units, signBit_round, mag_round _ _ _ h]

/-- No representable value is nearer to the exact signed quotient than the rounded datum's. -/
theorem units_round_nearest (neg : Bool) (num den : Nat) (hd : 0 < den) (h : roundMag num den < 0x7F800000) (v : Int)
    (hv : Representable v) :
    |units (round neg num den) * den - (if neg then -(num : Int) else num)| ≤
      |v * den - (if neg then -(num : Int) else num)| := by
  obtain ⟨n, q, hn, hvn⟩ := hv
  obtain ⟨b, hb⟩ := exists_magNat q n hn
  have h1 := roundMag_nearest num den b hd
  rw [hb, ← hvn] at h1
  rw [units_round _ _ _ h]
  have hs := Int.natAbs_eq v
  generalize v.natAbs = m at h1 hs
  simp only [Nat.cast_mul] at h1
  have e1 : ∀ x : Int, |(-x) * (den : Int) - -(num : Int)| = |x * den - num| := fun x => by
    rw [← abs_neg]; congr 1; ring
  -- the value of the other sign is no nearer than the magnitude
  have e2 : |(m : Int) * den - num| ≤ |(-(m : Int)) * den - num| := by
    have h0 : (0 : Int) ≤ (m : Int) * den := by positivity
    rw [abs_of_nonpos (a := (-(m : Int)) * den - num) (by nlinarith), abs_le]
    constructor <;> nlinarith
  rcases hs with rfl | rfl <;> cases neg <;> simp only [Bool.false_eq_true, if_false, if_true]
  · exact h1
  · rw [e1, ← neg_neg (m : Int), e1]; exact h1.trans e2
  · exact h1.trans e2
  · rw [e1, e1]; exact h1

/-- The rounding of a magnitude little above the greatest finite one does not overflow. -/
theorem roundMag_lt (num den : Nat) (hd : 0 < den) (h : num ≤ ((2 ^ 24 - 1) * 2 ^ 253 + 2 ^ 200) * den) :
    roundMag num den < 0x7F800000 := by
  refine lt_of_le_of_lt (roundMag_mono (num' := (2 ^ 24 - 1) * 2 ^ 253 + 2 ^ 200) (den' := 1) hd (by omega) (by omega))
    (by decide +kernel)

/-- The greatest finite magnitude. -/
theorem natAbs_units_le {a : F32} (h : isFinite a = true) : (units a).natAbs ≤ (2 ^ 24 - 1) * 2 ^ 253 := by
  rw [isFinite_iff] at h
  rw [natAbs_units, mag_eq, show (2 ^ 24 - 1) * 2 ^ 253 = magNat 0x7F7FFFFF by decide +kernel]
  exact magNat_strictMono.monotone (by omega)

/-- Data of the same nonzero value are the same. -/
theorem eq_of_units_eq {a b : F32} (h : units a = units b) (h0 : units a ≠ 0) : a = b := by
  have hm : mag a = mag b := by rw [← natAbs_units, ← natAbs_units, h]
  have hs : signBit a = signBit b := by
    unfold units at h h0
    rw [hm] at h h0
    cases ha : signBit a <;> cases hb : signBit b <;> simp only [ha, hb, Bool.false_eq_true, if_false, if_true] at h h0 <;>
      first | rfl | (exfalso; omega)
  rw [mag_eq, mag_eq] at hm
  have he := magNat_injective hm
  have := Bool.eq_iff_iff.1 hs
  rw [signBit_iff, signBit_iff] at this
  have := a.isLt
  have := b.isLt
  exact BitVec.eq_of_toNat_eq (by omega)

theorem units_fneg (a : F32) : units (fneg a) = -units a := by
  have hs : signBit (fneg a) = !signBit a := by simp [signBit, fneg]
  have hm : mag (fneg a) = mag a := by
    rw [mag_eq, mag_eq, fneg, BitVec.toNat_xor]
    congr 1
    apply Nat.eq_of_testBit_eq
    intro i
    rw [Nat.testBit_mod_two_pow, Nat.testBit_mod_two_pow, Nat.testBit_xor]
    rw [show (0x80000000#32).toNat = 2 ^ 31 from rfl]
    by_cases hi : i < 31
    · rw [Nat.testBit_two_pow_of_ne (by omega), Bool.xor_false]
    · simp [hi]
  rw [units, units, hs, hm]
  cases signBit a <;> simp

/-- What is known of a sum of finite data that does not overflow: finite, and no representable value is nearer to the
exact sum. -/
theorem fadd_nearest {a b : F32} (ha : isFinite a = true) (hb : isFinite b = true)
    (h : (units a + units b).natAbs ≤ (2 ^ 24 - 1) * 2 ^ 253 + 2 ^ 200) :
    isFinite (fadd a b) = true ∧
      ∀ v, Representable v → |units (fadd a b) - (units a + units b)| ≤ |v - (units a + units b)| := by
  unfold fadd
  rw [isNaN_of_isFinite ha, isNaN_of_isFinite hb, isInf_of_isFinite ha, isInf_of_isFinite hb]
  simp only [Bool.or_self, Bool.false_eq_true, if_false]
  by_cases h0 : units a + units b = 0
  · rw [if_pos h0, h0]
    generalize (signBit a && signBit b) = n
    cases n <;> refine ⟨by decide, fun v _ => ?_⟩
    · rw [show units (zero false) = 0 by decide]; simp
    · rw [show units (zero true) = 0 by decide]; simp
  · rw [if_neg h0]
    have hr := roundMag_lt (units a + units b).natAbs 1 (by omega) (by omega)
    refine ⟨(isFinite_round _ _ _).2 hr, fun v hv => ?_⟩
    have := units_round_nearest (decide (units a + units b < 0)) _ 1 (by omega) hr v hv
    have e : (if decide (units a + units b < 0) = true then -((units a + units b).natAbs : Int) else (units a + units b).natAbs) =
        units a + units b := by
      by_cases hneg : units a + units b < 0
      · simp only [hneg, decide_true, if_true]; omega
      · simp only [hneg, decide_false, Bool.false_eq_true, if_false]; omega
    rwa [e, Nat.cast_one, mul_one, mul_one] at this

/-- A sum that is representable is exact. -/
theorem fadd_exact {a b : F32} (ha : isFinite a = true) (hb : isFinite b = true)
    (h : (units a + units b).natAbs ≤ (2 ^ 24 - 1) * 2 ^ 253 + 2 ^ 200) (hr : Representable (units a + units b)) :
    units (fadd a b) = units a + units b := by
  have := (fadd_nearest ha hb h).2 _ hr
  rw [sub_self, abs_zero, abs_nonpos_iff] at this
  omega

/-- What is known of a product of finite data that does not overflow; the exact product is in units of 2^-298. -/
theorem fmul_nearest {a b : F32} (ha : isFinite a = true) (hb : isFinite b = true)
    (h : (units a * units b).natAbs ≤ ((2 ^ 24 - 1) * 2 ^ 253 + 2 ^ 200) * 2 ^ 149) :
    isFinite (fmul a b) = true ∧
      ∀ v, Representable v → |units (fmul a b) * 2 ^ 149 - units a * units b| ≤ |v * 2 ^ 149 - units a * units b| := by
  rw [Int.natAbs_mul, natAbs_units, natAbs_units] at h
  have hr := roundMag_lt (mag a * mag b) (2 ^ 149) (by positivity) h
  have e : fmul a b = round (signBit a != signBit b) (mag a * mag b) (2 ^ 149) := by
    unfold fmul
    rw [isNaN_of_isFinite ha, isNaN_of_isFinite hb, isInf_of_isFinite ha, isInf_of_isFinite hb]
    simp only [Bool.or_self, Bool.false_eq_true, if_false]
  refine ⟨by rw [e]; exact (isFinite_round _ _ _).2 hr, fun v hv => ?_⟩
  have := units_round_nearest (signBit a != signBit b) _ _ (by positivity) hr v hv
  have e2 : (if (signBit a != signBit b) = true then -((mag a * mag b : Nat) : Int) else (mag a * mag b : Nat)) =
      units a * units b := by
    unfold units
    cases signBit a <;> cases signBit b <;> simp
  rw [e2, ← e] at this
  exact_mod_cast this

theorem flt_iff (a b : F32) : flt a b = true ↔ isNaN a = false ∧ isNaN b = false ∧ units a < units b := by
  simp [flt, and_assoc]

theorem fle_iff (a b : F32) : fle a b = true ↔ isNaN a = false ∧ isNaN b = false ∧ units a ≤ units b := by
  simp [fle, and_assoc]

theorem fgt_iff (a b : F32) : fgt a b = true ↔ isNaN a = false ∧ isNaN b = false ∧ units b < units a := by
  rw [fgt, flt_iff]; tauto

theorem fge_iff (a b : F32) : fge a b = true ↔ isNaN a = false ∧ isNaN b = false ∧ units b ≤ units a := by
  rw [fge, fle_iff]; tauto

end F32
end Sys2Proof
end

