-- ==== Sys2Proof/Laws/Envelope.lean ====
section
/-! SUPPORT. The envelope properties (a) to (d) of spec/42_envelope.md R190, as checked lemmas about the envelope's
step. Levels are compared through `F32.units`, in which 1.0 is 2^149. -/
namespace Sys2Proof.Machine
open Sys2Proof.F32

/-! ### One step -/

theorem isNaN_two : isNaN 0x40000000#32 = false ∧ isFinite 0x40000000#32 = true ∧ units 0x40000000#32 = 2 ^ 150 := by
  decide +kernel

/-- An envelope in its attack, under the host's duty H1: LEVEL from 0 to a little above 1.0, TARGET 2.0 and MULT in
[0, 0x3F7FFFFE]. -/
structure Env.Attacking (e : Env) : Prop where
  target : e.target = 0x40000000#32
  multNonneg : 0 ≤ units e.mult
  multBound : units e.mult ≤ 2 ^ 149 - 2 ^ 126
  multFinite : isFinite e.mult = true
  level : isFinite e.level = true
  levelNonneg : 0 ≤ units e.level
  levelBound : units e.level ≤ 2 ^ 149 + 2 ^ 137

/-- One attack step raises LEVEL, to 2.0 at most. -/
theorem Env.Attacking.rises {e : Env} (h : e.Attacking) :
    isFinite e.nextLevel = true ∧ units e.level < units e.nextLevel ∧ units e.nextLevel ≤ 2 ^ 150 := by
  obtain ⟨ht, hm0, hm1, hmf, hlf, hl0, hl1⟩ := h
  unfold Env.nextLevel onePole
  rw [ht]
  obtain ⟨-, h2f, h2u⟩ := isNaN_two
  -- x = LEVEL - 2.0
  have hn2 : isFinite (fneg 0x40000000#32) = true ∧ units (fneg 0x40000000#32) = -2 ^ 150 := by decide +kernel
  obtain ⟨hxf, hx⟩ := fadd_nearest hlf hn2.1 (by rw [hn2.2]; omega)
  rw [hn2.2] at hx
  rw [← fsub] at hxf hx
  generalize fsub e.level 0x40000000#32 = x at *
  have hxlo := hx (-2 ^ 150) ⟨2, 149, by omega, by norm_num⟩
  have hxhi := hx 0 representable_zero
  rw [abs_of_nonpos (a := -2 ^ 150 - (units e.level + -2 ^ 150)) (by omega)] at hxlo
  rw [abs_of_nonneg (a := 0 - (units e.level + -2 ^ 150)) (by omega)] at hxhi
  rw [abs_le] at hxlo hxhi
  -- y = MULT * x
  have hz0 : units e.mult * units x ≤ 0 := mul_nonpos_of_nonneg_of_nonpos hm0 (by omega)
  have hz1 : (2 ^ 149 - 2 ^ 126) * units x ≤ units e.mult * units x := mul_le_mul_of_nonpos_right hm1 (by omega)
  obtain ⟨hyf, hy⟩ := fmul_nearest hmf hxf (by omega)
  generalize fmul e.mult x = y at *
  generalize units e.mult * units x = z at *
  have hy0 := hy 0 representable_zero
  rw [zero_mul, zero_sub, abs_neg, abs_of_nonpos (a := z) hz0, abs_le] at hy0
  -- MULT * x is short of x by almost a unit in the last place of 1.0, and x of LEVEL - 2.0 by half of one at most
  have hgap : ∃ v : Int, Representable v ∧ units e.level < v ∧
      (v ≤ 2 ^ 150 + units y ∨ v - (2 ^ 150 + units y) < 2 ^ 150 + units y - units e.level) := by
    rcases lt_or_ge (units e.level) (2 ^ 149) with hl | hl
    · have hx1 := hx (-2 ^ 149) ⟨1, 149, by omega, by norm_num⟩
      rw [abs_of_nonneg (a := -2 ^ 149 - (units e.level + -2 ^ 150)) (by omega), abs_le] at hx1
      obtain ⟨k, hk⟩ := units_multiple (fneg x) 126 (by rw [units_fneg]; omega)
      rw [units_fneg] at hk
      have hx2 := hx (-(((2 ^ 150 - units e.level + 2 ^ 125) / 2 ^ 126).toNat * 2 ^ 126 : Nat))
        (representable_neg (representable_mul_pow _ _ (by omega)))
      have hx3 : |-(((2 ^ 150 - units e.level + 2 ^ 125) / 2 ^ 126).toNat * 2 ^ 126 : Nat) - (units e.level + -2 ^ 150)| ≤ 2 ^ 125 := by
        rw [abs_le]; omega
      have hx4 := abs_le.1 (hx2.trans hx3)
      have hy1 := hy (-((k - 1) * 2 ^ 126 : Nat)) (representable_neg (representable_mul_pow _ _ (by omega)))
      rw [abs_of_nonpos (a := (-((k - 1) * 2 ^ 126 : Nat) : Int) * 2 ^ 149 - z) (by omega), abs_le] at hy1
      exact ⟨((units e.level / 2 ^ 125 + 1).toNat * 2 ^ 125 : Nat), representable_mul_pow _ _ (by omega), by omega,
        .inl (by omega)⟩
    · obtain ⟨k, hk⟩ := units_multiple e.level 126 (by omega)
      have hx1 := hx (-((2 ^ 24 - k) * 2 ^ 126 : Nat)) (representable_neg (representable_mul_pow _ _ (by omega)))
      rw [show (-((2 ^ 24 - k) * 2 ^ 126 : Nat) : Int) - (units e.level + -2 ^ 150) = 0 by omega, abs_zero, abs_nonpos_iff] at hx1
      have hy1 := hy (-((2 ^ 24 - k - 1) * 2 ^ 126 : Nat)) (representable_neg (representable_mul_pow _ _ (by omega)))
      refine ⟨((k + 1) * 2 ^ 126 : Nat), representable_mul_pow _ _ (by omega), by omega, ?_⟩
      rw [abs_le] at hy1
      rcases abs_cases ((-((2 ^ 24 - k - 1) * 2 ^ 126 : Nat) : Int) * 2 ^ 149 - z) with ⟨e1, e2⟩ | ⟨e1, e2⟩ <;> rw [e1] at hy1
      · right; omega
      · left; omega
  obtain ⟨v, hv, hlv, hgap⟩ := hgap
  obtain ⟨hsf, hs⟩ := fadd_nearest hyf (b := 0x40000000#32) h2f (by omega)
  rw [h2u] at hs
  have hs1 := hs v hv
  have hs2 := hs (2 ^ 150) ⟨2, 149, by omega, by norm_num⟩
  rw [abs_of_nonneg (a := 2 ^ 150 - (units y + 2 ^ 150)) (by omega), abs_le] at hs2
  refine ⟨hsf, ?_, by omega⟩
  rw [abs_le] at hs1
  rcases abs_cases (v - (units y + 2 ^ 150)) with ⟨e1, -⟩ | ⟨e1, -⟩ <;> rw [e1] at hs1 <;> omega

/-- An attack step whose new LEVEL reaches 1 + 2^-22 ends the attack (R180's third corner case). -/
theorem Env.Attacking.ends {e : Env} (h : e.Attacking) (hl : 2 ^ 149 + 2 ^ 127 ≤ units e.nextLevel) :
    e.attackEnds Config.machine = true := by
  obtain ⟨hf, -, hu⟩ := h.rises
  obtain ⟨-, h2f, h2u⟩ := isNaN_two
  have h3 : isNaN 0x40400000#32 = false ∧ units 0x40400000#32 = 3 * 2 ^ 149 := by decide +kernel
  unfold Env.attackEnds
  rw [h.target, Config.machine_attackDone, fgt_iff]
  obtain ⟨hsf, hs⟩ := fadd_nearest hf h2f (by rw [h2u]; omega)
  refine ⟨isNaN_of_isFinite hsf, h3.1, ?_⟩
  rw [h2u] at hs
  have hs1 := hs (3 * 2 ^ 149 + 2 ^ 127) ⟨3 * 2 ^ 22 + 1, 127, by omega, by norm_num⟩
  rw [abs_of_nonpos (a := 3 * 2 ^ 149 + 2 ^ 127 - (units e.nextLevel + 2 ^ 150)) (by omega), abs_le] at hs1
  omega

theorem Env.step_of_not_ends {c : Config} {e : Env} (h : e.attackEnds c = false) : e.step c = { e with level := e.nextLevel } := by
  rw [Env.step, h]; rfl

theorem Env.step_of_ends {c : Config} {e : Env} (h : e.attackEnds c = true) :
    e.step c = { e with level := e.nextLevel, mult := e.decay, target := e.sustain, phase := .decaySustain } := if_pos h

theorem Env.step_level (c : Config) (e : Env) : (e.step c).level = e.nextLevel := by
  unfold Env.step; split <;> rfl

theorem Env.Attacking.step {e : Env} (h : e.Attacking) (hn : e.attackEnds Config.machine = false) :
    (e.step Config.machine).Attacking := by
  obtain ⟨hf, hr, -⟩ := h.rises
  have hb : units e.nextLevel ≤ 2 ^ 149 + 2 ^ 137 := by
    by_contra hc
    rw [h.ends (by omega)] at hn
    cases hn
  rw [Env.step_of_not_ends hn]
  exact ⟨h.target, h.multNonneg, h.multBound, h.multFinite, hf, by
    show 0 ≤ units e.nextLevel
    have := h.levelNonneg; omega, hb⟩

/-! ### The end of the attack -/

/-- From an attacking envelope some step, the first at which the threshold test fires, ends the attack; until then the
envelope is attacking and its LEVEL is no less than at the start. -/
theorem Env.Attacking.ends_eventually : ∀ (fuel : Nat) {e : Env}, e.Attacking → (2 ^ 150 - units e.level).toNat ≤ fuel →
    ∃ k, (∀ j ≤ k, ((Env.step Config.machine)^[j] e).Attacking ∧ units e.level ≤ units ((Env.step Config.machine)^[j] e).level) ∧
      (∀ j < k, ((Env.step Config.machine)^[j] e).attackEnds Config.machine = false) ∧
      ((Env.step Config.machine)^[k] e).attackEnds Config.machine = true
  | 0, e, h, hf => by have := h.levelBound; omega
  | fuel + 1, e, h, hf => by
    cases hn : e.attackEnds Config.machine with
    | true => exact ⟨0, fun j hj => by rw [Nat.le_zero.1 hj]; exact ⟨h, le_rfl⟩, nofun, hn⟩
    | false =>
      obtain ⟨-, hr, -⟩ := h.rises
      have hl := Env.step_level Config.machine e
      obtain ⟨k, h1, h2, h3⟩ := ends_eventually fuel (h.step hn) (by rw [hl]; have := h.levelBound; omega)
      refine ⟨k + 1, fun j hj => ?_, fun j hj => ?_, h3⟩
      · cases j with
        | zero => exact ⟨h, le_rfl⟩
        | succ j =>
          obtain ⟨a, b⟩ := h1 j (by omega)
          rw [Function.iterate_succ_apply]
          exact ⟨a, by rw [hl] at b; omega⟩
      · cases j with
        | zero => exact hn
        | succ j => rw [Function.iterate_succ_apply]; exact h2 j (by omega)

theorem Env.Attacking.isInAttack {e : Env} (h : e.Attacking) : e.isInAttack Config.machine = true := by
  rw [Env.isInAttack, h.target]; decide +kernel

/-- What ENV_ATTACK leaves is attacking, and above the silence floor. -/
theorem Env.attackFrom_attacking {e : Env} (hl0 : fge e.level 0x00000000#32 = true) (hl1 : flt e.level 0x3F800000#32 = true)
    (hm0 : fge e.attack 0x00000000#32 = true) (hm1 : fle e.attack 0x3F7FFFFE#32 = true) :
    (e.attackFrom Config.machine).Attacking ∧ units 0x38D1B717#32 < units (e.attackFrom Config.machine).level := by
  have c0 : units 0x00000000#32 = 0 := by decide +kernel
  have c1 : units 0x3F800000#32 = 2 ^ 149 := by decide +kernel
  have cm : units 0x3F7FFFFE#32 = 2 ^ 149 - 2 ^ 126 := by decide +kernel
  have cs : fadd Config.machine.silence Config.machine.silence = 0x3951B717#32 := by decide +kernel
  have cf : isFinite 0x3951B717#32 = true ∧ 0 < units 0x38D1B717#32 ∧ units 0x38D1B717#32 < units 0x3951B717#32 ∧
    units 0x3951B717#32 < 2 ^ 137 := by decide +kernel
  obtain ⟨hln, -, hl0⟩ := (fge_iff _ _).1 hl0
  obtain ⟨hmn, -, hm0⟩ := (fge_iff _ _).1 hm0
  have hl1 := ((flt_iff _ _).1 hl1).2.2
  have hm1 := ((fle_iff _ _).1 hm1).2.2
  rw [c0] at hl0 hm0
  rw [c1] at hl1
  rw [cm] at hm1
  have hmf := isFinite_of_units hmn (by omega)
  obtain ⟨hsf, hs⟩ := fadd_nearest (isFinite_of_units hln (by omega)) cf.1 (by omega)
  have hs0 := hs _ (representable_units 0x3951B717#32)
  have hs1 := hs (2 ^ 149 + 2 ^ 137) ⟨2 ^ 12 + 1, 137, by omega, by norm_num⟩
  rw [abs_of_nonpos (a := units 0x3951B717#32 - (units e.level + units 0x3951B717#32)) (by omega), abs_le] at hs0
  rw [abs_of_nonneg (a := 2 ^ 149 + 2 ^ 137 - (units e.level + units 0x3951B717#32)) (by omega), abs_le] at hs1
  unfold Env.attackFrom
  rw [cs]
  exact ⟨⟨rfl, hm0, hm1, hmf, hsf, by show 0 ≤ units (fadd _ _); omega, by show units (fadd _ _) ≤ _; omega⟩,
    by show _ < units (fadd _ _); omega⟩

/-! ### R190 (a'): the largest ATTACK never ends -/

/-- A step that leaves LEVEL at 1.0 or below under the attack's target does not end the attack. -/
theorem Env.not_ends_of_le_one {e : Env} (ht : e.target = 0x40000000#32) (hf : isFinite e.nextLevel = true)
    (h0 : 0 ≤ units e.nextLevel) (h1 : units e.nextLevel ≤ 2 ^ 149) : e.attackEnds Config.machine = false := by
  obtain ⟨-, h2f, h2u⟩ := isNaN_two
  have h3 : units 0x40400000#32 = 3 * 2 ^ 149 := by decide +kernel
  unfold Env.attackEnds
  rw [ht, Config.machine_attackDone, Bool.eq_false_iff, ne_eq, fgt_iff]
  obtain ⟨-, hs⟩ := fadd_nearest hf h2f (by rw [h2u]; omega)
  rw [h2u] at hs
  have hs1 := hs (3 * 2 ^ 149) ⟨3, 149, by omega, by norm_num⟩
  rw [abs_of_nonneg (a := 3 * 2 ^ 149 - (units e.nextLevel + 2 ^ 150)) (by omega), abs_le] at hs1
  omega

/-- With MULT 0x3F7FFFFF and LEVEL - 2.0 rounded to `-(1 + j 2^-23)`, a step takes one unit in the last place of 1.0 off
that distance: LEVEL becomes exactly `1 - (j - 1) 2^-23`. -/
theorem Env.stall_step {e : Env} (ht : e.target = 0x40000000#32) (hm : e.mult = 0x3F7FFFFF#32) {j : Nat} (hj0 : 1 ≤ j)
    (hj1 : j ≤ 2 ^ 23) (hxf : isFinite (fsub e.level 0x40000000#32) = true)
    (hx : units (fsub e.level 0x40000000#32) = -((2 ^ 23 + j) * 2 ^ 126)) :
    isFinite e.nextLevel = true ∧ units e.nextLevel = (2 ^ 23 + 1 - j) * 2 ^ 126 := by
  obtain ⟨-, h2f, h2u⟩ := isNaN_two
  have hmu : isFinite 0x3F7FFFFF#32 = true ∧ units 0x3F7FFFFF#32 = 2 ^ 149 - 2 ^ 125 := by decide +kernel
  unfold Env.nextLevel onePole
  rw [ht, hm]
  generalize fsub e.level 0x40000000#32 = x at *
  have hz : units 0x3F7FFFFF#32 * units x = -((2 ^ 149 - 2 ^ 125) * 2 ^ 126 * (2 ^ 23 + j)) := by rw [hmu.2, hx]; ring
  obtain ⟨hyf, hy⟩ := fmul_nearest hmu.1 hxf (by rw [hz]; omega)
  rw [hz] at hy
  generalize fmul 0x3F7FFFFF#32 x = y at *
  have hy1 := hy (-((2 ^ 23 + j - 1) * 2 ^ 126 : Nat)) (representable_neg (representable_mul_pow _ _ (by omega)))
  rw [abs_of_nonneg (a := (-((2 ^ 23 + j - 1) * 2 ^ 126 : Nat) : Int) * 2 ^ 149 -
    -((2 ^ 149 - 2 ^ 125) * 2 ^ 126 * (2 ^ 23 + j))) (by omega), abs_le] at hy1
  obtain ⟨k, hk⟩ := units_multiple (fneg y) 126 (by rw [units_fneg]; omega)
  rw [units_fneg] at hk
  have hyu : units y = -((2 ^ 23 + j - 1) * 2 ^ 126) := by omega
  have hsum : units y + units 0x40000000#32 = (2 ^ 23 + 1 - j) * 2 ^ 126 := by rw [hyu, h2u]; ring
  have hrep : Representable (units y + units 0x40000000#32) := ⟨2 ^ 23 + 1 - j, 126, by omega, by rw [hsum]; omega⟩
  exact ⟨(fadd_nearest hyf h2f (by rw [hsum]; omega)).1, by rw [fadd_exact hyf h2f (by rw [hsum]; omega) hrep, hsum]⟩

/-- The attack of R190 (a') after `k` of its 8386930 steps to 1.0. -/
structure Env.Stalling (k : Nat) (e : Env) : Prop where
  target : e.target = 0x40000000#32
  mult : e.mult = 0x3F7FFFFF#32
  level : isFinite e.level = true
  distanceFinite : isFinite (fsub e.level 0x40000000#32) = true
  distance : units (fsub e.level 0x40000000#32) = -((2 ^ 23 + (8386930 - k : Nat)) * 2 ^ 126)
  levelUnits : k = 0 ∧ e.level = 0x3951B717#32 ∨ units e.level = (1678 + k) * 2 ^ 126

theorem Env.Stalling.step {k : Nat} {e : Env} (h : e.Stalling k) (hk : k < 8386930) :
    (e.step Config.machine).Stalling (k + 1) := by
  obtain ⟨hf, hu⟩ := Env.stall_step h.target h.mult (j := 8386930 - k) (by omega) (by omega) h.distanceFinite h.distance
  rw [Env.step_of_not_ends (Env.not_ends_of_le_one h.target hf (by omega) (by omega))]
  have hn2 : isFinite (fneg 0x40000000#32) = true ∧ units (fneg 0x40000000#32) = -2 ^ 150 := by decide +kernel
  have hb : (units e.nextLevel + units (fneg 0x40000000#32)).natAbs ≤ (2 ^ 24 - 1) * 2 ^ 253 + 2 ^ 200 := by
    rw [hn2.2]; omega
  refine ⟨h.target, h.mult, hf, (fadd_nearest hf hn2.1 hb).1, ?_, .inr ?_⟩
  · show units (fadd e.nextLevel _) = _
    rw [fadd_exact hf hn2.1 hb ⟨2 ^ 23 + (8386930 - (k + 1)), 126, by omega, by rw [hn2.2]; omega⟩, hn2.2]
    omega
  · show units e.nextLevel = _
    omega

/-- LEVEL is below 1.0 before the last of the 8386930 steps and 1.0 after it, and above SILENCE. -/
theorem Env.Stalling.level_bounds {k : Nat} {e : Env} (h : e.Stalling k) (hk : k ≤ 8386930) :
    units 0x38D1B717#32 < units e.level ∧ (k < 8386930 → units e.level < 2 ^ 149) ∧
      (k = 8386930 → e.level = 0x3F800000#32) := by
  have c0 : units 0x38D1B717#32 < units 0x3951B717#32 ∧ units 0x3951B717#32 < 2 ^ 149 ∧
      units 0x38D1B717#32 < 1678 * 2 ^ 126 := by decide +kernel
  have c1 : units 0x3F800000#32 = 2 ^ 149 := by decide +kernel
  rcases h.levelUnits with ⟨rfl, hl⟩ | hl
  · rw [hl]; exact ⟨c0.1, fun _ => c0.2.1, fun h => by omega⟩
  · refine ⟨by omega, fun _ => by omega, fun h => eq_of_units_eq (by rw [c1]; omega) (by omega)⟩

/-- R190 (a'): after ENV_ATTACK from LEVEL +0.0 with ATTACK 0x3F7FFFFF, LEVEL stays below 1.0 for 8386930 steps, is exactly
1.0 after them and from then on, and the voice stays active and in attack for ever. -/
theorem largest_attack_never_ends {e : Env} (hl : e.level = 0x00000000#32) (hm : e.attack = 0x3F7FFFFF#32) (k : Nat) :
    ((Env.step Config.machine)^[k] (e.attackFrom Config.machine)).isActive Config.machine = true ∧
    ((Env.step Config.machine)^[k] (e.attackFrom Config.machine)).isInAttack Config.machine = true ∧
    (k < 8386930 → flt ((Env.step Config.machine)^[k] (e.attackFrom Config.machine)).level 0x3F800000#32 = true) ∧
    (8386930 ≤ k → ((Env.step Config.machine)^[k] (e.attackFrom Config.machine)).level = 0x3F800000#32) := by
  have c0 : fadd 0x00000000#32 (fadd Config.machine.silence Config.machine.silence) = 0x3951B717#32 := by decide +kernel
  have c1 : isFinite 0x3951B717#32 = true ∧ isFinite (fsub 0x3951B717#32 0x40000000#32) = true ∧
      units (fsub 0x3951B717#32 0x40000000#32) = -((2 ^ 23 + 8386930) * 2 ^ 126) := by decide +kernel
  have c2 : units 0x3F800000#32 = 2 ^ 149 := by decide +kernel
  have hlev : (e.attackFrom Config.machine).level = 0x3951B717#32 := by rw [← c0, ← hl]; rfl
  have start : (e.attackFrom Config.machine).Stalling 0 :=
    ⟨rfl, hm, by rw [hlev]; exact c1.1, by rw [hlev]; exact c1.2.1, by rw [hlev]; exact c1.2.2, .inl ⟨rfl, hlev⟩⟩
  have climb : ∀ k ≤ 8386930, ((Env.step Config.machine)^[k] (e.attackFrom Config.machine)).Stalling k := by
    intro k
    induction k with
    | zero => exact fun _ => start
    | succ k ih => intro hk; rw [Function.iterate_succ_apply']; exact (ih (by omega)).step (by omega)
  -- at 1.0 the step changes nothing
  have stay : ∀ f : Env, f.target = 0x40000000#32 → f.mult = 0x3F7FFFFF#32 → f.level = 0x3F800000#32 →
      f.step Config.machine = f := by
    intro f ht hm hl
    have hn : f.nextLevel = 0x3F800000#32 := by
      rw [Env.nextLevel, ht, hm, hl]; decide +kernel
    rw [Env.step_of_not_ends (Env.not_ends_of_le_one ht (by rw [hn]; decide) (by rw [hn, c2]; norm_num) (by rw [hn, c2])), hn, ← hl]
  have settled : ∀ d, (Env.step Config.machine)^[8386930 + d] (e.attackFrom Config.machine) =
      (Env.step Config.machine)^[8386930] (e.attackFrom Config.machine) := by
    intro d
    have hs := climb 8386930 le_rfl
    generalize hn : (8386930 : Nat) = n at *
    induction d with
    | zero => rfl
    | succ d ih =>
      rw [← Nat.add_assoc, Function.iterate_succ_apply', ih]
      exact stay _ hs.target hs.mult ((hs.level_bounds (by omega)).2.2 (by omega))
  have shown : ∀ {k : Nat} {f : Env}, f.Stalling k → k ≤ 8386930 →
      f.isActive Config.machine = true ∧ f.isInAttack Config.machine = true := by
    intro k f h hk
    refine ⟨?_, by rw [Env.isInAttack, h.target]; decide +kernel⟩
    rw [Env.isActive, Config.machine_silence, fgt_iff]
    exact ⟨isNaN_of_isFinite h.level, by decide, (h.level_bounds hk).1⟩
  rcases Nat.lt_or_ge k 8386930 with hk | hk
  · have h := climb k hk.le
    obtain ⟨h1, h2⟩ := shown h hk.le
    refine ⟨h1, h2, fun _ => (flt_iff _ _).2 ⟨isNaN_of_isFinite h.level, by decide, ?_⟩, fun hc => absurd hk (by omega)⟩
    rw [c2]; exact (h.level_bounds hk.le).2.1 hk
  · obtain ⟨d, rfl⟩ := Nat.exists_eq_add_of_le hk
    rw [settled d]
    have h := climb 8386930 le_rfl
    obtain ⟨h1, h2⟩ := shown h le_rfl
    exact ⟨h1, h2, fun hc => absurd hk (by omega), fun _ => (h.level_bounds le_rfl).2.2 rfl⟩

/-! ### R190 (b) and (a): active until the release, and the attack that leads there -/

/-- What `sustaining` says, in values. -/
theorem sustaining_iff (e : Env) : Safety.sustaining e = true ↔
    (units 0x38D1B717#32 < units e.sustain ∧ units e.sustain < 2 ^ 150 ∧ isFinite e.sustain = true) ∧
    (0 ≤ units e.decay ∧ units e.decay < 2 ^ 149 ∧ isFinite e.decay = true) ∧
    e.target = e.sustain ∧ e.mult = e.decay ∧ isFinite e.level = true ∧
    (units e.sustain ≤ units e.level ∨ 2 ^ 149 ≤ units e.level) := by
  have c0 : units 0x00000000#32 = 0 := by decide +kernel
  have c1 : units 0x3F800000#32 = 2 ^ 149 := by decide +kernel
  have cs : 0 < units 0x38D1B717#32 := by decide +kernel
  obtain ⟨-, -, c2⟩ := isNaN_two
  have fin : ∀ x : F32, isNaN x = false → 0 ≤ units x → units x < 2 ^ 150 → isFinite x = true :=
    fun x hn h0 h1 => isFinite_of_units hn (by omega)
  have n0 : isNaN 0x00000000#32 = false := by decide
  have n1 : isNaN 0x3F800000#32 = false := by decide
  have n2 : isNaN 0x40000000#32 = false := by decide
  have ns : isNaN 0x38D1B717#32 = false := by decide
  simp only [Safety.sustaining, Safety.dutyH2, Safety.unitMultiplier, Bool.and_eq_true, Bool.or_eq_true, beq_iff_eq,
    fgt_iff, flt_iff, fge_iff, Config.machine_silence, c0, c1, c2, n0, n1, n2, ns, true_and]
  constructor
  · rintro ⟨⟨⟨⟨⟨⟨⟨hsn, hs0⟩, -, hs1⟩, ⟨hdn, hd0⟩, -, hd1⟩, ht⟩, hm⟩, hlf⟩, hl⟩
    rw [ht] at hl
    exact ⟨⟨hs0, hs1, fin _ hsn (by omega) hs1⟩, ⟨hd0, hd1, fin _ hdn hd0 (by omega)⟩, ht, hm, hlf, hl.imp (·.2.2) (·.2)⟩
  · rintro ⟨⟨hs0, hs1, hsf⟩, ⟨hd0, hd1, hdf⟩, ht, hm, hlf, hl⟩
    have hln := isNaN_of_isFinite hlf
    have hsn := isNaN_of_isFinite hsf
    have hdn := isNaN_of_isFinite hdf
    rw [ht]
    exact ⟨⟨⟨⟨⟨⟨⟨hsn, hs0⟩, hsn, hs1⟩, ⟨hdn, hd0⟩, hdn, hd1⟩, rfl⟩, hm⟩, hlf⟩, hl.imp (fun h => ⟨hln, hsn, h⟩) (fun h => ⟨hln, h⟩)⟩

/-- One step toward SUSTAIN: a LEVEL at or above it stays so, and one at or below it does not fall and does not pass it. -/
theorem sustaining_next {e : Env} (h : Safety.sustaining e = true) : isFinite e.nextLevel = true ∧
    (units e.sustain ≤ units e.level → units e.sustain ≤ units e.nextLevel) ∧
    (units e.level ≤ units e.sustain → units e.level ≤ units e.nextLevel ∧ units e.nextLevel ≤ units e.sustain) := by
  obtain ⟨⟨hs0, hs1, hsf⟩, ⟨hd0, hd1, hdf⟩, ht, hm, hlf, hl⟩ := (sustaining_iff e).1 h
  have cs : 0 < units 0x38D1B717#32 := by decide +kernel
  unfold Env.nextLevel onePole
  rw [ht, hm]
  have hL := natAbs_units_le hlf
  have hS := representable_units e.sustain
  have hfn : isFinite (fneg e.sustain) = true := isFinite_of_units (by
    have := units_fneg e.sustain
    rw [Bool.eq_false_iff, ne_eq, isNaN_iff]
    have hm := congrArg Int.natAbs this
    rw [Int.natAbs_neg, natAbs_units, natAbs_units, mag_eq, mag_eq] at hm
    rw [magNat_injective hm]
    exact fun hc => by rw [← isNaN_iff, isNaN_of_isFinite hsf] at hc; cases hc) (by rw [units_fneg]; omega)
  have hb : (units e.level + units (fneg e.sustain)).natAbs ≤ (2 ^ 24 - 1) * 2 ^ 253 + 2 ^ 200 := by
    rw [units_fneg]; omega
  obtain ⟨hxf, hx⟩ := fadd_nearest hlf hfn hb
  rw [← fsub] at hxf hx
  rw [units_fneg] at hx
  generalize fsub e.level e.sustain = x at *
  rcases lt_or_ge (units e.sustain) (units e.level) with hcase | hcase
  · have hx0 := hx 0 representable_zero
    have hx1 := hx _ (representable_units e.level)
    rw [abs_of_nonpos (a := 0 - (units e.level + -units e.sustain)) (by omega), abs_le] at hx0
    rw [abs_of_nonneg (a := units e.level - (units e.level + -units e.sustain)) (by omega), abs_le] at hx1
    have hz0 : 0 ≤ units e.decay * units x := mul_nonneg hd0 (by omega)
    have hz1 : units e.decay * units x ≤ 2 ^ 149 * units x := mul_le_mul_of_nonneg_right hd1.le (by omega)
    obtain ⟨hyf, hy⟩ := fmul_nearest hdf hxf (by omega)
    generalize fmul e.decay x = y at *
    generalize units e.decay * units x = z at *
    have hy0 := hy 0 representable_zero
    have hy1 := hy _ (representable_units x)
    rw [abs_of_nonpos (a := 0 * 2 ^ 149 - z) (by omega), abs_le] at hy0
    rw [abs_of_nonneg (a := units x * 2 ^ 149 - z) (by omega), abs_le] at hy1
    obtain ⟨hnf, hn⟩ := fadd_nearest hyf hsf (by omega)
    have hn0 := hn _ hS
    rw [abs_of_nonpos (a := units e.sustain - (units y + units e.sustain)) (by omega), abs_le] at hn0
    exact ⟨hnf, fun _ => by omega, fun hc => absurd hc (by omega)⟩
  · -- LEVEL - SUSTAIN is exact: 0, or both are whole units in the last place of 1.0
    have hexact : Representable (units e.level + -units e.sustain) := by
      rcases hcase.eq_or_lt with h | h
      · rw [h, add_neg_cancel]; exact representable_zero
      · obtain ⟨p, hp⟩ := units_multiple e.level 126 (by omega)
        obtain ⟨q, hq⟩ := units_multiple e.sustain 126 (by omega)
        exact ⟨q - p, 126, by omega, by omega⟩
    have hx0 := hx _ hexact
    rw [sub_self, abs_zero, abs_nonpos_iff] at hx0
    have hz0 : units e.decay * units x ≤ 0 := mul_nonpos_of_nonneg_of_nonpos hd0 (by omega)
    have hz1 : 2 ^ 149 * units x ≤ units e.decay * units x := mul_le_mul_of_nonpos_right hd1.le (by omega)
    obtain ⟨hyf, hy⟩ := fmul_nearest hdf hxf (by omega)
    generalize fmul e.decay x = y at *
    generalize units e.decay * units x = z at *
    have hy0 := hy 0 representable_zero
    have hy1 := hy _ (representable_units x)
    rw [abs_of_nonneg (a := 0 * 2 ^ 149 - z) (by omega), abs_le] at hy0
    rw [abs_of_nonpos (a := units x * 2 ^ 149 - z) (by omega), abs_le] at hy1
    obtain ⟨hnf, hn⟩ := fadd_nearest hyf hsf (by omega)
    have hn0 := hn _ hS
    have hn1 := hn _ (representable_units e.level)
    rw [abs_of_nonneg (a := units e.sustain - (units y + units e.sustain)) (by omega), abs_le] at hn0
    rw [abs_of_nonpos (a := units e.level - (units y + units e.sustain)) (by omega), abs_le] at hn1
    exact ⟨hnf, fun _ => by omega, fun _ => ⟨by omega, by omega⟩⟩

/-- R190 (b): a step keeps a sustaining envelope sustaining, and a sustaining envelope is active. -/
theorem sustaining_step {e : Env} (h : Safety.sustaining e = true) : Safety.sustaining (e.step Config.machine) = true ∧
    (e.step Config.machine).sustain = e.sustain ∧ e.isActive Config.machine = true := by
  obtain ⟨hs, hd, ht, hm, hlf, hl⟩ := (sustaining_iff e).1 h
  obtain ⟨hnf, h1, h2⟩ := sustaining_next h
  have hstep : (e.step Config.machine).sustain = e.sustain ∧ (e.step Config.machine).decay = e.decay ∧
      (e.step Config.machine).target = e.sustain ∧ (e.step Config.machine).mult = e.decay := by
    unfold Env.step; split <;> simp [ht, hm]
  obtain ⟨k1, k2, k3, k4⟩ := hstep
  have cs : units 0x38D1B717#32 < 2 ^ 149 := by decide +kernel
  refine ⟨(sustaining_iff _).2 ?_, k1, ?_⟩
  · rw [k1, k2, k3, k4, Env.step_level]
    exact ⟨hs, hd, rfl, rfl, hnf, by omega⟩
  · rw [Env.isActive, Config.machine_silence, fgt_iff]
    exact ⟨isNaN_of_isFinite hlf, by decide, by omega⟩

/-- The transition leads into it: the step that ends an attack leaves the envelope sustaining, under duties H1 and H2. -/
theorem attack_end_sustains {e : Env} (h2 : Safety.dutyH2 e = true) (hd : Safety.unitMultiplier e.decay = true)
    (ht : e.target = 0x40000000#32) (hf : isFinite e.nextLevel = true) (he : e.attackEnds Config.machine = true) :
    Safety.sustaining (e.step Config.machine) = true := by
  obtain ⟨-, h2f, h2u⟩ := isNaN_two
  have h3 : units 0x40400000#32 = 3 * 2 ^ 149 := by decide +kernel
  have hl : 2 ^ 149 ≤ units e.nextLevel := by
    by_contra hc
    have hU := natAbs_units_le hf
    rw [Env.attackEnds, ht, Config.machine_attackDone, fgt_iff] at he
    have hs := (fadd_nearest hf h2f (by rw [h2u]; omega)).2 (3 * 2 ^ 149) ⟨3, 149, by omega, by norm_num⟩
    rw [h2u, abs_of_nonneg (a := 3 * 2 ^ 149 - (units e.nextLevel + 2 ^ 150)) (by omega), abs_le] at hs
    omega
  have c1 : units 0x3F800000#32 = 2 ^ 149 := by decide +kernel
  have hge : fge e.nextLevel 0x3F800000#32 = true := (fge_iff _ _).2 ⟨isNaN_of_isFinite hf, by decide, by rw [c1]; exact hl⟩
  rw [Env.step_of_ends he, Safety.sustaining]
  have h2' : Safety.dutyH2 { e with
      level := e.nextLevel, mult := e.decay, target := e.sustain, phase := .decaySustain } = true := h2
  simp only [h2', hd, hf, hge, beq_self_eq_true, Bool.or_true, Bool.and_self]

/-- R190 (a): after ENV_ATTACK from LEVEL in [0, 1), with ATTACK in [0, 0x3F7FFFFE], LEVEL rises strictly at each step up to
the one whose threshold test fires, the voice being active and in attack; after that step, with SUSTAIN not at or above 2.0
(duty H2), it is out of attack, and under duties H1 and H2 it is sustaining. -/
theorem attack_ends {e : Env} (hl0 : fge e.level 0x00000000#32 = true) (hl1 : flt e.level 0x3F800000#32 = true)
    (hm0 : fge e.attack 0x00000000#32 = true) (hm1 : fle e.attack 0x3F7FFFFE#32 = true)
    (hs : fge e.sustain 0x40000000#32 = false) :
    ∃ k, (∀ j ≤ k,
        ((Env.step Config.machine)^[j] (e.attackFrom Config.machine)).isActive Config.machine = true ∧
        ((Env.step Config.machine)^[j] (e.attackFrom Config.machine)).isInAttack Config.machine = true ∧
        flt ((Env.step Config.machine)^[j] (e.attackFrom Config.machine)).level
          ((Env.step Config.machine)^[j + 1] (e.attackFrom Config.machine)).level = true) ∧
      ((Env.step Config.machine)^[k + 1] (e.attackFrom Config.machine)).isInAttack Config.machine = false ∧
      (Safety.dutyH2 e = true → Safety.unitMultiplier e.decay = true →
        Safety.sustaining ((Env.step Config.machine)^[k + 1] (e.attackFrom Config.machine)) = true) := by
  obtain ⟨ha, hsil⟩ := Env.attackFrom_attacking hl0 hl1 hm0 hm1
  have keep : ∀ j, ((Env.step Config.machine)^[j] (e.attackFrom Config.machine)).sustain = e.sustain ∧
      ((Env.step Config.machine)^[j] (e.attackFrom Config.machine)).decay = e.decay := by
    intro j
    induction j with
    | zero => exact ⟨rfl, rfl⟩
    | succ j ih => rw [Function.iterate_succ_apply', ← ih.1, ← ih.2, Env.step]; split <;> exact ⟨rfl, rfl⟩
  obtain ⟨k, h1, -, h3⟩ := ha.ends_eventually _ le_rfl
  refine ⟨k, fun j hj => ?_, ?_, fun h2 hd => ?_⟩
  · obtain ⟨hj1, hj2⟩ := h1 j hj
    obtain ⟨hf, hr, -⟩ := hj1.rises
    refine ⟨?_, hj1.isInAttack, ?_⟩
    · rw [Env.isActive, Config.machine_silence, fgt_iff]
      exact ⟨isNaN_of_isFinite hj1.level, by decide, by omega⟩
    · rw [Function.iterate_succ_apply', Env.step_level, flt_iff]
      exact ⟨isNaN_of_isFinite hj1.level, isNaN_of_isFinite hf, hr⟩
  · rw [Function.iterate_succ_apply', Env.isInAttack, Env.step_of_ends h3]
    show fge ((Env.step Config.machine)^[k] (e.attackFrom Config.machine)).sustain 0x40000000#32 = false
    rw [(keep k).1, hs]
  · obtain ⟨hk, -⟩ := h1 k le_rfl
    rw [Function.iterate_succ_apply']
    exact attack_end_sustains (by rw [Safety.dutyH2, (keep k).1]; exact h2) (by rw [(keep k).2]; exact hd) hk.target
      hk.rises.1 h3

/-! ### The release -/

/-- A released envelope under duty H1: TARGET +0.0, MULT in [0, 1), and LEVEL between 0 and 3.0. -/
structure Env.Released (e : Env) : Prop where
  target : e.target = 0x00000000#32
  multNonneg : 0 ≤ units e.mult
  multBound : units e.mult ≤ 2 ^ 149 - 2 ^ 125
  multFinite : isFinite e.mult = true
  level : isFinite e.level = true
  levelNonneg : 0 ≤ units e.level
  levelBound : units e.level ≤ 3 * 2 ^ 149

/-- A released step multiplies LEVEL by MULT and rounds once: `LEVEL <- fl(r * LEVEL)`. -/
theorem Env.Released.nearest {e : Env} (h : e.Released) : isFinite e.nextLevel = true ∧
    ∀ v, Representable v → |units e.nextLevel * 2 ^ 149 - units e.mult * units e.level| ≤
      |v * 2 ^ 149 - units e.mult * units e.level| := by
  obtain ⟨ht, hm0, hm1, hmf, hlf, hl0, hl1⟩ := h
  have c0 : isFinite 0x00000000#32 = true ∧ units 0x00000000#32 = 0 := by decide
  have c0' : isFinite (fneg 0x00000000#32) = true ∧ units (fneg 0x00000000#32) = 0 := by decide
  unfold Env.nextLevel onePole
  rw [ht]
  have hx := fadd_exact hlf c0'.1 (by omega) (by rw [c0'.2, add_zero]; exact representable_units _)
  have hxf := (fadd_nearest hlf c0'.1 (by omega)).1
  rw [← fsub, c0'.2, add_zero] at hx
  rw [← fsub] at hxf
  generalize fsub e.level 0x00000000#32 = x at *
  have hz0 : 0 ≤ units e.mult * units x := mul_nonneg hm0 (by omega)
  have hz1 : units e.mult * units x ≤ 2 ^ 149 * units x := mul_le_mul_of_nonneg_right (by omega) (by omega)
  obtain ⟨hyf, hy⟩ := fmul_nearest hmf hxf (by omega)
  generalize fmul e.mult x = y at *
  have hy0 := hy 0 representable_zero
  rw [zero_mul, zero_sub, abs_neg, abs_of_nonneg (a := units e.mult * units x) hz0, abs_le] at hy0
  have hyb : (units y + units 0x00000000#32).natAbs ≤ (2 ^ 24 - 1) * 2 ^ 253 + 2 ^ 200 := by rw [c0.2]; omega
  refine ⟨(fadd_nearest hyf c0.1 hyb).1, fun v hv => ?_⟩
  rw [fadd_exact hyf c0.1 hyb (by rw [c0.2, add_zero]; exact representable_units _), c0.2, add_zero, ← hx]
  exact hy v hv

/-- A released step gives LEVEL between 0 and what it was. -/
theorem Env.Released.bounds {e : Env} (h : e.Released) : 0 ≤ units e.nextLevel ∧ units e.nextLevel ≤ units e.level := by
  obtain ⟨-, hn⟩ := h.nearest
  have h0 := h.multNonneg
  have h1 := h.levelNonneg
  have hz0 : 0 ≤ units e.mult * units e.level := mul_nonneg h0 h1
  have hz1 : units e.mult * units e.level ≤ 2 ^ 149 * units e.level :=
    mul_le_mul_of_nonneg_right (by have := h.multBound; omega) h1
  have n0 := hn 0 representable_zero
  have n1 := hn _ (representable_units e.level)
  rw [zero_mul, zero_sub, abs_neg, abs_of_nonneg (a := units e.mult * units e.level) hz0, abs_le] at n0
  rw [abs_of_nonneg (a := units e.level * 2 ^ 149 - units e.mult * units e.level) (by omega), abs_le] at n1
  constructor <;> omega

/-- The threshold test does not fire on a released envelope, whose LEVEL is no more than 3.0. -/
theorem Env.Released.not_ends {e : Env} (h : e.Released) : e.attackEnds Config.machine = false := by
  obtain ⟨hf, -⟩ := h.nearest
  obtain ⟨h0, h1⟩ := h.bounds
  have := h.levelBound
  have c0 : isFinite 0x00000000#32 = true ∧ units 0x00000000#32 = 0 := by decide
  have c3 : units 0x40400000#32 = 3 * 2 ^ 149 := by decide +kernel
  unfold Env.attackEnds
  rw [h.target, Config.machine_attackDone, Bool.eq_false_iff, ne_eq, fgt_iff,
    fadd_exact hf c0.1 (by omega) (by rw [c0.2, add_zero]; exact representable_units _), c0.2, c3]
  omega

theorem Env.Released.step {e : Env} (h : e.Released) : (e.step Config.machine).Released := by
  obtain ⟨hf, -⟩ := h.nearest
  obtain ⟨h0, h1⟩ := h.bounds
  have := h.levelBound
  rw [Env.step_of_not_ends h.not_ends]
  exact ⟨h.target, h.multNonneg, h.multBound, h.multFinite, hf, h0, by show units e.nextLevel ≤ _; omega⟩

/-- A released step lowers every LEVEL above the least normal value, 2^-126. At 2^-126 itself it need not
(`least_normal_is_fixed`). -/
theorem Env.Released.falls {e : Env} (h : e.Released) (hl : 2 ^ 23 < units e.level) : units e.nextLevel < units e.level := by
  obtain ⟨-, hn⟩ := h.nearest
  obtain ⟨q, n, hb, hn24, hq, hm⟩ := exists_pack (e.level.toNat % 2 ^ 31)
  have hu : units e.level = ((n * 2 ^ q : Nat) : Int) := by
    have := natAbs_units e.level
    rw [mag_eq, hm] at this
    have := h.levelNonneg
    omega
  have hz : units e.mult * units e.level ≤ (2 ^ 149 - 2 ^ 125) * units e.level :=
    mul_le_mul_of_nonneg_right h.multBound h.levelNonneg
  generalize units e.mult * units e.level = z at *
  -- the nearest datum below LEVEL is nearer to the product than LEVEL is
  by_cases hn23 : 2 ^ 23 < n
  · have hv := hn ((n - 1) * 2 ^ q : Nat) (representable_mul_pow _ _ (by omega))
    rw [Nat.sub_mul, Nat.one_mul] at hv
    have hP : (2 ^ 23 + 1) * 2 ^ q ≤ n * 2 ^ q := Nat.mul_le_mul_right _ hn23
    have hQ : 0 < 2 ^ q := by positivity
    generalize n * 2 ^ q = P at *
    generalize 2 ^ q = Q at *
    rw [abs_le] at hv
    rcases abs_cases (((P - Q : Nat) : Int) * 2 ^ 149 - z) with ⟨e1, e2⟩ | ⟨e1, e2⟩ <;> rw [e1] at hv <;> omega
  · obtain ⟨p, rfl⟩ : ∃ p, q = p + 1 := by
      refine ⟨q - 1, ?_⟩
      rcases Nat.eq_zero_or_pos q with h0 | h0
      · subst h0; simp at hu; omega
      · omega
    have hv := hn ((2 ^ 24 - 1) * 2 ^ p : Nat) (representable_mul_pow _ _ (by omega))
    have hn' : n = 2 ^ 23 := by omega
    rw [hn', show 2 ^ 23 * 2 ^ (p + 1) = 2 ^ 24 * 2 ^ p by rw [pow_succ]; ring] at hu
    generalize 2 ^ p = Q at *
    rw [abs_of_nonneg (a := (((2 ^ 24 - 1) * Q : Nat) : Int) * 2 ^ 149 - z) (by omega), abs_le] at hv
    omega

/-- R190 (d) says "every normal LEVEL"; 2^-126 with RELEASE 0x3F7FFFFF is the exception: the product is halfway between two
subnormals and the tie goes back to 2^-126. It is far below SILENCE, so the release ends all the same. -/
theorem least_normal_is_fixed : fmul 0x3F7FFFFF#32 0x00800000#32 = 0x00800000#32 := by decide +kernel

theorem Env.Released.isActive_iff {e : Env} (h : e.Released) :
    e.isActive Config.machine = true ↔ units 0x38D1B717#32 < units e.level := by
  rw [Env.isActive, Config.machine_silence, fgt_iff]
  exact ⟨fun h => h.2.2, fun hl => ⟨isNaN_of_isFinite h.level, by decide, hl⟩⟩

/-- Over steps the envelope stays released and its MULT stays what it was. -/
theorem Env.Released.iterate {e : Env} (h : e.Released) (k : Nat) :
    ((Env.step Config.machine)^[k] e).Released ∧ ((Env.step Config.machine)^[k] e).mult = e.mult := by
  induction k with
  | zero => exact ⟨h, rfl⟩
  | succ k ih =>
    rw [Function.iterate_succ_apply']
    exact ⟨ih.1.step, by rw [Env.step_of_not_ends ih.1.not_ends]; exact ih.2⟩

/-- R190 (d): a released envelope is inactive after finitely many steps, at each of which, while it is active, LEVEL falls
strictly. -/
theorem Env.Released.ends : ∀ (fuel : Nat) {e : Env}, e.Released → (units e.level).toNat ≤ fuel →
    ∃ k, (∀ j < k, ((Env.step Config.machine)^[j] e).isActive Config.machine = true ∧
        flt ((Env.step Config.machine)^[j + 1] e).level ((Env.step Config.machine)^[j] e).level = true) ∧
      ((Env.step Config.machine)^[k] e).isActive Config.machine = false
  | fuel, e, h, hf => by
    have hsil : 2 ^ 23 < units 0x38D1B717#32 := by decide +kernel
    cases ha : e.isActive Config.machine with
    | false => exact ⟨0, nofun, ha⟩
    | true =>
      have hl := h.isActive_iff.1 ha
      have hfall := h.falls (by omega)
      have hlev := Env.step_level Config.machine e
      cases fuel with
      | zero => omega
      | succ fuel =>
        obtain ⟨k, h1, h2⟩ := ends fuel h.step (by rw [hlev]; have := h.bounds; omega)
        refine ⟨k + 1, fun j hj => ?_, h2⟩
        cases j with
        | zero =>
          refine ⟨ha, (flt_iff _ _).2 ⟨?_, isNaN_of_isFinite h.level, by rw [Function.iterate_one, hlev]; exact hfall⟩⟩
          rw [Function.iterate_one]; exact isNaN_of_isFinite h.step.level
        | succ j => exact h1 j (by omega)

/-- A released step whose exact product is normal loses at most one part in 2^24 to rounding. -/
theorem Env.Released.keeps {e : Env} (h : e.Released) (hz : 2 ^ 23 * 2 ^ 149 ≤ units e.mult * units e.level) :
    units e.mult * units e.level * (2 ^ 24 - 1) ≤ units e.nextLevel * 2 ^ 149 * 2 ^ 24 := by
  obtain ⟨-, hn⟩ := h.nearest
  generalize units e.mult * units e.level = z at *
  obtain ⟨m, hm⟩ : ∃ m : Nat, z / 2 ^ 149 = m := ⟨(z / 2 ^ 149).toNat, by omega⟩
  have hlog1 : 2 ^ m.log2 ≤ m := Nat.log2_self_le (by omega)
  have hlog2 : m < 2 ^ (m.log2 + 1) := Nat.lt_log2_self
  have hl23 : 23 ≤ m.log2 := by
    by_contra hc
    have : 2 ^ (m.log2 + 1) ≤ 2 ^ 23 := Nat.pow_le_pow_right (by omega) (by omega)
    omega
  obtain ⟨q, hq⟩ : ∃ q, m.log2 = q + 23 := ⟨m.log2 - 23, by omega⟩
  rw [hq, pow_add] at hlog1
  rw [hq, show q + 23 + 1 = q + 24 from rfl, pow_add] at hlog2
  -- the multiple of 2^q nearest to the product is representable
  have hQ : (0 : Int) < 2 ^ q * 2 ^ 149 := by positivity
  obtain ⟨j, hj⟩ : ∃ j : Nat, (2 * z + 2 ^ q * 2 ^ 149) / (2 * (2 ^ q * 2 ^ 149)) = j :=
    ⟨_, (Int.toNat_of_nonneg (Int.ediv_nonneg (by omega) (by omega))).symm⟩
  have hj1 := Int.mul_ediv_add_emod (2 * z + 2 ^ q * 2 ^ 149) (2 * (2 ^ q * 2 ^ 149))
  have hj2 := Int.emod_nonneg (2 * z + 2 ^ q * 2 ^ 149) (b := 2 * (2 ^ q * 2 ^ 149)) (by omega)
  have hj3 := Int.emod_lt_of_pos (2 * z + 2 ^ q * 2 ^ 149) (b := 2 * (2 ^ q * 2 ^ 149)) (by omega)
  rw [hj] at hj1
  have hzm : z < (m + 1) * 2 ^ 149 := by omega
  have hzm' : (m : Int) * 2 ^ 149 ≤ z := by omega
  have hc1 : (2 : Int) ^ q * 2 ^ 23 ≤ m := by exact_mod_cast hlog1
  have hc2 : (m : Int) + 1 ≤ 2 ^ q * 2 ^ 24 := by exact_mod_cast hlog2
  have hj24 : j ≤ 2 ^ 24 := by
    have : (j : Int) ≤ 2 ^ 24 := by
      by_contra hc
      have : (2 ^ 24 + 1) * (2 ^ q * 2 ^ 149) ≤ (j : Int) * (2 ^ q * 2 ^ 149) := mul_le_mul_of_nonneg_right (by omega) hQ.le
      nlinarith
    exact_mod_cast this
  have hv := hn _ (representable_mul_pow j q hj24)
  simp only [Nat.cast_mul, Nat.cast_pow, Nat.cast_ofNat] at hv
  have hd : |(j : Int) * 2 ^ q * 2 ^ 149 - z| * 2 ^ 24 ≤ z := by
    rcases abs_cases ((j : Int) * 2 ^ q * 2 ^ 149 - z) with ⟨e1, -⟩ | ⟨e1, -⟩ <;> rw [e1] <;> nlinarith
  have := neg_abs_le (units e.nextLevel * 2 ^ 149 - z)
  linarith

/-- While the level so bounded stays above the silence floor, LEVEL after `j` steps is at least `L0 * (r (1 - 2^-24))^j`. -/
theorem Env.Released.above {e : Env} (h : e.Released) {rho : ℝ} {k : Nat}
    (hrho : rho = (units e.mult : ℝ) / 2 ^ 149 * (1 - 1 / 2 ^ 24))
    (hk : (units 0x38D1B717#32 : ℝ) < units e.level * rho ^ k) :
    ∀ j ≤ k, (units e.level : ℝ) * rho ^ j ≤ units ((Env.step Config.machine)^[j] e).level := by
  have hM0 : (0 : ℝ) ≤ units e.mult := by exact_mod_cast h.multNonneg
  have hM1 : (units e.mult : ℝ) ≤ 2 ^ 149 := by
    have : units e.mult ≤ 2 ^ 149 := by have := h.multBound; omega
    exact_mod_cast this
  have hr0 : 0 ≤ rho := by rw [hrho]; exact mul_nonneg (by positivity) (by norm_num)
  have hr1 : rho ≤ 1 := by
    rw [hrho]
    exact mul_le_one₀ ((div_le_one (by positivity)).2 hM1) (by norm_num) (by norm_num)
  have hL0 : (0 : ℝ) ≤ units e.level := by exact_mod_cast h.levelNonneg
  have hsil : (2 : ℝ) ^ 23 ≤ (units 0x38D1B717#32 : ℝ) := by
    have : (2 : Int) ^ 23 ≤ units 0x38D1B717#32 := by decide +kernel
    exact_mod_cast this
  intro j
  induction j with
  | zero => intro _; simp
  | succ j ih =>
    intro hj
    have ih := ih (by omega)
    obtain ⟨hR, hmult⟩ := h.iterate j
    rw [Function.iterate_succ_apply', Env.step_level]
    generalize (Env.step Config.machine)^[j] e = f at *
    have hstep : (units e.level : ℝ) * rho ^ (j + 1) ≤ rho * units f.level := by
      rw [pow_succ]; nlinarith
    have hmono : (units e.level : ℝ) * rho ^ k ≤ units e.level * rho ^ (j + 1) :=
      mul_le_mul_of_nonneg_left (pow_le_pow_of_le_one hr0 hr1 hj) hL0
    have hp : rho * units f.level * 2 ^ 149 ≤ (units e.mult : ℝ) * units f.level := by
      rw [hrho]
      have : (0 : ℝ) ≤ (units e.mult : ℝ) * units f.level :=
        mul_nonneg hM0 (by exact_mod_cast hR.levelNonneg)
      calc (units e.mult : ℝ) / 2 ^ 149 * (1 - 1 / 2 ^ 24) * units f.level * 2 ^ 149
          = (units e.mult : ℝ) * units f.level * (1 - 1 / 2 ^ 24) := by field_simp
        _ ≤ _ := by linarith
    have hz : 2 ^ 23 * 2 ^ 149 ≤ units f.mult * units f.level := by
      have : ((2 : ℝ) ^ 23 * 2 ^ 149) ≤ (units f.mult : ℝ) * units f.level := by rw [hmult]; linarith
      exact_mod_cast this
    have hkeep : (units f.mult : ℝ) * units f.level * (2 ^ 24 - 1) ≤ units f.nextLevel * 2 ^ 149 * 2 ^ 24 := by
      exact_mod_cast hR.keeps hz
    rw [hmult] at hkeep
    have : rho * units f.level ≤ units f.nextLevel := by
      rw [hrho]
      calc (units e.mult : ℝ) / 2 ^ 149 * (1 - 1 / 2 ^ 24) * units f.level
          = (units e.mult : ℝ) * units f.level * (2 ^ 24 - 1) / (2 ^ 149 * 2 ^ 24) := by field_simp
        _ ≤ _ := by rw [div_le_iff₀ (by positivity)]; linarith
    linarith

/-- R190 (c): a released envelope of MULT `r` in (0, 1) is active over the release time constant, that is for every number
of steps `k ≤ -1 / ln r`, if LEVEL over `e` is above SILENCE by more than the `k` roundings. -/
theorem Env.Released.active_through {e : Env} (h : e.Released) (hr : 0 < units e.mult) {k : Nat}
    (hk : (k : ℝ) * -Real.log ((units e.mult : ℝ) / 2 ^ 149) ≤ 1)
    (hl : (units 0x38D1B717#32 : ℝ) * Real.exp 1 < units e.level * (1 - 1 / 2 ^ 24) ^ k) :
    ∀ j ≤ k, ((Env.step Config.machine)^[j] e).isActive Config.machine = true := by
  have hr0 : (0 : ℝ) < (units e.mult : ℝ) / 2 ^ 149 := by
    have : (0 : ℝ) < units e.mult := by exact_mod_cast hr
    positivity
  have hr1 : (units e.mult : ℝ) / 2 ^ 149 * (1 - 1 / 2 ^ 24) ≤ 1 := by
    have : (units e.mult : ℝ) ≤ 2 ^ 149 := by
      have : units e.mult ≤ 2 ^ 149 := by have := h.multBound; omega
      exact_mod_cast this
    exact mul_le_one₀ ((div_le_one (by positivity)).2 this) (by norm_num) (by norm_num)
  have hL0 : (0 : ℝ) ≤ units e.level := by exact_mod_cast h.levelNonneg
  have hpow : Real.exp (-1) ≤ ((units e.mult : ℝ) / 2 ^ 149) ^ k := by
    rw [← Real.exp_log hr0, ← Real.exp_nat_mul]
    exact Real.exp_le_exp.2 (by linarith)
  have habove : (units 0x38D1B717#32 : ℝ) < units e.level * ((units e.mult : ℝ) / 2 ^ 149 * (1 - 1 / 2 ^ 24)) ^ k := by
    have h1 : (units 0x38D1B717#32 : ℝ) < units e.level * (1 - 1 / 2 ^ 24) ^ k * Real.exp (-1) := by
      rw [Real.exp_neg, ← div_eq_mul_inv, lt_div_iff₀ (Real.exp_pos 1)]; exact hl
    have h2 : (units e.level : ℝ) * (1 - 1 / 2 ^ 24) ^ k * Real.exp (-1) ≤
        units e.level * (1 - 1 / 2 ^ 24) ^ k * ((units e.mult : ℝ) / 2 ^ 149) ^ k :=
      mul_le_mul_of_nonneg_left hpow (mul_nonneg hL0 (pow_nonneg (by norm_num) k))
    rw [mul_pow]
    linarith
  intro j hj
  rw [(h.iterate j).1.isActive_iff]
  have hj1 := h.above rfl habove j hj
  have hj2 : (units e.level : ℝ) * ((units e.mult : ℝ) / 2 ^ 149 * (1 - 1 / 2 ^ 24)) ^ k ≤
      units e.level * ((units e.mult : ℝ) / 2 ^ 149 * (1 - 1 / 2 ^ 24)) ^ j :=
    mul_le_mul_of_nonneg_left (pow_le_pow_of_le_one (mul_nonneg hr0.le (by norm_num)) hr1 hj) hL0
  have : (units 0x38D1B717#32 : ℝ) < units ((Env.step Config.machine)^[j] e).level := by linarith
  exact_mod_cast this

/-- What ENV_RELEASE leaves of an active envelope is released, under duty H1. -/
theorem Env.releaseFrom_released {e : Env} (ha : e.isActive Config.machine = true) (hl : fle e.level 0x40400000#32 = true)
    (hr0 : fge e.release 0x00000000#32 = true) (hr1 : flt e.release 0x3F800000#32 = true) : e.releaseFrom.Released := by
  have c0 : units 0x00000000#32 = 0 := by decide +kernel
  have c1 : units 0x3F800000#32 = 2 ^ 149 := by decide +kernel
  have c3 : units 0x40400000#32 = 3 * 2 ^ 149 := by decide +kernel
  have cs : 0 < units 0x38D1B717#32 := by decide +kernel
  rw [Env.isActive, Config.machine_silence] at ha
  obtain ⟨hln, -, hl0⟩ := (fgt_iff _ _).1 ha
  have hl1 := ((fle_iff _ _).1 hl).2.2
  obtain ⟨hrn, -, hr0⟩ := (fge_iff _ _).1 hr0
  have hr1 := ((flt_iff _ _).1 hr1).2.2
  rw [c0] at hr0
  rw [c1] at hr1
  rw [c3] at hl1
  have hrf := isFinite_of_units hrn (by omega)
  have hlf := isFinite_of_units hln (by omega)
  refine ⟨rfl, hr0, ?_, hrf, hlf, by show 0 ≤ units e.level; omega, hl1⟩
  show units e.release ≤ _
  by_contra hc
  obtain ⟨k, hk⟩ := units_multiple e.release 125 (by omega)
  omega

/-- R190 (d): after ENV_RELEASE, with RELEASE in [0, 1) and LEVEL at most 3.0, the voice is inactive after finitely many
steps, LEVEL falling at each until then. -/
theorem release_ends {e : Env} (hl : fle e.level 0x40400000#32 = true) (hr0 : fge e.release 0x00000000#32 = true)
    (hr1 : flt e.release 0x3F800000#32 = true) :
    ∃ k, (∀ j < k, ((Env.step Config.machine)^[j] e.releaseFrom).isActive Config.machine = true ∧
        flt ((Env.step Config.machine)^[j + 1] e.releaseFrom).level ((Env.step Config.machine)^[j] e.releaseFrom).level = true) ∧
      ((Env.step Config.machine)^[k] e.releaseFrom).isActive Config.machine = false := by
  cases ha : e.isActive Config.machine with
  | false => exact ⟨0, nofun, ha⟩
  | true => exact (Env.releaseFrom_released ha hl hr0 hr1).ends _ le_rfl

/-- R190 (c), from ENV_RELEASE on. -/
theorem release_active_through {e : Env} (hl : fle e.level 0x40400000#32 = true) (hr0 : fgt e.release 0x00000000#32 = true)
    (hr1 : flt e.release 0x3F800000#32 = true) {k : Nat}
    (hk : (k : ℝ) * -Real.log ((units e.release : ℝ) / 2 ^ 149) ≤ 1)
    (hs : (units 0x38D1B717#32 : ℝ) * Real.exp 1 < units e.level * (1 - 1 / 2 ^ 24) ^ k) :
    ∀ j ≤ k, ((Env.step Config.machine)^[j] e.releaseFrom).isActive Config.machine = true := by
  have c0 : units 0x00000000#32 = 0 := by decide +kernel
  obtain ⟨hrn, -, hr⟩ := (fgt_iff _ _).1 hr0
  rw [c0] at hr
  have ha : e.isActive Config.machine = true := by
    rw [Env.isActive, Config.machine_silence, fgt_iff]
    refine ⟨((fle_iff _ _).1 hl).1, by decide, ?_⟩
    have h1 : (1 : ℝ) ≤ Real.exp 1 := Real.one_le_exp (by norm_num)
    have h2 : (1 - 1 / 2 ^ 24 : ℝ) ^ k ≤ 1 := pow_le_one₀ (by norm_num) (by norm_num)
    have h3 : (0 : ℝ) < (1 - 1 / 2 ^ 24 : ℝ) ^ k := pow_pos (by norm_num) k
    have h4 : (0 : ℝ) < units 0x38D1B717#32 := by
      have : 0 < units 0x38D1B717#32 := by decide +kernel
      exact_mod_cast this
    have h5 : (units 0x38D1B717#32 : ℝ) < units e.level := by nlinarith
    exact_mod_cast h5
  exact (Env.releaseFrom_released ha hl ((fge_iff _ _).2 ⟨hrn, by decide, by rw [c0]; exact hr.le⟩) hr1).active_through hr hk hs

end Sys2Proof.Machine
end

