-- ==== Sys2Proof/Laws/Memory.lean ====
section
/-! SUPPORT. The laws of the output RAM: read after write, what a write leaves alone, and that every write keeps the canonical
form and the RAM's range. -/
namespace Sys2Proof.Machine
namespace Memory

@[simp] theorem readByte_nil (a : Nat) : Memory.readByte [] a = unlisted := rfl

/-- An address below every listed one reads as unlisted. -/
theorem readByte_below (m : Memory) (a : Nat) (h : ∀ x ∈ m, a < x.1) : m.readByte a = unlisted := by
  induction m with
  | nil => rfl
  | cons x t ih =>
    have hx := h x (by simp)
    simp only [readByte]
    rw [if_neg (by omega)]
    exact ih fun y hy => h y (by simp [hy])

/-- The canonical form of a list is that of its head and of its tail. -/
theorem wf_cons (x : Host.Cell) (t : Memory) :
    Memory.wf (x :: t) ↔ (∀ y ∈ t, x.1 < y.1) ∧ x.2 ≠ unlisted ∧ Memory.wf t := by
  simp only [Memory.wf, List.pairwise_cons, List.mem_cons, forall_eq_or_imp]
  tauto

/-- A byte write leaves every other address alone. -/
theorem readByte_writeByte_ne (m : Memory) {a a' : Nat} (b : Byte) (h : a' ≠ a) :
    (m.writeByte a b).readByte a' = m.readByte a' := by
  induction m with
  | nil =>
    simp only [writeByte]
    split <;> simp [readByte, Ne.symm h]
  | cons x t ih =>
    obtain ⟨k, y⟩ := x
    simp only [writeByte]
    split
    · split <;> simp [readByte, Ne.symm h]
    · split
      · subst_vars
        split <;> simp [readByte, Ne.symm h]
      · simp only [readByte, ih]

/-- A byte written is the byte read. -/
theorem readByte_writeByte_same (m : Memory) (a : Nat) (b : Byte) (hm : m.wf) :
    (m.writeByte a b).readByte a = b := by
  induction m with
  | nil =>
    simp only [writeByte]
    split
    · subst_vars; rfl
    · simp [readByte]
  | cons x t ih =>
    obtain ⟨k, y⟩ := x
    obtain ⟨hlt, -, ht⟩ := (wf_cons _ _).1 hm
    simp only [writeByte]
    split
    · rename_i hak
      split
      · subst_vars
        exact readByte_below _ _ (by
          intro z hz
          rcases List.mem_cons.1 hz with rfl | hz
          · exact hak
          · exact lt_trans hak (hlt z hz))
      · simp [readByte]
    · split
      · subst_vars
        split
        · subst_vars
          exact readByte_below _ _ hlt
        · simp [readByte]
      · rename_i hne
        simp only [readByte]
        rw [if_neg (fun h => hne h.symm)]
        exact ih ht

/-- What a byte write can list: the address written, or what was listed. -/
theorem mem_writeByte {m : Memory} {a : Nat} {b : Byte} {x : Host.Cell} (h : x ∈ m.writeByte a b) :
    (x = (a, b) ∧ b ≠ unlisted) ∨ x ∈ m := by
  induction m with
  | nil =>
    simp only [writeByte] at h
    split at h
    · simp at h
    · left; simpa using ⟨by simpa using h, ‹_›⟩
  | cons y t ih =>
    obtain ⟨k, z⟩ := y
    simp only [writeByte] at h
    split at h
    · split at h
      · exact .inr h
      · rcases List.mem_cons.1 h with rfl | h
        · exact .inl ⟨rfl, ‹_›⟩
        · exact .inr h
    · split at h
      · split at h
        · exact .inr (List.mem_cons_of_mem _ h)
        · rcases List.mem_cons.1 h with rfl | h
          · exact .inl ⟨rfl, ‹_›⟩
          · exact .inr (List.mem_cons_of_mem _ h)
      · rcases List.mem_cons.1 h with rfl | h
        · exact .inr (by simp)
        · rcases ih h with h | h
          · exact .inl h
          · exact .inr (List.mem_cons_of_mem _ h)

/-- A byte write keeps the canonical form. -/
theorem wf_writeByte (m : Memory) (a : Nat) (b : Byte) (hm : m.wf) : (m.writeByte a b).wf := by
  induction m with
  | nil =>
    simp only [writeByte]
    split <;> simp_all [Memory.wf]
  | cons x t ih =>
    obtain ⟨k, y⟩ := x
    obtain ⟨hlt, hne, ht⟩ := (wf_cons _ _).1 hm
    simp only [writeByte]
    split
    · rename_i hak
      split
      · exact hm
      · refine (wf_cons _ _).2 ⟨?_, ‹_›, hm⟩
        intro z hz
        rcases List.mem_cons.1 hz with rfl | hz
        · exact hak
        · exact lt_trans hak (hlt z hz)
    · split
      · split
        · exact ht
        · subst_vars
          exact (wf_cons _ _).2 ⟨hlt, ‹_›, ht⟩
      · rename_i h1 h2
        refine (wf_cons _ _).2 ⟨?_, hne, ih ht⟩
        intro z hz
        rcases mem_writeByte hz with ⟨rfl, -⟩ | hz
        · simp only; omega
        · exact hlt z hz

/-- A byte write inside the RAM keeps the RAM's range. -/
theorem inRam_writeByte (m : Memory) (a : Nat) (b : Byte) (hm : m.inRam) (h1 : outLBase ≤ a) (h2 : a < addrEnd) :
    (m.writeByte a b).inRam := by
  intro x hx
  rcases mem_writeByte hx with ⟨rfl, -⟩ | hx
  · exact ⟨h1, h2⟩
  · exact hm x hx

/-- A word write keeps the canonical form. -/
theorem wf_writeWord (m : Memory) (a : Nat) (w : Word) (hm : m.wf) : (m.writeWord a w).wf :=
  wf_writeByte _ _ _ (wf_writeByte _ _ _ (wf_writeByte _ _ _ (wf_writeByte _ _ _ hm)))

/-- A word write inside the RAM keeps the RAM's range. -/
theorem inRam_writeWord (m : Memory) (a : Nat) (w : Word) (hm : m.inRam) (h1 : outLBase ≤ a) (h2 : a + 4 ≤ addrEnd) :
    (m.writeWord a w).inRam :=
  inRam_writeByte _ _ _ (inRam_writeByte _ _ _ (inRam_writeByte _ _ _
    (inRam_writeByte _ _ _ hm h1 (by omega)) (by omega) (by omega)) (by omega) (by omega)) (by omega) (by omega)

/-- A word write leaves every byte outside its four alone. -/
theorem readByte_writeWord_outside (m : Memory) {a a' : Nat} (w : Word) (h : a' < a ∨ a + 4 ≤ a') :
    (m.writeWord a w).readByte a' = m.readByte a' := by
  simp only [writeWord]
  rw [readByte_writeByte_ne _ _ (by omega), readByte_writeByte_ne _ _ (by omega),
    readByte_writeByte_ne _ _ (by omega), readByte_writeByte_ne _ _ (by omega)]

/-- The four bytes of a word, put back together. -/
theorem bytes_append (w : Word) :
    w.extractLsb' 24 8 ++ w.extractLsb' 16 8 ++ w.extractLsb' 8 8 ++ w.extractLsb' 0 8 = w := by
  apply BitVec.eq_of_getLsbD_eq
  intro i hi
  have h : i < 32 := hi
  simp only [BitVec.getLsbD_append, BitVec.getLsbD_extractLsb']
  split
  · simp [*]
  · split
    · have : i - 8 < 8 := ‹_›
      simp only [this, decide_true, Bool.true_and]
      congr 1
      omega
    · split
      · have : i - 8 - 8 < 8 := ‹_›
        simp only [this, decide_true, Bool.true_and]
        congr 1
        omega
      · have : i - 8 - 8 - 8 < 8 := by omega
        simp only [this, decide_true, Bool.true_and]
        congr 1
        omega

/-- A word written is the word read. -/
theorem readWord_writeWord_same (m : Memory) (a : Nat) (w : Word) (hm : m.wf) : (m.writeWord a w).readWord a = w := by
  have h1 := wf_writeByte m a (w.extractLsb' 0 8) hm
  have h2 := wf_writeByte _ (a + 1) (w.extractLsb' 8 8) h1
  have h3 := wf_writeByte _ (a + 2) (w.extractLsb' 16 8) h2
  simp only [readWord, writeWord]
  rw [readByte_writeByte_same _ (a + 3) _ h3,
    readByte_writeByte_ne _ (a := a + 3) (a' := a + 2) _ (by omega), readByte_writeByte_same _ (a + 2) _ h2,
    readByte_writeByte_ne _ (a := a + 3) (a' := a + 1) _ (by omega),
    readByte_writeByte_ne _ (a := a + 2) (a' := a + 1) _ (by omega), readByte_writeByte_same _ (a + 1) _ h1,
    readByte_writeByte_ne _ (a := a + 3) (a' := a) _ (by omega),
    readByte_writeByte_ne _ (a := a + 2) (a' := a) _ (by omega),
    readByte_writeByte_ne _ (a := a + 1) (a' := a) _ (by omega), readByte_writeByte_same _ a _ hm]
  exact bytes_append w

/-- A word write leaves every word it does not overlap alone. -/
theorem readWord_writeWord_apart (m : Memory) {a a' : Nat} (w : Word) (h : a' + 4 ≤ a ∨ a + 4 ≤ a') :
    (m.writeWord a w).readWord a' = m.readWord a' := by
  simp only [readWord]
  rw [readByte_writeWord_outside _ _ (by omega), readByte_writeWord_outside _ _ (by omega),
    readByte_writeWord_outside _ _ (by omega), readByte_writeWord_outside _ _ (by omega)]

/-- Writing a list of words keeps the canonical form. -/
theorem wf_writeWords (ws : List Word) : ∀ (m : Memory) (a : Nat), m.wf → (m.writeWords a ws).wf := by
  induction ws with
  | nil => exact fun _ _ h => h
  | cons w ws ih => exact fun m a h => ih _ _ (wf_writeWord m a w h)

/-- Writing a list of words inside the RAM keeps the RAM's range. -/
theorem inRam_writeWords (ws : List Word) :
    ∀ (m : Memory) (a : Nat), m.inRam → outLBase ≤ a → a + 4 * ws.length ≤ addrEnd → (m.writeWords a ws).inRam := by
  induction ws with
  | nil => exact fun _ _ h _ _ => h
  | cons w ws ih =>
    intro m a h h1 h2
    simp only [List.length_cons] at h2
    exact ih _ _ (inRam_writeWord m a w h h1 (by omega)) (by omega) (by omega)

/-- Writing a list of words leaves every byte outside them alone. -/
theorem readByte_writeWords_outside (ws : List Word) :
    ∀ (m : Memory) (a a' : Nat), a' < a ∨ a + 4 * ws.length ≤ a' → (m.writeWords a ws).readByte a' = m.readByte a' := by
  induction ws with
  | nil => exact fun _ _ _ _ => rfl
  | cons w ws ih =>
    intro m a a' h
    simp only [List.length_cons] at h
    simp only [writeWords]
    rw [ih _ _ _ (by omega), readByte_writeWord_outside _ _ (by omega)]

/-- A word apart from those written reads as before. -/
theorem readWord_writeWords_apart (ws : List Word) (m : Memory) (a a' : Nat)
    (h : a' + 4 ≤ a ∨ a + 4 * ws.length ≤ a') : (m.writeWords a ws).readWord a' = m.readWord a' := by
  simp only [readWord]
  rw [readByte_writeWords_outside _ _ _ _ (by omega), readByte_writeWords_outside _ _ _ _ (by omega),
    readByte_writeWords_outside _ _ _ _ (by omega), readByte_writeWords_outside _ _ _ _ (by omega)]

/-- The words written are the words read. -/
theorem readWord_writeWords_index (ws : List Word) :
    ∀ (m : Memory) (a i : Nat) (hi : i < ws.length), m.wf → (m.writeWords a ws).readWord (a + 4 * i) = ws[i] := by
  induction ws with
  | nil => intro _ _ _ hi; simp at hi
  | cons w ws ih =>
    intro m a i hi hm
    simp only [writeWords]
    cases i with
    | zero =>
      rw [readWord_writeWords_apart _ _ _ _ (by omega)]
      simpa using readWord_writeWord_same m a w hm
    | succ i =>
      have := ih (m.writeWord a w) (a + 4) i (by simpa using hi) (wf_writeWord m a w hm)
      rw [show a + 4 * (i + 1) = a + 4 + 4 * i by omega, this]
      simp

end Memory
end Sys2Proof.Machine
end

