-- ==== Sys2Proof/Laws/PerInstr.lean ====
section
/-! SUPPORT. A claim about every instruction as syntax: the request of a well-formed command is a write of a legal word to
CMD, and the request of a bus transaction never is (spec/30_encoding.md R121–R124, R128, R131). -/
namespace Sys2Proof.Laws.EncodedForm

/-- A well-formed instruction's request writes a legal word to CMD exactly if the instruction is a command. -/
def Statement (i : Instr) : Prop :=
  i.wellFormed = true →
    (i.isCommand = true → ∃ w, encode i = .write cmdAddr w ∧ legalCommandWord w = true) ∧
    (i.isCommand = false → ∀ w, encode i = .write cmdAddr w → legalCommandWord w = false)

/-- A command's claim, from its word. -/
theorem of_word {i : Instr} {w : Word} (hc : i.isCommand = true) (he : encode i = .write cmdAddr w)
    (hl : legalCommandWord w = true) : Statement i :=
  fun _ => ⟨fun _ => ⟨w, he, hl⟩, fun h => by simp [hc] at h⟩

theorem nop : Statement .nop := of_word rfl rfl (by decide)

theorem engineReset : Statement .engineReset := of_word rfl rfl (by decide)

theorem noiseReset : Statement .noiseReset := of_word rfl rfl (by decide)

theorem envAttack (v : Fin maxVoices) : Statement (.envAttack v) := of_word rfl rfl (by revert v; decide)

theorem envRelease (v : Fin maxVoices) : Statement (.envRelease v) := of_word rfl rfl (by revert v; decide)

theorem envReset (v : Fin maxVoices) : Statement (.envReset v) := of_word rfl rfl (by revert v; decide)

theorem oscReset (v : Fin maxVoices) (o : Fin oscPerVoice) : Statement (.oscReset v o) :=
  of_word rfl rfl (by revert v o; decide)

theorem oscSync (v : Fin maxVoices) (o : Fin oscPerVoice) : Statement (.oscSync v o) :=
  of_word rfl rfl (by revert v o; decide)

theorem voiceReset (v : Fin maxVoices) : Statement (.voiceReset v) := of_word rfl rfl (by revert v; decide)

theorem voicePan (v : Fin maxVoices) : Statement (.voicePan v) := of_word rfl rfl (by revert v; decide)

/-- The word of RENDER as a number: the opcode's byte above, the count below. -/
theorem wordR_toNat (n : Nat) (h : n ≤ blockMax) : (wordR 0x40000000#32 n).toNat = 0x40000000 + n := by
  have hb : n < 2 ^ 30 := by simp only [blockMax] at h; omega
  simp only [wordR, BitVec.toNat_or, BitVec.toNat_ofNat]
  rw [Nat.mod_eq_of_lt (by omega : n < 2 ^ 32), show 1073741824 % 2 ^ 32 = 2 ^ 30 * 1 by decide,
    ← Nat.two_pow_add_eq_or_of_lt hb]

theorem render (n : Nat) : Statement (.render n) := by
  intro h
  have hn : n ≤ blockMax := by simpa [Instr.wellFormed] using h
  have hw := wordR_toNat n hn
  simp only [blockMax] at hn
  refine of_word rfl rfl ?_ h
  have h1 : ((wordR 0x40000000#32 n).extractLsb' 24 8).toNat = 0x40 := by
    simp only [BitVec.extractLsb'_toNat, Nat.shiftRight_eq_div_pow, hw]; omega
  have h2 : (wordR 0x40000000#32 n).extractLsb' 16 8 = 0#8 := by
    apply BitVec.eq_of_toNat_eq
    simp only [BitVec.extractLsb'_toNat, Nat.shiftRight_eq_div_pow, hw, BitVec.toNat_ofNat]; omega
  have h3 : ((wordR 0x40000000#32 n).extractLsb' 0 16).toNat ≤ blockMax := by
    simp only [BitVec.extractLsb'_toNat, Nat.shiftRight_zero, hw, blockMax]; omega
  rw [legalCommandWord, h1, h2]
  simp only [show formatOfOpcode 0x40 = some .R by decide]
  simp [- BitVec.extractLsb'_toNat, h3]

theorem rd (addr : Addr) : Statement (.rd addr) :=
  fun _ => ⟨fun h => by simp [Instr.isCommand] at h, fun _ _ h => by simp [encode] at h⟩

theorem wr (addr : Addr) (data : Word) : Statement (.wr addr data) := by
  intro h
  refine ⟨fun h => by simp [Instr.isCommand] at h, fun _ w e => ?_⟩
  simp only [encode, BusRequest.write.injEq] at e
  simpa [Instr.wellFormed, e.1, ← e.2] using h

end Sys2Proof.Laws.EncodedForm
end

