-- ==== Sys2Proof/Laws/State.lean ====
section
/-! SUPPORT. One lemma per field per named update of the state, true by rfl, so that no proof unfolds a record update. -/
namespace Sys2Proof.Machine

/-! ### Raising STATUS bits -/

@[simp] theorem State.raise_arg (s : State) (e : BitVec 7) : (s.raise e).arg = s.arg := rfl
@[simp] theorem State.raise_status (s : State) (e : BitVec 7) : (s.raise e).status = s.status ||| e := rfl
@[simp] theorem State.raise_ctrl (s : State) (e : BitVec 7) : (s.raise e).ctrl = s.ctrl := rfl
@[simp] theorem State.raise_blockLen (s : State) (e : BitVec 7) : (s.raise e).blockLen = s.blockLen := rfl
@[simp] theorem State.raise_noiseState (s : State) (e : BitVec 7) : (s.raise e).noiseState = s.noiseState := rfl
@[simp] theorem State.raise_noiseMix (s : State) (e : BitVec 7) : (s.raise e).noiseMix = s.noiseMix := rfl
@[simp] theorem State.raise_outTarget (s : State) (e : BitVec 7) : (s.raise e).outTarget = s.outTarget := rfl
@[simp] theorem State.raise_outMul (s : State) (e : BitVec 7) : (s.raise e).outMul = s.outMul := rfl
@[simp] theorem State.raise_outGain (s : State) (e : BitVec 7) : (s.raise e).outGain = s.outGain := rfl
@[simp] theorem State.raise_voices (s : State) (e : BitVec 7) : (s.raise e).voices = s.voices := rfl
@[simp] theorem State.raise_mem (s : State) (e : BitVec 7) : (s.raise e).mem = s.mem := rfl
@[simp] theorem State.raise_pending (s : State) (e : BitVec 7) : (s.raise e).pending = s.pending := rfl
@[simp] theorem State.raise_reads (s : State) (e : BitVec 7) : (s.raise e).reads = s.reads := rfl

@[simp] theorem State.flag_arg (s : State) (e : Event) : (s.flag e).arg = s.arg := rfl
@[simp] theorem State.flag_status (s : State) (e : Event) : (s.flag e).status = s.status ||| e.mask := rfl
@[simp] theorem State.flag_ctrl (s : State) (e : Event) : (s.flag e).ctrl = s.ctrl := rfl
@[simp] theorem State.flag_blockLen (s : State) (e : Event) : (s.flag e).blockLen = s.blockLen := rfl
@[simp] theorem State.flag_noiseState (s : State) (e : Event) : (s.flag e).noiseState = s.noiseState := rfl
@[simp] theorem State.flag_noiseMix (s : State) (e : Event) : (s.flag e).noiseMix = s.noiseMix := rfl
@[simp] theorem State.flag_outTarget (s : State) (e : Event) : (s.flag e).outTarget = s.outTarget := rfl
@[simp] theorem State.flag_outMul (s : State) (e : Event) : (s.flag e).outMul = s.outMul := rfl
@[simp] theorem State.flag_outGain (s : State) (e : Event) : (s.flag e).outGain = s.outGain := rfl
@[simp] theorem State.flag_voices (s : State) (e : Event) : (s.flag e).voices = s.voices := rfl
@[simp] theorem State.flag_mem (s : State) (e : Event) : (s.flag e).mem = s.mem := rfl
@[simp] theorem State.flag_pending (s : State) (e : Event) : (s.flag e).pending = s.pending := rfl
@[simp] theorem State.flag_reads (s : State) (e : Event) : (s.flag e).reads = s.reads := rfl

@[simp] theorem State.flagIf_arg (s : State) (e : Event) (b : Bool) : (s.flagIf e b).arg = s.arg := rfl
@[simp] theorem State.flagIf_status (s : State) (e : Event) (b : Bool) : (s.flagIf e b).status = s.status ||| e.maskIf b := rfl
@[simp] theorem State.flagIf_ctrl (s : State) (e : Event) (b : Bool) : (s.flagIf e b).ctrl = s.ctrl := rfl
@[simp] theorem State.flagIf_blockLen (s : State) (e : Event) (b : Bool) : (s.flagIf e b).blockLen = s.blockLen := rfl
@[simp] theorem State.flagIf_noiseState (s : State) (e : Event) (b : Bool) : (s.flagIf e b).noiseState = s.noiseState := rfl
@[simp] theorem State.flagIf_noiseMix (s : State) (e : Event) (b : Bool) : (s.flagIf e b).noiseMix = s.noiseMix := rfl
@[simp] theorem State.flagIf_outTarget (s : State) (e : Event) (b : Bool) : (s.flagIf e b).outTarget = s.outTarget := rfl
@[simp] theorem State.flagIf_outMul (s : State) (e : Event) (b : Bool) : (s.flagIf e b).outMul = s.outMul := rfl
@[simp] theorem State.flagIf_outGain (s : State) (e : Event) (b : Bool) : (s.flagIf e b).outGain = s.outGain := rfl
@[simp] theorem State.flagIf_voices (s : State) (e : Event) (b : Bool) : (s.flagIf e b).voices = s.voices := rfl
@[simp] theorem State.flagIf_mem (s : State) (e : Event) (b : Bool) : (s.flagIf e b).mem = s.mem := rfl
@[simp] theorem State.flagIf_pending (s : State) (e : Event) (b : Bool) : (s.flagIf e b).pending = s.pending := rfl
@[simp] theorem State.flagIf_reads (s : State) (e : Event) (b : Bool) : (s.flagIf e b).reads = s.reads := rfl

/-! ### Replacing a voice or its envelope -/

@[simp] theorem State.setVoice_arg (s : State) (v : Fin maxVoices) (x : Voice) : (s.setVoice v x).arg = s.arg := rfl
@[simp] theorem State.setVoice_status (s : State) (v : Fin maxVoices) (x : Voice) : (s.setVoice v x).status = s.status := rfl
@[simp] theorem State.setVoice_ctrl (s : State) (v : Fin maxVoices) (x : Voice) : (s.setVoice v x).ctrl = s.ctrl := rfl
@[simp] theorem State.setVoice_blockLen (s : State) (v : Fin maxVoices) (x : Voice) : (s.setVoice v x).blockLen = s.blockLen := rfl
@[simp] theorem State.setVoice_noiseState (s : State) (v : Fin maxVoices) (x : Voice) : (s.setVoice v x).noiseState = s.noiseState := rfl
@[simp] theorem State.setVoice_noiseMix (s : State) (v : Fin maxVoices) (x : Voice) : (s.setVoice v x).noiseMix = s.noiseMix := rfl
@[simp] theorem State.setVoice_outTarget (s : State) (v : Fin maxVoices) (x : Voice) : (s.setVoice v x).outTarget = s.outTarget := rfl
@[simp] theorem State.setVoice_outMul (s : State) (v : Fin maxVoices) (x : Voice) : (s.setVoice v x).outMul = s.outMul := rfl
@[simp] theorem State.setVoice_outGain (s : State) (v : Fin maxVoices) (x : Voice) : (s.setVoice v x).outGain = s.outGain := rfl
@[simp] theorem State.setVoice_voices (s : State) (v : Fin maxVoices) (x : Voice) : (s.setVoice v x).voices = s.voices.set v x := rfl
@[simp] theorem State.setVoice_mem (s : State) (v : Fin maxVoices) (x : Voice) : (s.setVoice v x).mem = s.mem := rfl
@[simp] theorem State.setVoice_pending (s : State) (v : Fin maxVoices) (x : Voice) : (s.setVoice v x).pending = s.pending := rfl
@[simp] theorem State.setVoice_reads (s : State) (v : Fin maxVoices) (x : Voice) : (s.setVoice v x).reads = s.reads := rfl

@[simp] theorem State.setEnv_arg (s : State) (v : Fin maxVoices) (e : Env) : (s.setEnv v e).arg = s.arg := rfl
@[simp] theorem State.setEnv_status (s : State) (v : Fin maxVoices) (e : Env) : (s.setEnv v e).status = s.status := rfl
@[simp] theorem State.setEnv_ctrl (s : State) (v : Fin maxVoices) (e : Env) : (s.setEnv v e).ctrl = s.ctrl := rfl
@[simp] theorem State.setEnv_blockLen (s : State) (v : Fin maxVoices) (e : Env) : (s.setEnv v e).blockLen = s.blockLen := rfl
@[simp] theorem State.setEnv_noiseState (s : State) (v : Fin maxVoices) (e : Env) : (s.setEnv v e).noiseState = s.noiseState := rfl
@[simp] theorem State.setEnv_noiseMix (s : State) (v : Fin maxVoices) (e : Env) : (s.setEnv v e).noiseMix = s.noiseMix := rfl
@[simp] theorem State.setEnv_outTarget (s : State) (v : Fin maxVoices) (e : Env) : (s.setEnv v e).outTarget = s.outTarget := rfl
@[simp] theorem State.setEnv_outMul (s : State) (v : Fin maxVoices) (e : Env) : (s.setEnv v e).outMul = s.outMul := rfl
@[simp] theorem State.setEnv_outGain (s : State) (v : Fin maxVoices) (e : Env) : (s.setEnv v e).outGain = s.outGain := rfl
@[simp] theorem State.setEnv_voices (s : State) (v : Fin maxVoices) (e : Env) : (s.setEnv v e).voices = s.voices.set v { s.voice v with env := e } := rfl
@[simp] theorem State.setEnv_mem (s : State) (v : Fin maxVoices) (e : Env) : (s.setEnv v e).mem = s.mem := rfl
@[simp] theorem State.setEnv_pending (s : State) (v : Fin maxVoices) (e : Env) : (s.setEnv v e).pending = s.pending := rfl
@[simp] theorem State.setEnv_reads (s : State) (v : Fin maxVoices) (e : Env) : (s.setEnv v e).reads = s.reads := rfl

/-! ### Whole-block operations -/

@[simp] theorem noiseReset_arg (c : Config) (s : State) : (noiseReset c s).arg = s.arg := rfl
@[simp] theorem noiseReset_status (c : Config) (s : State) : (noiseReset c s).status = s.status := rfl
@[simp] theorem noiseReset_ctrl (c : Config) (s : State) : (noiseReset c s).ctrl = s.ctrl := rfl
@[simp] theorem noiseReset_blockLen (c : Config) (s : State) : (noiseReset c s).blockLen = s.blockLen := rfl
@[simp] theorem noiseReset_noiseState (c : Config) (s : State) : (noiseReset c s).noiseState = c.noiseSeed := rfl
@[simp] theorem noiseReset_noiseMix (c : Config) (s : State) : (noiseReset c s).noiseMix = s.noiseMix := rfl
@[simp] theorem noiseReset_outTarget (c : Config) (s : State) : (noiseReset c s).outTarget = s.outTarget := rfl
@[simp] theorem noiseReset_outMul (c : Config) (s : State) : (noiseReset c s).outMul = s.outMul := rfl
@[simp] theorem noiseReset_outGain (c : Config) (s : State) : (noiseReset c s).outGain = s.outGain := rfl
@[simp] theorem noiseReset_voices (c : Config) (s : State) : (noiseReset c s).voices = s.voices := rfl
@[simp] theorem noiseReset_mem (c : Config) (s : State) : (noiseReset c s).mem = s.mem := rfl
@[simp] theorem noiseReset_pending (c : Config) (s : State) : (noiseReset c s).pending = s.pending := rfl
@[simp] theorem noiseReset_reads (c : Config) (s : State) : (noiseReset c s).reads = s.reads := rfl

@[simp] theorem engineReset_arg (c : Config) (s : State) : (engineReset c s).arg = s.arg := rfl
@[simp] theorem engineReset_status (c : Config) (s : State) : (engineReset c s).status = s.status := rfl
@[simp] theorem engineReset_ctrl (c : Config) (s : State) : (engineReset c s).ctrl = s.ctrl := rfl
@[simp] theorem engineReset_blockLen (c : Config) (s : State) : (engineReset c s).blockLen = s.blockLen := rfl
@[simp] theorem engineReset_noiseState (c : Config) (s : State) : (engineReset c s).noiseState = c.noiseSeed := rfl
@[simp] theorem engineReset_noiseMix (c : Config) (s : State) : (engineReset c s).noiseMix = s.noiseMix := rfl
@[simp] theorem engineReset_outTarget (c : Config) (s : State) : (engineReset c s).outTarget = s.outTarget := rfl
@[simp] theorem engineReset_outMul (c : Config) (s : State) : (engineReset c s).outMul = s.outMul := rfl
@[simp] theorem engineReset_outGain (c : Config) (s : State) : (engineReset c s).outGain = s.outTarget := rfl
@[simp] theorem engineReset_voices (c : Config) (s : State) : (engineReset c s).voices = s.voices.map (Voice.engineReset c) := rfl
@[simp] theorem engineReset_mem (c : Config) (s : State) : (engineReset c s).mem = s.mem := rfl
@[simp] theorem engineReset_pending (c : Config) (s : State) : (engineReset c s).pending = s.pending := rfl
@[simp] theorem engineReset_reads (c : Config) (s : State) : (engineReset c s).reads = s.reads := rfl

@[simp] theorem retire_arg (c : Config) (s : State) : (retire c s).arg = s.arg := rfl
@[simp] theorem retire_status (c : Config) (s : State) : (retire c s).status = s.status := rfl
@[simp] theorem retire_ctrl (c : Config) (s : State) : (retire c s).ctrl = s.ctrl := rfl
@[simp] theorem retire_blockLen (c : Config) (s : State) : (retire c s).blockLen = s.blockLen := rfl
@[simp] theorem retire_noiseState (c : Config) (s : State) : (retire c s).noiseState = s.noiseState := rfl
@[simp] theorem retire_noiseMix (c : Config) (s : State) : (retire c s).noiseMix = s.noiseMix := rfl
@[simp] theorem retire_outTarget (c : Config) (s : State) : (retire c s).outTarget = s.outTarget := rfl
@[simp] theorem retire_outMul (c : Config) (s : State) : (retire c s).outMul = s.outMul := rfl
@[simp] theorem retire_outGain (c : Config) (s : State) : (retire c s).outGain = s.outGain := rfl
@[simp] theorem retire_voices (c : Config) (s : State) : (retire c s).voices = s.voices.map (Voice.retire c) := rfl
@[simp] theorem retire_mem (c : Config) (s : State) : (retire c s).mem = s.mem := rfl
@[simp] theorem retire_pending (c : Config) (s : State) : (retire c s).pending = s.pending := rfl
@[simp] theorem retire_reads (c : Config) (s : State) : (retire c s).reads = s.reads := rfl

@[simp] theorem putChannel_arg (c : Config) (base : Nat) (ws : List F32) (s : State) : (putChannel c base ws s).arg = s.arg := rfl
@[simp] theorem putChannel_status (c : Config) (base : Nat) (ws : List F32) (s : State) : (putChannel c base ws s).status = s.status ||| channelEvents c ws := rfl
@[simp] theorem putChannel_ctrl (c : Config) (base : Nat) (ws : List F32) (s : State) : (putChannel c base ws s).ctrl = s.ctrl := rfl
@[simp] theorem putChannel_blockLen (c : Config) (base : Nat) (ws : List F32) (s : State) : (putChannel c base ws s).blockLen = s.blockLen := rfl
@[simp] theorem putChannel_noiseState (c : Config) (base : Nat) (ws : List F32) (s : State) : (putChannel c base ws s).noiseState = s.noiseState := rfl
@[simp] theorem putChannel_noiseMix (c : Config) (base : Nat) (ws : List F32) (s : State) : (putChannel c base ws s).noiseMix = s.noiseMix := rfl
@[simp] theorem putChannel_outTarget (c : Config) (base : Nat) (ws : List F32) (s : State) : (putChannel c base ws s).outTarget = s.outTarget := rfl
@[simp] theorem putChannel_outMul (c : Config) (base : Nat) (ws : List F32) (s : State) : (putChannel c base ws s).outMul = s.outMul := rfl
@[simp] theorem putChannel_outGain (c : Config) (base : Nat) (ws : List F32) (s : State) : (putChannel c base ws s).outGain = s.outGain := rfl
@[simp] theorem putChannel_voices (c : Config) (base : Nat) (ws : List F32) (s : State) : (putChannel c base ws s).voices = s.voices := rfl
@[simp] theorem putChannel_mem (c : Config) (base : Nat) (ws : List F32) (s : State) : (putChannel c base ws s).mem = s.mem.writeWords base (channelWords c ws) := rfl
@[simp] theorem putChannel_pending (c : Config) (base : Nat) (ws : List F32) (s : State) : (putChannel c base ws s).pending = s.pending := rfl
@[simp] theorem putChannel_reads (c : Config) (base : Nat) (ws : List F32) (s : State) : (putChannel c base ws s).reads = s.reads := rfl

@[simp] theorem powerOn_arg (s : State) : (powerOn s).arg = State.reset.arg := rfl
@[simp] theorem powerOn_status (s : State) : (powerOn s).status = State.reset.status := rfl
@[simp] theorem powerOn_ctrl (s : State) : (powerOn s).ctrl = State.reset.ctrl := rfl
@[simp] theorem powerOn_blockLen (s : State) : (powerOn s).blockLen = State.reset.blockLen := rfl
@[simp] theorem powerOn_noiseState (s : State) : (powerOn s).noiseState = State.reset.noiseState := rfl
@[simp] theorem powerOn_noiseMix (s : State) : (powerOn s).noiseMix = State.reset.noiseMix := rfl
@[simp] theorem powerOn_outTarget (s : State) : (powerOn s).outTarget = State.reset.outTarget := rfl
@[simp] theorem powerOn_outMul (s : State) : (powerOn s).outMul = State.reset.outMul := rfl
@[simp] theorem powerOn_outGain (s : State) : (powerOn s).outGain = State.reset.outGain := rfl
@[simp] theorem powerOn_voices (s : State) : (powerOn s).voices = State.reset.voices := rfl
@[simp] theorem powerOn_mem (s : State) : (powerOn s).mem = State.reset.mem := rfl
@[simp] theorem powerOn_pending (s : State) : (powerOn s).pending = s.pending := rfl
@[simp] theorem powerOn_reads (s : State) : (powerOn s).reads = s.reads := rfl

@[simp] theorem State.withFetchWord_arg (s : State) (nbits w : Nat) : (s.withFetchWord nbits w).arg = s.arg := rfl
@[simp] theorem State.withFetchWord_status (s : State) (nbits w : Nat) : (s.withFetchWord nbits w).status = s.status := rfl
@[simp] theorem State.withFetchWord_ctrl (s : State) (nbits w : Nat) : (s.withFetchWord nbits w).ctrl = s.ctrl := rfl
@[simp] theorem State.withFetchWord_blockLen (s : State) (nbits w : Nat) : (s.withFetchWord nbits w).blockLen = s.blockLen := rfl
@[simp] theorem State.withFetchWord_noiseState (s : State) (nbits w : Nat) : (s.withFetchWord nbits w).noiseState = s.noiseState := rfl
@[simp] theorem State.withFetchWord_noiseMix (s : State) (nbits w : Nat) : (s.withFetchWord nbits w).noiseMix = s.noiseMix := rfl
@[simp] theorem State.withFetchWord_outTarget (s : State) (nbits w : Nat) : (s.withFetchWord nbits w).outTarget = s.outTarget := rfl
@[simp] theorem State.withFetchWord_outMul (s : State) (nbits w : Nat) : (s.withFetchWord nbits w).outMul = s.outMul := rfl
@[simp] theorem State.withFetchWord_outGain (s : State) (nbits w : Nat) : (s.withFetchWord nbits w).outGain = s.outGain := rfl
@[simp] theorem State.withFetchWord_voices (s : State) (nbits w : Nat) : (s.withFetchWord nbits w).voices = s.voices := rfl
@[simp] theorem State.withFetchWord_mem (s : State) (nbits w : Nat) : (s.withFetchWord nbits w).mem = s.mem := rfl
@[simp] theorem State.withFetchWord_pending (s : State) (nbits w : Nat) : (s.withFetchWord nbits w).pending = .bus (.write cmdAddr (BitVec.ofNat 32 w)) :: s.pending := rfl
@[simp] theorem State.withFetchWord_reads (s : State) (nbits w : Nat) : (s.withFetchWord nbits w).reads = s.reads := rfl

/-! ### One sample -/

@[simp] theorem renderSample_arg (c : Config) (s : State) : ((renderSample c s).state).arg = s.arg := rfl
@[simp] theorem renderSample_status (c : Config) (s : State) : ((renderSample c s).state).status = s.status ||| Event.plow.maskIf (mix c (F32.fmul (noiseSample (noiseAdvance c s.noiseState)) s.noiseMix) s.voices).plow := rfl
@[simp] theorem renderSample_ctrl (c : Config) (s : State) : ((renderSample c s).state).ctrl = s.ctrl := rfl
@[simp] theorem renderSample_blockLen (c : Config) (s : State) : ((renderSample c s).state).blockLen = s.blockLen := rfl
@[simp] theorem renderSample_noiseState (c : Config) (s : State) : ((renderSample c s).state).noiseState = noiseAdvance c s.noiseState := rfl
@[simp] theorem renderSample_noiseMix (c : Config) (s : State) : ((renderSample c s).state).noiseMix = s.noiseMix := rfl
@[simp] theorem renderSample_outTarget (c : Config) (s : State) : ((renderSample c s).state).outTarget = s.outTarget := rfl
@[simp] theorem renderSample_outMul (c : Config) (s : State) : ((renderSample c s).state).outMul = s.outMul := rfl
@[simp] theorem renderSample_outGain (c : Config) (s : State) : ((renderSample c s).state).outGain = onePole s.outMul s.outGain s.outTarget := rfl
@[simp] theorem renderSample_voices (c : Config) (s : State) : ((renderSample c s).state).voices = (mix c (F32.fmul (noiseSample (noiseAdvance c s.noiseState)) s.noiseMix) s.voices).voices := rfl
@[simp] theorem renderSample_mem (c : Config) (s : State) : ((renderSample c s).state).mem = s.mem := rfl
@[simp] theorem renderSample_pending (c : Config) (s : State) : ((renderSample c s).state).pending = s.pending := rfl
@[simp] theorem renderSample_reads (c : Config) (s : State) : ((renderSample c s).state).reads = s.reads := rfl

/-! ### The whole block -/

theorem render_voices (c : Config) (n : Nat) (s : State) :
    (render c n s).voices = (writeBlock c s.mono (renderLoop c n s).frames (renderLoop c n s).state).voices.map (Voice.retire c) := rfl
theorem render_arg (c : Config) (n : Nat) (s : State) :
    (render c n s).arg = (writeBlock c s.mono (renderLoop c n s).frames (renderLoop c n s).state).arg := rfl
theorem render_status (c : Config) (n : Nat) (s : State) :
    (render c n s).status = (writeBlock c s.mono (renderLoop c n s).frames (renderLoop c n s).state).status := rfl
theorem render_ctrl (c : Config) (n : Nat) (s : State) :
    (render c n s).ctrl = (writeBlock c s.mono (renderLoop c n s).frames (renderLoop c n s).state).ctrl := rfl
theorem render_noiseState (c : Config) (n : Nat) (s : State) :
    (render c n s).noiseState = (writeBlock c s.mono (renderLoop c n s).frames (renderLoop c n s).state).noiseState := rfl
theorem render_noiseMix (c : Config) (n : Nat) (s : State) :
    (render c n s).noiseMix = (writeBlock c s.mono (renderLoop c n s).frames (renderLoop c n s).state).noiseMix := rfl
theorem render_outTarget (c : Config) (n : Nat) (s : State) :
    (render c n s).outTarget = (writeBlock c s.mono (renderLoop c n s).frames (renderLoop c n s).state).outTarget := rfl
theorem render_outMul (c : Config) (n : Nat) (s : State) :
    (render c n s).outMul = (writeBlock c s.mono (renderLoop c n s).frames (renderLoop c n s).state).outMul := rfl
theorem render_outGain (c : Config) (n : Nat) (s : State) :
    (render c n s).outGain = (writeBlock c s.mono (renderLoop c n s).frames (renderLoop c n s).state).outGain := rfl
theorem render_mem (c : Config) (n : Nat) (s : State) :
    (render c n s).mem = (writeBlock c s.mono (renderLoop c n s).frames (renderLoop c n s).state).mem := rfl
theorem render_pending (c : Config) (n : Nat) (s : State) :
    (render c n s).pending = (writeBlock c s.mono (renderLoop c n s).frames (renderLoop c n s).state).pending := rfl
theorem render_reads (c : Config) (n : Nat) (s : State) :
    (render c n s).reads = (writeBlock c s.mono (renderLoop c n s).frames (renderLoop c n s).state).reads := rfl
@[simp] theorem render_blockLen (c : Config) (n : Nat) (s : State) : (render c n s).blockLen = BitVec.ofNat 32 n := rfl

/-! ### Clearing and stepping an oscillator, an envelope, a voice -/

@[simp] theorem Osc.clear_period (x : Osc) : x.clear.period = x.period := rfl
@[simp] theorem Osc.clear_amplitude (x : Osc) : x.clear.amplitude = x.amplitude := rfl
@[simp] theorem Osc.clear_modulation (x : Osc) : x.clear.modulation = x.modulation := rfl
@[simp] theorem Osc.clear_phase (x : Osc) : x.clear.phase = F32.f0 := rfl
@[simp] theorem Osc.clear_phaseMax (x : Osc) : x.clear.phaseMax = F32.f0 := rfl
@[simp] theorem Osc.clear_inc (x : Osc) : x.clear.inc = F32.f0 := rfl
@[simp] theorem Osc.clear_sin0 (x : Osc) : x.clear.sin0 = F32.f0 := rfl
@[simp] theorem Osc.clear_sin1 (x : Osc) : x.clear.sin1 = F32.f0 := rfl
@[simp] theorem Osc.clear_dsin (x : Osc) : x.clear.dsin = F32.f0 := rfl
@[simp] theorem Env.clear_phase (e : Env) : e.clear.phase = .idle := rfl
@[simp] theorem Env.clear_level (e : Env) : e.clear.level = F32.f0 := rfl
@[simp] theorem Env.clear_target (e : Env) : e.clear.target = F32.f0 := rfl
@[simp] theorem Env.clear_mult (e : Env) : e.clear.mult = F32.f0 := rfl
@[simp] theorem Env.clear_attack (e : Env) : e.clear.attack = e.attack := rfl
@[simp] theorem Env.clear_decay (e : Env) : e.clear.decay = e.decay := rfl
@[simp] theorem Env.clear_sustain (e : Env) : e.clear.sustain = e.sustain := rfl
@[simp] theorem Env.clear_release (e : Env) : e.clear.release = e.release := rfl
@[simp] theorem Voice.setOsc_note (x : Voice) (o : Fin oscPerVoice) (y : Osc) : (x.setOsc o y).note = x.note := rfl
@[simp] theorem Voice.setOsc_panL (x : Voice) (o : Fin oscPerVoice) (y : Osc) : (x.setOsc o y).panL = x.panL := rfl
@[simp] theorem Voice.setOsc_panR (x : Voice) (o : Fin oscPerVoice) (y : Osc) : (x.setOsc o y).panR = x.panR := rfl
@[simp] theorem Voice.setOsc_saw (x : Voice) (o : Fin oscPerVoice) (y : Osc) : (x.setOsc o y).saw = x.saw := rfl
@[simp] theorem Voice.setOsc_env (x : Voice) (o : Fin oscPerVoice) (y : Osc) : (x.setOsc o y).env = x.env := rfl
@[simp] theorem Voice.setOsc_osc (x : Voice) (o : Fin oscPerVoice) (y : Osc) : (x.setOsc o y).osc = x.osc.set o y := rfl
@[simp] theorem Voice.hardZero_note (c : Config) (x : Voice) : (x.hardZero c).note = x.note := rfl
@[simp] theorem Voice.hardZero_panL (c : Config) (x : Voice) : (x.hardZero c).panL = c.panC := rfl
@[simp] theorem Voice.hardZero_panR (c : Config) (x : Voice) : (x.hardZero c).panR = c.panC := rfl
@[simp] theorem Voice.hardZero_saw (c : Config) (x : Voice) : (x.hardZero c).saw = F32.f0 := rfl
@[simp] theorem Voice.hardZero_env (c : Config) (x : Voice) : (x.hardZero c).env = x.env := rfl
@[simp] theorem Voice.engineReset_note (c : Config) (x : Voice) : (x.engineReset c).note = 0#32 := rfl
@[simp] theorem Voice.engineReset_panL (c : Config) (x : Voice) : (x.engineReset c).panL = c.panC := rfl
@[simp] theorem Voice.engineReset_panR (c : Config) (x : Voice) : (x.engineReset c).panR = c.panC := rfl
@[simp] theorem Voice.engineReset_saw (c : Config) (x : Voice) : (x.engineReset c).saw = F32.f0 := rfl
@[simp] theorem Voice.engineReset_env (c : Config) (x : Voice) : (x.engineReset c).env = x.env.clear := rfl
@[simp] theorem Voice.panned_note (c : Config) (x : Voice) : (x.panned c).note = x.note := rfl
@[simp] theorem Voice.panned_panL (c : Config) (x : Voice) : (x.panned c).panL = panLeft c x.note := rfl
@[simp] theorem Voice.panned_panR (c : Config) (x : Voice) : (x.panned c).panR = panRight c x.note := rfl
@[simp] theorem Voice.panned_saw (c : Config) (x : Voice) : (x.panned c).saw = x.saw := rfl
@[simp] theorem Voice.panned_env (c : Config) (x : Voice) : (x.panned c).env = x.env := rfl
@[simp] theorem Voice.panned_osc (c : Config) (x : Voice) : (x.panned c).osc = x.osc := rfl
@[simp] theorem Voice.step_note (c : Config) (z : F32) (x : Voice) : (x.step c z).voice.note = x.note := rfl
@[simp] theorem Voice.step_panL (c : Config) (z : F32) (x : Voice) : (x.step c z).voice.panL = x.panL := rfl
@[simp] theorem Voice.step_panR (c : Config) (z : F32) (x : Voice) : (x.step c z).voice.panR = x.panR := rfl
@[simp] theorem Voice.step_env (c : Config) (z : F32) (x : Voice) : (x.step c z).voice.env = x.env.step c := rfl

@[simp] theorem renderLoop_zero (c : Config) (s : State) : renderLoop c 0 s = ⟨s, []⟩ := rfl

theorem renderLoop_succ (c : Config) (n : Nat) (s : State) :
    renderLoop c (n + 1) s =
      ⟨(renderLoop c n (renderSample c s).state).state,
        (renderSample c s).frame :: (renderLoop c n (renderSample c s).state).frames⟩ := rfl

end Sys2Proof.Machine
end

