-- ==== Sys2Proof/Laws/Voices.lean ====
section
/-! SUPPORT. Reading a voice or an oscillator after one was replaced. -/
namespace Sys2Proof.Machine

@[simp] theorem vector_get_set_same {α : Type} {n : Nat} (xs : Vector α n) (i : Fin n) (x : α) :
    (xs.set i x).get i = x := by
  simp [Vector.get_eq_getElem]

theorem vector_get_set_ne {α : Type} {n : Nat} (xs : Vector α n) {i j : Fin n} (x : α) (h : j ≠ i) :
    (xs.set i x).get j = xs.get j := by
  simp only [Vector.get_eq_getElem]
  exact Vector.getElem_set_ne i.isLt j.isLt (fun e => h (Fin.ext e.symm))

@[simp] theorem vector_get_map {α β : Type} {n : Nat} (f : α → β) (xs : Vector α n) (i : Fin n) :
    (xs.map f).get i = f (xs.get i) := by
  simp [Vector.get_eq_getElem]

/-- Two vectors that agree at every index are equal. -/
theorem vector_ext_get {α : Type} {n : Nat} {xs ys : Vector α n} (h : ∀ i, xs.get i = ys.get i) : xs = ys := by
  apply Vector.ext
  intro i hi
  simpa [Vector.get_eq_getElem] using h ⟨i, hi⟩

@[simp] theorem State.voice_setVoice_same (s : State) (v : Fin maxVoices) (x : Voice) :
    (s.setVoice v x).voice v = x := vector_get_set_same _ _ _

theorem State.voice_setVoice_ne (s : State) {v u : Fin maxVoices} (x : Voice) (h : u ≠ v) :
    (s.setVoice v x).voice u = s.voice u := vector_get_set_ne _ _ h

@[simp] theorem State.voice_setEnv_same (s : State) (v : Fin maxVoices) (e : Env) :
    (s.setEnv v e).voice v = { s.voice v with env := e } := State.voice_setVoice_same _ _ _

theorem State.voice_setEnv_ne (s : State) {v u : Fin maxVoices} (e : Env) (h : u ≠ v) :
    (s.setEnv v e).voice u = s.voice u := State.voice_setVoice_ne _ _ h

@[simp] theorem State.voice_raise (s : State) (e : BitVec 7) (v : Fin maxVoices) : (s.raise e).voice v = s.voice v := rfl
@[simp] theorem State.voice_flag (s : State) (e : Event) (v : Fin maxVoices) : (s.flag e).voice v = s.voice v := rfl
@[simp] theorem State.voice_flagIf (s : State) (e : Event) (b : Bool) (v : Fin maxVoices) :
    (s.flagIf e b).voice v = s.voice v := rfl

@[simp] theorem State.voice_retire (c : Config) (s : State) (v : Fin maxVoices) :
    (retire c s).voice v = (s.voice v).retire c := vector_get_map _ _ _

@[simp] theorem State.voice_engineReset (c : Config) (s : State) (v : Fin maxVoices) :
    (engineReset c s).voice v = (s.voice v).engineReset c := vector_get_map _ _ _

@[simp] theorem State.voice_putChannel (c : Config) (base : Nat) (ws : List F32) (s : State) (v : Fin maxVoices) :
    (putChannel c base ws s).voice v = s.voice v := rfl

/-- Two states are equal when every field is, voices compared one by one. -/
theorem State.ext_voices {s t : State} (h0 : s.arg = t.arg) (h1 : s.status = t.status) (h2 : s.ctrl = t.ctrl)
    (h3 : s.blockLen = t.blockLen) (h4 : s.noiseState = t.noiseState) (h5 : s.noiseMix = t.noiseMix)
    (h6 : s.outTarget = t.outTarget) (h7 : s.outMul = t.outMul) (h8 : s.outGain = t.outGain)
    (h9 : ∀ v, s.voice v = t.voice v) (h10 : s.mem = t.mem) (h11 : s.pending = t.pending) (h12 : s.reads = t.reads) :
    s = t := by
  cases s; cases t
  have := vector_ext_get h9
  simp_all

@[simp] theorem Voice.oscOf_setOsc_same (x : Voice) (o : Fin oscPerVoice) (y : Osc) : (x.setOsc o y).oscOf o = y :=
  vector_get_set_same _ _ _

theorem Voice.oscOf_setOsc_ne (x : Voice) {o p : Fin oscPerVoice} (y : Osc) (h : p ≠ o) :
    (x.setOsc o y).oscOf p = x.oscOf p := vector_get_set_ne _ _ h

/-- What a reset leaves in either oscillator of a voice. -/
@[simp] theorem Voice.oscOf_hardZero (c : Config) (x : Voice) (o : Fin oscPerVoice) :
    (x.hardZero c).oscOf o = (x.oscOf o).clear := by
  have h : (x.hardZero c).oscOf o = ((x.setOsc 0 (x.oscOf 0).clear).setOsc 1 (x.oscOf 1).clear).oscOf o := rfl
  rw [h]
  match o with
  | 0 => rw [Voice.oscOf_setOsc_ne _ _ (by decide), Voice.oscOf_setOsc_same]
  | 1 => rw [Voice.oscOf_setOsc_same]

@[simp] theorem Voice.oscOf_engineReset (c : Config) (x : Voice) (o : Fin oscPerVoice) :
    (x.engineReset c).oscOf o = (x.oscOf o).clear := Voice.oscOf_hardZero c x o

/-- What a step leaves in either oscillator of a voice: each steps from its own registers alone (spec/44_voice.md R240). -/
@[simp] theorem Voice.oscOf_step (c : Config) (z : F32) (x : Voice) (o : Fin oscPerVoice) :
    ((x.step c z).voice).oscOf o = ((x.oscOf o).step c).osc := by
  have h : ((x.step c z).voice).oscOf o =
      ((x.setOsc 0 ((x.oscOf 0).step c).osc).setOsc 1 ((x.oscOf 1).step c).osc).oscOf o := by
    unfold Voice.oscOf Voice.step
    rfl
  rw [h]
  match o with
  | 0 => rw [Voice.oscOf_setOsc_ne _ _ (by decide), Voice.oscOf_setOsc_same]
  | 1 => rw [Voice.oscOf_setOsc_same]

/-- Every voice stands once in the order of the loops. -/
theorem mem_voiceOrder (v : Fin maxVoices) : v ∈ voiceOrder := List.mem_finRange v

theorem voiceOrder_nodup : voiceOrder.Nodup := List.nodup_finRange _

theorem voiceOrder_eq : voiceOrder = [0, 1, 2, 3, 4, 5, 6, 7] := rfl

@[simp] theorem State.voice_reset (v : Fin maxVoices) : State.reset.voice v = Voice.reset := by
  simp [State.voice, State.reset, Vector.get_eq_getElem]

@[simp] theorem Voice.oscOf_reset (o : Fin oscPerVoice) : Voice.reset.oscOf o = Osc.reset := by
  simp [Voice.oscOf, Voice.reset, Vector.get_eq_getElem]

end Sys2Proof.Machine
end

