-- ==== Sys2Proof/Laws/Render.lean ====
section
/-! SUPPORT. What the sample loop, the output write and RENDER can do, said once (spec/45_engine.md R260–R271). -/
namespace Sys2Proof.Machine

/-- A voice's turn in the mix: it steps if it is active and is left alone if it is not (R263). -/
def Voice.turn (c : Config) (z : F32) (x : Voice) : Voice := if x.env.isActive c then (x.step c z).voice else x

/-! ### The mix -/

theorem mixVoice_get_same (c : Config) (z : F32) (m : MixResult) (v : Fin maxVoices) :
    (mixVoice c z m v).voices.get v = (m.voices.get v).turn c z := by
  unfold mixVoice Voice.turn
  by_cases h : (m.voices.get v).env.isActive c = true <;> simp [h]

theorem mixVoice_get_ne (c : Config) (z : F32) (m : MixResult) {v u : Fin maxVoices} (h : u ≠ v) :
    (mixVoice c z m v).voices.get u = m.voices.get u := by
  unfold mixVoice
  by_cases h' : (m.voices.get v).env.isActive c = true
  · simp only [h', if_true]; exact vector_get_set_ne _ _ h
  · simp [h']

theorem foldl_mixVoice_get (c : Config) (z : F32) (l : List (Fin maxVoices)) (hl : l.Nodup) :
    ∀ (m : MixResult) (u : Fin maxVoices), (l.foldl (mixVoice c z) m).voices.get u =
      if u ∈ l then (m.voices.get u).turn c z else m.voices.get u := by
  induction l with
  | nil => intro m u; simp
  | cons v l ih =>
    intro m u
    obtain ⟨hv, hl⟩ := List.nodup_cons.1 hl
    rw [List.foldl_cons, ih hl]
    by_cases huv : u = v
    · subst huv; simp [hv, mixVoice_get_same]
    · simp [huv, mixVoice_get_ne c z m huv]

/-- The mix steps every voice from its own registers: active ones once, the rest not at all. -/
@[simp] theorem mix_get (c : Config) (z : F32) (vs : Vector Voice maxVoices) (u : Fin maxVoices) :
    (mix c z vs).voices.get u = (vs.get u).turn c z := by
  simp [mix, foldl_mixVoice_get c z voiceOrder voiceOrder_nodup, mem_voiceOrder u]

/-- The sums and the PLOW flag of the mix, over the voices active at its start, in ascending order. -/
theorem foldl_mixVoice_sums (c : Config) (z : F32) (vs : Vector Voice maxVoices) (l : List (Fin maxVoices)) (hl : l.Nodup) :
    ∀ m : MixResult, (∀ u ∈ l, m.voices.get u = vs.get u) →
      (l.foldl (mixVoice c z) m).left = (l.filter fun v => (vs.get v).env.isActive c).foldl
        (fun acc v => F32.fadd acc (F32.fmul ((vs.get v).step c z).out (vs.get v).panL)) m.left ∧
      (l.foldl (mixVoice c z) m).right = (l.filter fun v => (vs.get v).env.isActive c).foldl
        (fun acc v => F32.fadd acc (F32.fmul ((vs.get v).step c z).out (vs.get v).panR)) m.right ∧
      (l.foldl (mixVoice c z) m).plow =
        (m.plow || (l.filter fun v => (vs.get v).env.isActive c).any fun v => ((vs.get v).step c z).plow) := by
  induction l with
  | nil => intro m _; simp
  | cons v l ih =>
    intro m hm
    obtain ⟨hv, hl⟩ := List.nodup_cons.1 hl
    have hmv := hm v (by simp)
    rw [List.foldl_cons]
    obtain ⟨h1, h2, h3⟩ := ih hl (mixVoice c z m v) (fun u hu => by
      have huv : u ≠ v := by rintro rfl; exact hv hu
      rw [mixVoice_get_ne c z m huv]; exact hm u (by simp [hu]))
    rw [h1, h2, h3]
    by_cases h : (vs.get v).env.isActive c = true
    · simp [mixVoice, hmv, h, Bool.or_assoc]
    · simp [mixVoice, hmv, h]

theorem mix_sums (c : Config) (z : F32) (vs : Vector Voice maxVoices) :
    (mix c z vs).left = (voiceOrder.filter fun v => (vs.get v).env.isActive c).foldl
      (fun acc v => F32.fadd acc (F32.fmul ((vs.get v).step c z).out (vs.get v).panL)) F32.f0 ∧
    (mix c z vs).right = (voiceOrder.filter fun v => (vs.get v).env.isActive c).foldl
      (fun acc v => F32.fadd acc (F32.fmul ((vs.get v).step c z).out (vs.get v).panR)) F32.f0 ∧
    (mix c z vs).plow = (voiceOrder.filter fun v => (vs.get v).env.isActive c).any fun v => ((vs.get v).step c z).plow := by
  obtain ⟨h1, h2, h3⟩ := foldl_mixVoice_sums c z vs voiceOrder voiceOrder_nodup ⟨vs, F32.f0, F32.f0, false⟩ (by simp)
  exact ⟨h1, h2, by rw [mix, h3]; rfl⟩

/-! ### The sample loop -/

@[simp] theorem renderSample_voice (c : Config) (s : State) (v : Fin maxVoices) :
    (renderSample c s).state.voice v =
      (s.voice v).turn c (F32.fmul (noiseSample (noiseAdvance c s.noiseState)) s.noiseMix) := mix_get _ _ _ _

/-- What every sample keeps, the loop keeps. -/
theorem renderLoop_induct {P : State → Prop} (c : Config) (h : ∀ s, P s → P (renderSample c s).state) :
    ∀ (n : Nat) (s : State), P s → P (renderLoop c n s).state
  | 0, _, hs => hs
  | n + 1, s, hs => renderLoop_induct c h n _ (h s hs)

@[simp] theorem renderLoop_length (c : Config) : ∀ (n : Nat) (s : State), (renderLoop c n s).frames.length = n
  | 0, _ => rfl
  | n + 1, s => by simp [renderLoop_succ, renderLoop_length c n]

/-- The loop over `a + b` samples is the loop over `a`, then the loop over `b` (R271). -/
theorem renderLoop_add (c : Config) (b : Nat) : ∀ (a : Nat) (s : State), renderLoop c (a + b) s =
    ⟨(renderLoop c b (renderLoop c a s).state).state,
      (renderLoop c a s).frames ++ (renderLoop c b (renderLoop c a s).state).frames⟩
  | 0, s => by simp
  | a + 1, s => by
    rw [show a + 1 + b = a + b + 1 by omega, renderLoop_succ, renderLoop_succ, renderLoop_add c b a]
    simp

/-- The loop's final state is one turn's, `n` times over. -/
theorem renderLoop_state (c : Config) : ∀ (n : Nat) (s : State),
    (renderLoop c n s).state = (fun x => (renderSample c x).state)^[n] s
  | 0, _ => rfl
  | n + 1, s => by rw [renderLoop_succ, Function.iterate_succ_apply]; exact renderLoop_state c n _

/-- The loop's samples are the turns' frames in order. -/
theorem renderLoop_frames (c : Config) : ∀ (n : Nat) (s : State),
    (renderLoop c n s).frames =
      (List.range n).map fun i => (renderSample c ((fun x => (renderSample c x).state)^[i] s)).frame
  | 0, _ => rfl
  | n + 1, s => by
    rw [renderLoop_succ, List.range_succ_eq_map, List.map_cons, List.map_map]
    exact congrArg (List.cons _) (renderLoop_frames c n _)

theorem renderLoop_arg (c : Config) (n : Nat) (s : State) : (renderLoop c n s).state.arg = s.arg :=
  renderLoop_induct (P := fun t => t.arg = s.arg) c (fun _ h => h) n s rfl
theorem renderLoop_ctrl (c : Config) (n : Nat) (s : State) : (renderLoop c n s).state.ctrl = s.ctrl :=
  renderLoop_induct (P := fun t => t.ctrl = s.ctrl) c (fun _ h => h) n s rfl
theorem renderLoop_blockLen (c : Config) (n : Nat) (s : State) : (renderLoop c n s).state.blockLen = s.blockLen :=
  renderLoop_induct (P := fun t => t.blockLen = s.blockLen) c (fun _ h => h) n s rfl
theorem renderLoop_noiseMix (c : Config) (n : Nat) (s : State) : (renderLoop c n s).state.noiseMix = s.noiseMix :=
  renderLoop_induct (P := fun t => t.noiseMix = s.noiseMix) c (fun _ h => h) n s rfl
theorem renderLoop_outTarget (c : Config) (n : Nat) (s : State) : (renderLoop c n s).state.outTarget = s.outTarget :=
  renderLoop_induct (P := fun t => t.outTarget = s.outTarget) c (fun _ h => h) n s rfl
theorem renderLoop_outMul (c : Config) (n : Nat) (s : State) : (renderLoop c n s).state.outMul = s.outMul :=
  renderLoop_induct (P := fun t => t.outMul = s.outMul) c (fun _ h => h) n s rfl
theorem renderLoop_mem (c : Config) (n : Nat) (s : State) : (renderLoop c n s).state.mem = s.mem :=
  renderLoop_induct (P := fun t => t.mem = s.mem) c (fun _ h => h) n s rfl
theorem renderLoop_pending (c : Config) (n : Nat) (s : State) : (renderLoop c n s).state.pending = s.pending :=
  renderLoop_induct (P := fun t => t.pending = s.pending) c (fun _ h => h) n s rfl
theorem renderLoop_reads (c : Config) (n : Nat) (s : State) : (renderLoop c n s).state.reads = s.reads :=
  renderLoop_induct (P := fun t => t.reads = s.reads) c (fun _ h => h) n s rfl

/-- One draw a sample, whatever the voices do (R262). -/
theorem renderLoop_noiseState (c : Config) : ∀ (n : Nat) (s : State),
    (renderLoop c n s).state.noiseState = (noiseAdvance c)^[n] s.noiseState
  | 0, _ => rfl
  | n + 1, s => by simp [renderLoop_succ, renderLoop_noiseState c n]

/-- One smoother step a sample (R264). -/
theorem renderLoop_outGain (c : Config) : ∀ (n : Nat) (s : State),
    (renderLoop c n s).state.outGain = (fun g => onePole s.outMul g s.outTarget)^[n] s.outGain
  | 0, _ => rfl
  | n + 1, s => by simp [renderLoop_succ, renderLoop_outGain c n]

/-- The loop's STATUS only grows, and by PLOW alone (R211, R300). -/
theorem renderLoop_status (c : Config) (n : Nat) (s : State) :
    ∃ b, (renderLoop c n s).state.status = s.status ||| Event.plow.maskIf b := by
  refine renderLoop_induct (P := fun t => ∃ b, t.status = s.status ||| Event.plow.maskIf b) c ?_ n s ⟨false, by simp [Event.maskIf]⟩
  rintro t ⟨b, h⟩
  refine ⟨b || (mix c (F32.fmul (noiseSample (noiseAdvance c t.noiseState)) t.noiseMix) t.voices).plow, ?_⟩
  rw [renderSample_status, h, BitVec.or_assoc]
  generalize (mix c (F32.fmul (noiseSample (noiseAdvance c t.noiseState)) t.noiseMix) t.voices).plow = p
  cases b <;> cases p <;> simp [Event.maskIf]

/-! ### The output write -/

@[simp] theorem channelWords_length (c : Config) (ws : List F32) : (channelWords c ws).length = ws.length := by
  unfold channelWords; split
  · simp
  · split <;> simp

@[simp] theorem channelWords_machine (ws : List F32) :
    channelWords Config.machine ws = ws.map (saneWord Config.machine) := rfl

/-- A bit is flagged over a channel when it is flagged for one of its words. -/
theorem channelEvents_getLsbD (c : Config) (ws : List F32) (k : Nat) :
    (channelEvents c ws).getLsbD k = true ↔ ∃ x ∈ ws, (saneEvents c x).getLsbD k = true := by
  suffices h : ∀ e : BitVec 7, (ws.foldl (fun e x => e ||| saneEvents c x) e).getLsbD k = true ↔
      e.getLsbD k = true ∨ ∃ x ∈ ws, (saneEvents c x).getLsbD k = true by
    rw [channelEvents, h]; simp
  induction ws with
  | nil => simp
  | cons x ws ih => intro e; rw [List.foldl_cons, ih]; simp [or_assoc]

theorem writeBlock_mono (c : Config) (fs : List Frame) (s : State) :
    writeBlock c true fs s = putChannel c outLBase (fs.map (Frame.mono c)) s := rfl

theorem writeBlock_stereo (c : Config) (fs : List Frame) (s : State) :
    writeBlock c false fs s = putChannel c outRBase (fs.map Frame.right) (putChannel c outLBase (fs.map Frame.left) s) := rfl

/-- The output write changes STATUS and the output RAM and nothing else. -/
theorem writeBlock_frame (c : Config) (b : Bool) (fs : List Frame) (s : State) :
    writeBlock c b fs s = { s with status := (writeBlock c b fs s).status, mem := (writeBlock c b fs s).mem } := by
  cases b <;> rfl

@[simp] theorem writeBlock_voice (c : Config) (b : Bool) (fs : List Frame) (s : State) (v : Fin maxVoices) :
    (writeBlock c b fs s).voice v = s.voice v := by
  cases b <;> rfl

theorem mono_eq_true {s : State} (h : s.ctrl = 1#1) : s.mono = true := by simp [State.mono, h]

theorem mono_eq_false {s : State} (h : s.ctrl = 0#1) : s.mono = false := by simp [State.mono, h]

/-! ### RENDER -/

theorem execRender_next {n : Nat} (h : n ≤ blockMax) (s : State) : execRender n s = .next (render Config.machine n s) :=
  if_pos h

/-- Everything RENDER does, field by field. -/
theorem render_eq (c : Config) (n : Nat) (s : State) : render c n s = { s with
    status := (writeBlock c s.mono (renderLoop c n s).frames (renderLoop c n s).state).status
    blockLen := BitVec.ofNat 32 n
    noiseState := (noiseAdvance c)^[n] s.noiseState
    outGain := (fun g => onePole s.outMul g s.outTarget)^[n] s.outGain
    voices := (renderLoop c n s).state.voices.map (Voice.retire c)
    mem := (writeBlock c s.mono (renderLoop c n s).frames (renderLoop c n s).state).mem } := by
  unfold render retire
  conv_lhs => simp only []
  have h := writeBlock_frame c s.mono (renderLoop c n s).frames (renderLoop c n s).state
  rw [h]
  simp only [renderLoop_arg, renderLoop_ctrl, renderLoop_noiseMix, renderLoop_outTarget, renderLoop_outMul,
    renderLoop_pending, renderLoop_reads, renderLoop_noiseState, renderLoop_outGain]

/-- A voice after RENDER: as the loop left it, then retired (R268). -/
@[simp] theorem render_voice (c : Config) (n : Nat) (s : State) (v : Fin maxVoices) :
    (render c n s).voice v = ((renderLoop c n s).state.voice v).retire c := by
  rw [render_eq]; exact vector_get_map _ _ _

/-- Retiring a retired voice changes nothing. -/
theorem Voice.retire_retire (c : Config) (x : Voice) : (x.retire c).retire c = x.retire c := by
  unfold Voice.retire
  by_cases h : x.env.isActive c = true
  · simp [h]
  · simp only [h, Bool.false_eq_true, if_false]
    split <;> rfl

end Sys2Proof.Machine
end

