-- ==== Sys2Proof/Machine/Reference.lean ====
section
/-! DEFINITION. The reference instance of FSIN and FCOS (spec/00_scope.md R11): sine and cosine in 640-bit fixed point, rounded
once. No meaning uses it, since the machine's FSIN and FCOS are open (log 4): it is the instance under which
spec/95_test_vectors.md's values hold, and the tests run the datapath under it. That it is correctly rounded at every
operand is not proved (UNVERIFIED, log 5). -/
namespace Sys2Proof.Reference

/-- The fraction bits of the fixed-point numbers below. -/
abbrev fixBits : Nat := 640

/-- π/2 in fixed point, rounded down. -/
def halfPi : Nat :=
  0x1921FB54442D18469898CC51701B839A252049C1114CF98E804177D4C76273644A29410F31C6809BBDF2A33679A748636605614DBE4BE286E9FC26ADADAA3848BC90B6AECC4BCFD8DE89885D34C6FDAD6

/-- A finite magnitude less its nearest multiple of π/2, and that multiple. -/
structure Reduced where
  quadrant : Nat
  rest : Int

/-- Range reduction, exact up to the error of `halfPi` times the multiple (below 2^-511). -/
def reduce (a : F32) : Reduced :=
  let x := F32.mag a * 2 ^ (fixBits - 149)
  let k := (2 * x + halfPi) / (2 * halfPi)
  ⟨k % 4, (x : Int) - (k * halfPi : Nat)⟩

/-- The alternating series from a first term: each next term is the last times `-sq / (d·(d+1))`. -/
def series (sq : Int) : Nat → Nat → Int → Int
  | 0, _, term => term
  | fuel + 1, d, term =>
    term + series sq fuel (d + 2) (-(term * sq / 2 ^ fixBits / (d * (d + 1) : Nat)))

/-- sin of a reduced rest, in fixed point. -/
def sinRest (r : Int) : Int := series (r * r / 2 ^ fixBits) 64 2 r

/-- cos of a reduced rest, in fixed point. -/
def cosRest (r : Int) : Int := series (r * r / 2 ^ fixBits) 64 1 (2 ^ fixBits)

/-- A fixed-point number rounded to binary32. -/
def ofFix (v : Int) : F32 := F32.round (v < 0) v.natAbs (2 ^ (fixBits - 149))

/-- sin of a magnitude, in fixed point. -/
def sinMag (a : F32) : Int :=
  match (reduce a).quadrant with
  | 0 => sinRest (reduce a).rest
  | 1 => cosRest (reduce a).rest
  | 2 => -sinRest (reduce a).rest
  | _ => -cosRest (reduce a).rest

/-- cos of a magnitude, in fixed point. -/
def cosMag (a : F32) : Int :=
  match (reduce a).quadrant with
  | 0 => cosRest (reduce a).rest
  | 1 => -sinRest (reduce a).rest
  | 2 => -cosRest (reduce a).rest
  | _ => sinRest (reduce a).rest

/-- The reference FSIN: `FSIN(±0) = ±0`, and the canonical NaN for an infinity or a NaN (R11). -/
def sin (a : F32) : F32 :=
  if F32.isNaN a || F32.isInf a then F32.canonNaN
  else if F32.mag a = 0 then a
  else ofFix (if F32.signBit a then -sinMag a else sinMag a)

/-- The reference FCOS (R11). -/
def cos (a : F32) : F32 :=
  if F32.isNaN a || F32.isInf a then F32.canonNaN else ofFix (cosMag a)

/-- The machine's configuration with the reference FSIN and FCOS in place of the open ones. -/
def config : Config := { Config.machine with fsin := sin, fcos := cos }

end Sys2Proof.Reference
end

