-- ==== Sys2Proof/Tests/Slice0.lean ====
section
/-! SUPPORT. The session's own tests, every expected value from spec/95_test_vectors.md or the rule named (the ones through a
sine or cosine under the reference instance), the well-formedness smoke test, and a witness for every statement with
hypotheses. -/
namespace Sys2Proof.Tests
open Sys2Proof.Machine

/-- The next state, if there is one. -/
def result (o : Host.Outcome State Fault Refusal) : Option State :=
  match o with
  | .next t => some t
  | .fault _ => none
  | .refused _ => none

/-- What `f` shows of the state that `exec i s` leaves. -/
def after {α : Type} (i : Instr) (s : State) (f : State → α) : Option α := (result (exec i s)).map f

/-- The power-on state with these inputs still to come. -/
def withInputs (l : List HostInput) : State := { State.reset with pending := l }

/-- The power-on state with this voice in the place of voice 0. -/
def withVoice (x : Voice) : State := State.reset.setVoice 0 x

/-- The envelope rates of T3.1: ATTACK 0.9, DECAY 0.99, SUSTAIN 0.5, RELEASE 0.9. -/
def rates : Env := { Env.reset with attack := 0x3F666666#32, decay := 0x3F7D70A4#32, sustain := 0x3F000000#32, release := 0x3F666666#32 }

/-- The voice of T5.4: periods 100.0 and 100.6, the rates of T3.1, NOTE 60. -/
def voiceT54 : Voice :=
  { Voice.reset with
    note := 60#32
    env := rates
    osc := #v[{ Osc.reset with period := 0x42C80000#32 }, { Osc.reset with period := 0x42C93333#32 }] }

/-- The envelope of T3.1 right after ENV_ATTACK. -/
def attacked : Env := { rates with level := 0x3951B717#32, target := 0x40000000#32, mult := 0x3F666666#32, phase := .attack }

/-- The oscillator of T4.1 at PERIOD 100.0. -/
def oscT41 : Osc := { Osc.reset with period := 0x42C80000#32 }

/-! ### Well-formedness: each check refuses an ill-formed term -/

theorem test_wellFormed_render_count :
    (Instr.render 8193).wellFormed = false ∧ (Instr.render 8192).wellFormed = true := by decide

theorem test_wellFormed_wr_of_a_command_word :
    (Instr.wr cmdAddr 0x10000003#32).wellFormed = false ∧ (Instr.wr cmdAddr 0x10000008#32).wellFormed = true ∧
    (Instr.wr 0x00008#17 0x10000003#32).wellFormed = true := by decide

/-! ### Decoding: words from T7.1, one for every constructor -/

theorem test_decode_format_N :
    decodeRequest (.write cmdAddr 0x00000000#32) = .nop ∧ decodeRequest (.write cmdAddr 0x01000000#32) = .engineReset ∧
    decodeRequest (.write cmdAddr 0x02000000#32) = .noiseReset := by decide

theorem test_decode_format_V :
    decodeRequest (.write cmdAddr 0x10000007#32) = .envAttack 7 ∧ decodeRequest (.write cmdAddr 0x11000003#32) = .envRelease 3 ∧
    decodeRequest (.write cmdAddr 0x12000005#32) = .envReset 5 ∧ decodeRequest (.write cmdAddr 0x30000007#32) = .voiceReset 7 ∧
    decodeRequest (.write cmdAddr 0x31000002#32) = .voicePan 2 := by decide

theorem test_decode_format_VO :
    decodeRequest (.write cmdAddr 0x2000000F#32) = .oscReset 7 1 ∧ decodeRequest (.write cmdAddr 0x21000008#32) = .oscSync 0 1 := by
  decide

theorem test_decode_format_R :
    decodeRequest (.write cmdAddr 0x40002000#32) = .render 8192 ∧ decodeRequest (.write cmdAddr 0x40000000#32) = .render 0 := by
  decide

theorem test_decode_transactions :
    decodeRequest (.read 0x00004#17) = .rd 0x00004#17 ∧ decodeRequest (.write 0x01040#17 0x42C80000#32) = .wr 0x01040#17 0x42C80000#32 := by
  decide

theorem test_decode_illegal :
    decodeCommand 0x02000001#32 = .illegal .reservedFieldNotZero ∧ decodeCommand 0x1200000F#32 = .illegal .reservedFieldNotZero ∧
    decodeCommand 0x31000009#32 = .illegal .reservedFieldNotZero ∧ decodeCommand 0x32000000#32 = .illegal .unassignedOpcode ∧
    decodeCommand 0x4000FFFF#32 = .illegal .renderTooLong ∧ decodeCommand 0x41000000#32 = .illegal .unassignedOpcode := by decide

theorem test_decodeTableWord : decodeTableWord 32 0x40000200 = some (.render 512) ∧ decodeTableWord 0 0 = none := by decide

/-! ### Arithmetic: binary32 facts of R10 and T6.4's neighbours -/

/-- 1.5 + 2^-23 keeps its last bit, and a tie goes to even: 0x3F800001 + 2.0 is exactly 3.0 (R180). -/
theorem test_fadd_tie_to_even : F32.fadd 0x3F800001#32 0x40000000#32 = 0x40400000#32 ∧
    F32.fadd 0x3F800002#32 0x40000000#32 = 0x40400001#32 := by decide +kernel

theorem test_float_corners :
    F32.fmul 0x80000000#32 0x80000000#32 = 0x00000000#32 ∧ F32.ffloor 0xBF000000#32 = 0xBF800000#32 ∧
    F32.fdiv 0x3F800000#32 0x80000000#32 = 0xFF800000#32 ∧ F32.i2f 0xFFFFFFFB#32 = 0xC0A00000#32 := by decide +kernel

/-! ### Noise: T2.1, T2.3 -/

theorem test_noise_first_draw : noiseAdvance Config.machine 22222#32 = 0xEEF79411#32 ∧ noiseSample 0xEEF79411#32 = 0x3F5DEF28#32 := by
  decide +kernel

theorem test_noise_range : noiseSample 0#32 = 0xBF800000#32 ∧ noiseSample 0xFFFFFFFF#32 = 0x3F7FFFFF#32 := by decide +kernel

theorem test_noiseReset : after .noiseReset { State.reset with noiseState := 7#32 } State.noiseState = some 0x000056CE#32 := by
  decide +kernel

/-! ### Envelope: T3.1, T3.2, T3.6, R180's threshold -/

theorem test_envAttack : after (.envAttack 0) (withVoice voiceT54) (fun t => (t.voice 0).env) = some attacked := by decide +kernel

theorem test_env_step : attacked.nextLevel = 0x3E4CFC00#32 := by decide +kernel

/-- The threshold fires at 0x3F800002 and not at 0x3F800001 (R180). -/
theorem test_env_threshold :
    ({ rates with level := 0x3F800002#32, target := 0x40000000#32, mult := 0x3F800000#32 } : Env).attackEnds Config.machine = true ∧
    ({ rates with level := 0x3F800001#32, target := 0x40000000#32, mult := 0x3F800000#32 } : Env).attackEnds Config.machine = false := by
  decide +kernel

/-- The decay of R190 (b)'s example stops at 0x3F000032. -/
theorem test_env_decay_stops :
    ({ rates with level := 0x3F000032#32, target := 0x3F000000#32, mult := 0x3F7D70A4#32 } : Env).nextLevel = 0x3F000032#32 := by
  decide +kernel

/-- With SUSTAIN = SILENCE the rounded decay can stop above SILENCE, the voice still active (log 21). -/
theorem test_env_decay_stops_above_silence :
    let e : Env := { rates with level := 0x38D1B748#32, sustain := 0x38D1B717#32, target := 0x38D1B717#32, mult := 0x3F7D70A4#32, phase := .decaySustain }
    e.step Config.machine = e ∧ e.isActive Config.machine = true := by decide +kernel

theorem test_envRelease_then_step :
    after (.envRelease 0) (withVoice { voiceT54 with env := { rates with level := 0x3F842F12#32, phase := .decaySustain } })
      (fun t => ((t.voice 0).env.phase, ((t.voice 0).env.step Config.machine).level)) = some (.release, 0x3F6DEE53#32) := by decide +kernel

theorem test_envReset_active : after (.envReset 0) (withVoice { voiceT54 with env := { rates with level := 0x3951B717#32 } })
    (fun t => (t.status, (t.voice 0).env)) = some (4#7, rates) := by decide +kernel

theorem test_envReset_silence_floor : after (.envReset 0) (withVoice { voiceT54 with env := { rates with level := 0x38D1B717#32 } })
    State.status = some 0#7 := by decide +kernel

/-! ### Oscillator: T4.1 steps 1 and 2, T4.8, T4.9 -/

theorem test_osc_step_1 : (oscT41.step Reference.config) = ⟨{ oscT41 with
    phase := 0x80000000#32, phaseMax := 0x431B8243#32, inc := 0x40470D23#32, sin0 := 0x80000000#32, sin1 := 0xBD00A87D#32,
    dsin := 0xBFFFDFA9#32 }, 0x3F800000#32, false⟩ := by decide +kernel

theorem test_osc_step_2 : (({ oscT41 with
    phase := 0x80000000#32, phaseMax := 0x431B8243#32, inc := 0x40470D23#32, sin0 := 0x80000000#32, sin1 := 0xBD00A87D#32, dsin := 0xBFFFDFA9#32 } : Osc).step Config.machine).out = 0x3C2577A2#32 := by
  decide +kernel

/-- PERIOD just below 6 flags PLOW, PERIOD 6 does not (T4.6, T4.7). -/
theorem test_osc_plow : (({ Osc.reset with period := 0x40BFFFFF#32 } : Osc).reseed Reference.config).plow = true ∧
    (({ Osc.reset with period := 0x40C00000#32 } : Osc).reseed Reference.config).plow = false := by decide +kernel

theorem test_oscReset : after (.oscReset 0 1) (withVoice (voiceT54.setOsc 1 { oscT41 with phase := 1#32, inc := 2#32, dsin := 3#32 }))
    (fun t => (t.voice 0).oscOf 1) = some oscT41 := by decide +kernel

/-- A rising companion (R216's example). -/
theorem test_oscSync_rising : after (.oscSync 0 1) { withVoice (voiceT54.setOsc 0 { oscT41 with
      phase := 0x40C70D23#32, phaseMax := 0x431B8243#32, inc := 0x40470D23#32 }) with arg := 0x42C80000#32 }
    (fun t => (((t.voice 0).oscOf 1).phase, ((t.voice 0).oscOf 1).phaseMax, ((t.voice 0).oscOf 1).inc)) =
    some (0x43E6F040#32, 0x43E6F040#32, 0xC0470D23#32) := by decide +kernel

/-- A companion at rest (R216's example). -/
theorem test_oscSync_rest : after (.oscSync 0 1) { withVoice voiceT54 with arg := 0x42C80000#32 }
    (fun t => (((t.voice 0).oscOf 1).phase, ((t.voice 0).oscOf 1).inc)) = some (0x4319F024#32, 0x40490FDB#32) := by decide +kernel

/-! ### Voice: T5.1, T5.4, R245 -/

theorem test_pan_48 : panLeft Reference.config 48#32 = 0x3F6C835E#32 ∧ panRight Reference.config 48#32 = 0x3EC3EF16#32 := by
  decide +kernel

theorem test_voicePan_position : panPosition Config.machine 0#32 = 0xBF800000#32 ∧ panPosition Config.machine 60#32 = 0x00000000#32 ∧
    panPosition Config.machine 0x7FFFFFFF#32 = 0x3F800000#32 := by decide +kernel

theorem test_voice_step_1 : (({ voiceT54 with env := attacked } : Voice).step Reference.config 0#32).out = 0x00000000#32 := by decide +kernel

theorem test_voiceReset : after (.voiceReset 0) (withVoice { voiceT54 with saw := 1#32, panL := 1#32, env := { rates with level := 0x3F800000#32 } })
    (fun t => (t.status, (t.voice 0).saw, (t.voice 0).panL, (t.voice 0).note, (t.voice 0).env.level)) =
    some (4#7, 0#32, 0x3F3504F3#32, 60#32, 0x3F800000#32) := by decide +kernel

/-! ### Engine: T6.1, T6.3, T6.4, T6.6, T6.8, T6.9 -/

/-- The second sample of T6.1, the first being +0.0. -/
theorem test_render_two_samples :
    (renderLoop Reference.config 2 (withVoice { voiceT54 with env := attacked })).frames = [⟨0x00000000#32, 0x00000000#32⟩, ⟨0xBAD55D1D#32, 0xBAD55D1D#32⟩] := by decide +kernel

theorem test_render_gain : after (.render 3) { State.reset with outTarget := 0x3F000000#32, outMul := 0x3F000000#32 }
    (fun t => (t.outGain, t.blockLen, t.status)) = some (0x3F100000#32, 3#32, 0#7) := by decide +kernel

theorem test_clamp_words :
    [0x3FC00000#32, 0x3F800001#32, 0x40000000#32, 0xC0000000#32, 0x40000001#32, 0xC0200000#32, 0x7F800000#32, 0x7FC00000#32,
     0x3F800000#32, 0xBF800000#32, 0x80000000#32, 0x00000001#32].map (fun x => (saneWord Config.machine x, saneEvents Config.machine x)) =
    [(0x3F800000#32, 0x10#7), (0x3F800000#32, 0x10#7), (0x3F800000#32, 0x10#7), (0xBF800000#32, 0x10#7), (0#32, 0x20#7), (0#32, 0x20#7),
     (0#32, 0x60#7), (0#32, 0x60#7), (0x3F800000#32, 0#7), (0xBF800000#32, 0#7), (0x80000000#32, 0#7), (1#32, 0#7)] := by decide +kernel

theorem test_clamp_channel_block :
    channelWords { Config.machine with muteScope := .channelBlock } [0x3FC00000#32, 0xC0200000#32, 0x3E800000#32] = [0#32, 0#32, 0#32] ∧
    channelWords Config.machine [0x3FC00000#32, 0xC0200000#32, 0x3E800000#32] = [0x3F800000#32, 0#32, 0x3E800000#32] := by decide +kernel

theorem test_engineReset : after .engineReset { withVoice { voiceT54 with env := { rates with level := 0x3F800000#32 } } with
      outTarget := 0x3F000000#32, noiseState := 1#32, status := 1#7 }
    (fun t => (t.noiseState, t.outGain, t.status, (t.voice 0).note, (t.voice 0).env)) =
    some (22222#32, 0x3F000000#32, 1#7, 0#32, rates) := by decide +kernel

theorem test_nop : after .nop (withVoice voiceT54) id = some (withVoice voiceT54) := by decide +kernel

/-! ### The host's duties of R342 -/

/-- H6 is broken by the word of RENDER 8193, which stays a WR to CMD (R128), and kept by that of RENDER 8192. -/
theorem test_dutyH6 : Safety.dutyH6 (decodeRequest (.write cmdAddr 0x40002001#32)) = false ∧
    Safety.dutyH6 (.wr cmdAddr 0x40002000#32) = true ∧ Safety.dutyH6 (.wr 0x00008#17 0x40002001#32) = true ∧
    Safety.dutyH6 (.wr cmdAddr 0x10000008#32) = true := by decide

/-- H4 is broken by ENV_RESET of an active voice in either spelling. -/
theorem test_dutyH4 : Safety.dutyH4 (.envReset 0) (withVoice { voiceT54 with env := attacked }) = false ∧
    Safety.dutyH4 (.wr cmdAddr 0x12000000#32) (withVoice { voiceT54 with env := attacked }) = false ∧
    Safety.dutyH4 (.wr cmdAddr 0x12000001#32) (withVoice { voiceT54 with env := attacked }) = true := by decide +kernel

/-! ### Bus: T7.3–T7.9 -/

theorem test_addresses :
    addrOf (.voice 3 (.osc 1 .period)) = 0x01380#17 ∧ addrOf (.voice 7 (.osc 1 .dsin)) = 0x017A4#17 ∧
    addrOf (.voice 0 .envState) = 0x01010#17 ∧ addrOf (.voice 2 (.osc 0 .amplitude)) = 0x01244#17 ∧
    addrOf (.outL 8191) = 0x17FFC#17 ∧ addrOf (.outR 0) = 0x18000#17 := by decide

theorem test_rd_after_power_on :
    [0x00000#17, 0x01044#17, 0x01004#17, 0x00020#17, 0x00030#17, 0x00004#17, 0x0000C#17].map (fun a => after (.rd a) State.reset State.reads) =
    [some [0x4A583131#32], some [0x3F800000#32], some [0x3F3504F3#32], some [0x000056CE#32], some [0x3F800000#32], some [0#32], some [0#32]] := by
  decide +kernel

theorem test_rd_refused :
    [0x00002#17, 0x00034#17, 0x017A8#17, 0x01800#17].map (fun a => after (.rd a) State.reset (fun t => (t.status, t.reads))) =
    [some (2#7, [0#32]), some (2#7, [0#32]), some (2#7, [0#32]), some (2#7, [0#32])] := by decide +kernel

theorem test_wr_refused :
    [0x00006#17, 0x00000#17, 0x00018#17, 0x01050#17, 0x10000#17].map (fun a => after (.wr a 0x3F800000#32) State.reset id) =
    List.replicate 5 (some { State.reset with status := 2#7 }) := by decide +kernel

theorem test_wr_status_ctrl :
    after (.wr 0x0000C#17 0x00000010#32) { State.reset with status := 0x11#7 } State.status = some 1#7 ∧
    after (.wr 0x0000C#17 0xFFFFFF80#32) { State.reset with status := 0x11#7 } State.status = some 0x11#7 ∧
    after (.wr 0x00010#17 0xFFFFFFFF#32) State.reset State.ctrl = some 1#1 ∧
    after (.wr 0x00010#17 2#32) State.reset State.ctrl = some 0#1 := by decide +kernel

/-! ### Text -/

/-- A zero decimal keeps its minus sign: the model's choice (log 17). -/
theorem test_float_negative_zero : Asm.float "-0.0".toList = some 0x80000000#32 ∧ Asm.float "0.0".toList = some 0x00000000#32 := by
  decide +kernel

/-! ### Witnesses: for every statement with hypotheses, inputs that meet them all -/

theorem witness_StepRunsDecodedInstruction :
    (withInputs [.bus (.write cmdAddr 0x40000001#32)]).pending = .bus (.write cmdAddr 0x40000001#32) :: [] ∧
    State.reset.pending = [] ∧ decodeTableWord 32 0x2100000A = some (.oscSync 2 1) := by decide

theorem witness_OpcodeRowsDisjoint : ∃ r, opcodeMap[10]? = some r ∧ r.selects 0x40002000#32 = true := ⟨_, rfl, by decide⟩

theorem witness_DecoderAcceptsExactlyTheFormats : legalCommandWord 0x40002000#32 = true ∧ legalCommandWord 0x40002001#32 = false := by
  decide

theorem witness_DecodeAfterEncode : (Instr.render 8192).wellFormed = true ∧ (Instr.oscSync 7 1).wellFormed = true ∧
    (Instr.wr cmdAddr 0x40002001#32).wellFormed = true ∧ (Instr.rd 0x1FFFF#17).wellFormed = true := by decide

theorem witness_EncodeAfterDecode : decodeCommand 0x2000000F#32 = .command (.oscReset 7 1) ∧
    decodeCommand 0x40002000#32 = .command (.render 8192) := by decide

theorem witness_AddressMapInverse : regOf 0x00030#17 = some .outGain ∧ regOf 0x17FFC#17 = some (.outL 8191) ∧
    regOf 0x1FFFC#17 = some (.outR 8191) ∧ regOf 0x017A4#17 = some (.voice 7 (.osc 1 .dsin)) := by decide

/-- The reserved ranges at both ends, and the defined addresses beside them. -/
theorem witness_RefusedTransactions_reserved :
    [0x34, 0xFFC, 0x1014, 0x101C, 0x103C, 0x104C, 0x1068, 0x107C, 0x108C, 0x10A8, 0x10FC, 0x1800, 0xFFFC].all Safety.reservedAddress = true ∧
    [0x00, 0x30, 0x1000, 0x1010, 0x1020, 0x1038, 0x1040, 0x1048, 0x1050, 0x1064, 0x1080, 0x1088, 0x1090, 0x10A4, 0x17A4, 0x10000,
      0x1FFFC].any Safety.reservedAddress = false := by decide

theorem witness_RefusedTransactions_readOnly :
    [0x00, 0x14, 0x18, 0x1C, 0x20, 0x30, 0x1004, 0x1010, 0x1020, 0x1028, 0x1050, 0x1064, 0x1790, 0x17A4, 0x10000,
      0x1FFFC].all Safety.readOnlyAddress = true ∧
    [0x04, 0x08, 0x0C, 0x10, 0x24, 0x28, 0x2C, 0x1000, 0x102C, 0x1038, 0x1040, 0x1048, 0x1788].any Safety.readOnlyAddress = false := by decide

theorem witness_RefusedTransactions_clauses :
    (0x1FFFF#17 : Addr).toNat % 4 ≠ 0 ∧
    (0x1FFFC#17 : Addr).toNat % 4 = 0 ∧ Safety.reservedAddress (0x1FFFC#17 : Addr).toNat = false ∧
    Safety.writableAddress 0x01788#17 = true ∧ Safety.writableAddress 0x0000C#17 = true ∧ (0x01788#17 : Addr) ≠ 0x00004#17 ∧
    (0x01788#17 : Addr) ≠ 0x0000C#17 := by decide

theorem witness_ReadAfterWrite : Safety.writableAddress 0x00008#17 = true ∧ Safety.writableAddress 0x01788#17 = true ∧
    (0x00008#17 : Addr) ≠ 0x00004#17 ∧ (0x00008#17 : Addr) ≠ 0x0000C#17 ∧ (0x00008#17 : Addr) ≠ 0x00010#17 ∧
    (0x01788#17 : Addr) ≠ 0x00004#17 ∧ (0x01788#17 : Addr) ≠ 0x0000C#17 ∧ (0x01788#17 : Addr) ≠ 0x00010#17 := by decide

theorem witness_IllegalWordOnlyFlags : legalCommandWord 0x10000008#32 = false ∧ legalCommandWord 0x03000000#32 = false ∧
    Safety.dutyH6 (.wr cmdAddr 0x4000FFFF#32) = false := by decide

theorem witness_CommandWriteRunsTheCommand : decodeCommand 0x31000002#32 = .command (.voicePan 2) := by decide

theorem witness_EnvAttackEffect : (State.reset.voice 0).env.level = 0#32 ∧ ∃ t, exec (.envAttack 0) State.reset = .next t :=
  ⟨by decide +kernel, _, rfl⟩

theorem witness_OscResetEffect : ∃ t, exec (.oscReset 7 1) State.reset = .next t := ⟨_, rfl⟩

/-- A rising, a falling, a resting and a NaN companion. -/
theorem witness_OscSyncEffect : (0 : Fin oscPerVoice) ≠ 1 ∧ F32.fgt 0x40470D23#32 0#32 = true ∧ F32.flt 0xC0470D23#32 0#32 = true ∧
    F32.fgt 0x80000000#32 0#32 = false ∧ F32.flt 0x80000000#32 0#32 = false ∧ F32.fgt 0x7FC00000#32 0#32 = false ∧
    F32.flt 0x7FC00000#32 0#32 = false := by decide +kernel

/-- NOTE 36 is at -1 exactly, NOTE 0 below it, NOTE 85 above +1. -/
theorem witness_VoicePanEffect :
    F32.fdiv (F32.fsub (F32.i2f 36#32) 0x42700000#32) 0x41C00000#32 = 0xBF800000#32 ∧ F32.flt 0xBF800000#32 0xBF800000#32 = false ∧
    F32.flt (F32.fdiv (F32.fsub (F32.i2f 0#32) 0x42700000#32) 0x41C00000#32) 0xBF800000#32 = true ∧
    F32.fgt (F32.fdiv (F32.fsub (F32.i2f 85#32) 0x42700000#32) 0x41C00000#32) 0x3F800000#32 = true := by decide +kernel

theorem witness_CommandsKeepParameters : Instr.isCommand .nop = true ∧ (∀ n, Instr.nop ≠ .render n) ∧ Instr.nop ≠ .engineReset ∧
    Instr.nop ≠ .noiseReset := by simp [Instr.isCommand]

theorem witness_EnvStepEffect : (0x3E4CFC00#32 : F32) = F32.fadd (F32.fmul 0x3F666666#32 (F32.fsub 0x3951B717#32 0x40000000#32)) 0x40000000#32 := by
  decide +kernel

theorem witness_LargestAttackNeverEnds :
    (∃ e : Env, e.mult = 0x3F7FFFFF#32 ∧ e.level = 0x3F800000#32 ∧ e.target = 0x40000000#32) ∧
    ∃ s : State, (s.voice 0).env.level = 0#32 ∧ (s.voice 0).env.attack = 0x3F7FFFFF#32 :=
  ⟨⟨{ rates with mult := 0x3F7FFFFF#32, level := 0x3F800000#32, target := 0x40000000#32 }, rfl, rfl, rfl⟩,
    withVoice { voiceT54 with env := { rates with attack := 0x3F7FFFFF#32 } }, by decide +kernel, by decide +kernel⟩

/-- At SUSTAIN exactly, with DECAY zero, and with SUSTAIN 1.9 above a LEVEL of 1.0. -/
theorem witness_SustainKeepsVoiceActive : 8192 ≤ blockMax ∧
    Safety.sustaining { rates with level := 0x3F000000#32, target := 0x3F000000#32, mult := 0x3F7D70A4#32 } = true ∧
    Safety.sustaining { rates with level := 0x3F85917A#32, target := 0x3F000000#32, mult := 0#32, decay := 0#32 } = true ∧
    F32.flt 0x3F800000#32 0x3FF33333#32 = true ∧
    Safety.sustaining { rates with
      level := 0x3F800000#32, sustain := 0x3FF33333#32, target := 0x3FF33333#32, mult := 0x3F7D70A4#32 } = true := by
  decide +kernel

/-- The 7th step of R180's example, from a LEVEL just short of the threshold. -/
theorem witness_SustainKeepsVoiceActive_transition : ∃ e : Env, Safety.dutyH2 e = true ∧ Safety.unitMultiplier e.decay = true ∧
    e.target = 0x40000000#32 ∧ F32.isFinite (e.step Config.machine).level = true ∧
    F32.fgt (F32.fadd (e.step Config.machine).level 0x40000000#32) 0x40400000#32 = true :=
  ⟨{ attacked with level := 0x3F7FFFFF#32 }, by decide +kernel⟩

theorem witness_EnvPhaseTransitions : Instr.isCommand (.envAttack 3) = true ∧ ∃ t, exec (.envAttack 3) State.reset = .next t :=
  ⟨rfl, _, rfl⟩

theorem witness_EnvStateIsInformational : ∀ v, Instr.rd 0x00018#17 ≠ .rd (Safety.voiceAddr v 0x10) := by decide

/-- A rest, and a phase exactly at the reseed threshold. -/
theorem witness_OscStepReseeds : F32.fle (F32.fadd 0x00000000#32 0x00000000#32) 0x3F490FDB#32 = true ∧
    F32.fle (F32.fadd 0x3F490FDB#32 0x00000000#32) 0x3F490FDB#32 = true := by decide +kernel

/-- A phase just above the threshold, at the bound and above it, and a NaN phase. -/
theorem witness_OscStepContinues : F32.fle (F32.fadd 0x3F490FDC#32 0x00000000#32) 0x3F490FDB#32 = false ∧
    F32.fgt 0x3F490FDC#32 0x3F490FDC#32 = false ∧ F32.fgt 0x3F490FDD#32 0x3F490FDC#32 = true ∧
    F32.fle 0x7FC00000#32 0x3F490FDB#32 = false ∧ F32.fgt 0x7FC00000#32 0x3F490FDC#32 = false := by decide +kernel

theorem witness_VoiceStepFormula : ∃ (x : Voice) (r1 r2 : OscResult) (saw : F32),
    r1 = (x.oscOf 0).step Config.machine ∧ r2 = (x.oscOf 1).step Config.machine ∧
    saw = F32.fsub (F32.fadd (F32.fmul x.saw 0x3F7F3B64#32) r1.out) r2.out := ⟨voiceT54, _, _, _, rfl, rfl, rfl⟩

theorem witness_render_counts : (0 : Nat) ≤ 8192 ∧ (8192 : Nat) ≤ 8192 ∧ (8192 : Nat) ≤ blockMax ∧ State.reset.mem.wf ∧
    State.reset.ctrl = 0#1 ∧ ({ State.reset with ctrl := 1#1 } : State).ctrl = 1#1 := by decide

theorem witness_SampleSumsActiveVoicesInOrder : ∃ (st : Word) (noise gain : F32) (active : List (Fin maxVoices)),
    st = State.reset.noiseState * 196314165#32 + 907633515#32 ∧ noise = F32.fmul (noiseSample st) State.reset.noiseMix ∧
    gain = F32.fadd (F32.fmul State.reset.outMul (F32.fsub State.reset.outGain State.reset.outTarget)) State.reset.outTarget ∧
    active = [0, 1, 2, 3, 4, 5, 6, 7].filter (fun v => F32.fgt (State.reset.voice v).env.level 0x38D1B717#32) :=
  ⟨_, _, _, _, rfl, rfl, rfl, rfl⟩

/-- Two states that differ outside voice 0. -/
theorem witness_VoicesDoNotInterfere : State.reset.noiseState = ({ State.reset.setVoice 1 voiceT54 with status := 1#7 } : State).noiseState ∧
    State.reset.noiseMix = ({ State.reset.setVoice 1 voiceT54 with status := 1#7 } : State).noiseMix ∧
    State.reset.voice 0 = ({ State.reset.setVoice 1 voiceT54 with status := 1#7 } : State).voice 0 ∧
    State.reset.voice 1 ≠ ({ State.reset.setVoice 1 voiceT54 with status := 1#7 } : State).voice 1 := by decide +kernel

/-- One word for each case of the clamp, at the limits. -/
theorem witness_SafetyClampCases : F32.isNaN 0x7FC00000#32 = true ∧ F32.isInf 0xFF800000#32 = true ∧
    (F32.isFinite 0x40000001#32 = true ∧ F32.fgt 0x40000001#32 0x40000000#32 = true) ∧
    (F32.isFinite 0xC0000001#32 = true ∧ F32.flt 0xC0000001#32 0xC0000000#32 = true) ∧
    (F32.fgt 0x40000000#32 0x3F800000#32 = true ∧ F32.fle 0x40000000#32 0x40000000#32 = true) ∧
    (F32.flt 0xC0000000#32 0xBF800000#32 = true ∧ F32.fge 0xC0000000#32 0xC0000000#32 = true) ∧
    (F32.fge 0xBF800000#32 0xBF800000#32 = true ∧ F32.fle 0xBF800000#32 0x3F800000#32 = true) ∧
    (F32.fge 0x3F800000#32 0xBF800000#32 = true ∧ F32.fle 0x3F800000#32 0x3F800000#32 = true) := by decide +kernel

/-- PERIOD at 6.0 in the one active voice, the idle ones at +0.0 as power-on leaves them. -/
theorem witness_RenderStatusBits : ∃ s : State, s.status.getLsbD 3 = true ∧ F32.fgt (s.voice 0).env.level 0x38D1B717#32 = true ∧
    F32.fge ((s.voice 1).oscOf 0).period 0x40C00000#32 = false ∧
    ∀ v o, F32.fgt (s.voice v).env.level 0x38D1B717#32 = true → F32.fge ((s.voice v).oscOf o).period 0x40C00000#32 = true :=
  ⟨{ withVoice { Voice.reset with env := attacked, osc := Vector.replicate 2 { Osc.reset with period := 0x40C00000#32 } } with
      status := 0x7F#7 },
    by decide +kernel, by decide +kernel, by decide +kernel, by decide +kernel⟩

theorem witness_RenderRetiresInactiveVoices : ∃ x, x = (Safety.sampleState 8192 State.reset).voice 0 := ⟨_, rfl⟩

theorem witness_BlockSplitting : 4096 + 4096 ≤ 8192 ∧ 0 + 8192 ≤ 8192 ∧ State.reset.mem.wf ∧ State.reset.ctrl = 0#1 := by decide

/-- The two cases, and OUT_TARGET -0.0. -/
theorem witness_SilentRenderAfterEngineReset : State.reset.mem.wf ∧
    (∃ (b : Bool) (w : Word), b = (F32.isFinite State.reset.outTarget && F32.isFinite State.reset.outMul) ∧ b = true ∧
      w = F32.zero (F32.signBit State.reset.outTarget)) ∧
    (F32.isFinite 0x7F800000#32 && F32.isFinite 0#32) = false ∧ F32.isFinite 0x80000000#32 = true :=
  ⟨by decide, ⟨true, 0#32, by decide +kernel⟩, by decide +kernel, by decide +kernel⟩

/-- A set bit kept by NOP, cleared by a write of 1, and cleared by power-on. -/
theorem witness_StatusBitsAreSticky :
    ((result (step { withInputs [.bus (.write cmdAddr 0#32)] with status := 0x7F#7 })).map (fun t => t.status)) = some 0x7F#7 ∧
    ((result (step { withInputs [.bus (.write 0x0000C#17 0x7F#32)] with status := 0x7F#7 })).map (fun t => t.status)) = some 0#7 ∧
    ((result (step { withInputs [.powerOnReset] with status := 0x7F#7 })).map (fun t => t.status)) = some 0#7 := by decide +kernel

theorem reset_formInvariant : Safety.FormInvariant State.reset :=
  ⟨⟨List.Pairwise.nil, nofun⟩, nofun, by decide⟩

/-- A state with a word of the RAM listed, which the invariant meets, and a step from it. -/
theorem witness_StepKeepsFormInvariant : ∃ s : State, Safety.FormInvariant s ∧ s.mem ≠ [] ∧ ∃ t, step s = .next t :=
  ⟨{ withInputs [.bus (.write cmdAddr 0#32)] with mem := [(0x10003, 0x3F#8)] },
    ⟨by decide, by decide, by decide⟩, by decide, _, rfl⟩

theorem witness_StepKeepsOutputSane : ∃ s : State, Safety.FormInvariant s ∧ Safety.OutputSane s ∧ ∃ t, step s = .next t :=
  ⟨State.reset, reset_formInvariant, fun _ _ => by
    rw [show State.reset.mem = [] from rfl]; simp only [Memory.readWord, Memory.readByte, Memory.unlisted]; decide +kernel, _, rfl⟩

/-- Finite operands, a sum that overflows and one that does not, a divisor that is not zero; a floor of each kind. -/
theorem witness_ArithmeticRoundsOnceToNearestEven : F32.isFinite 0x7F7FFFFF#32 = true ∧ F32.units 0x3F800000#32 ≠ 0 ∧
    ((2 ^ 25 - 1) * 2 ^ 252 : Nat) * ((1 : Nat) : Int) ≤ (F32.units 0x7F7FFFFF#32 + F32.units 0x7F7FFFFF#32).natAbs ∧
    ¬ ((2 ^ 25 - 1) * 2 ^ 252 : Nat) * ((1 : Nat) : Int) ≤ (F32.units 0x3F800000#32 + F32.units 0x3F800000#32).natAbs ∧
    (F32.flt 0xBF800000#32 0xBF7FFFFF#32 = true ∧ F32.flt 0x80000001#32 0#32 = true) ∧
    (F32.flt 0#32 0x00000001#32 = true ∧ F32.flt 0x3F7FFFFF#32 0x3F800000#32 = true) ∧
    F32.units 0x80000000#32 = 0 ∧ F32.isInf 0xFF800000#32 = true := by decide +kernel

/-- A NaN, an infinity, a finite datum and a zero; an exact zero sum. -/
theorem witness_NanAndComparisonRules : F32.isNaN 0x7F800001#32 = true ∧ F32.isNaN 0xFFFFFFFF#32 = true ∧
    F32.isInf 0x7F800000#32 = true ∧ F32.isInf 0xFF800000#32 = true ∧ F32.isFinite 0x7F7FFFFF#32 = true ∧
    F32.isFinite 0x80000000#32 = true ∧ F32.units 0x80000000#32 = 0 ∧ F32.isNaN 0x7F800000#32 = false ∧
    F32.units 0x3F800000#32 + F32.units 0xBF800000#32 = 0 := by decide +kernel

/-- Both ends of the attack's ranges. -/
theorem witness_AttackAndReleaseEnd_attack :
    (F32.fge 0#32 0#32 = true ∧ F32.flt 0x3F7FFFFF#32 0x3F800000#32 = true ∧ F32.fle 0x3F7FFFFE#32 0x3F7FFFFE#32 = true ∧
      F32.fge 0x3F7FFFFE#32 0#32 = true ∧ F32.fge 0x3F7FFFFF#32 0#32 = true) ∧
    F32.fge rates.sustain 0x40000000#32 = false := by decide +kernel

/-- RELEASE 0.5 from LEVEL 1.0: the time constant is 1.44 samples. -/
theorem witness_AttackAndReleaseEnd_through :
    (F32.fle 0x3F800000#32 0x40400000#32 = true ∧ F32.fgt 0x3F000000#32 0#32 = true ∧ F32.flt 0x3F000000#32 0x3F800000#32 = true) ∧
    ((1 : Nat) : ℝ) * -Real.log ((F32.units 0x3F000000#32 : ℝ) / 2 ^ 149) ≤ 1 ∧
    (F32.units 0x38D1B717#32 : ℝ) * Real.exp 1 < F32.units 0x3F800000#32 * (1 - 1 / 2 ^ 24) ^ 1 := by
  have hr : F32.units 0x3F000000#32 = 2 ^ 148 := by decide +kernel
  have hs : F32.units 0x38D1B717#32 ≤ 2 ^ 136 := by decide +kernel
  have hl : F32.units 0x3F800000#32 = 2 ^ 149 := by decide +kernel
  have hs' : (F32.units 0x38D1B717#32 : ℝ) ≤ 2 ^ 136 := by exact_mod_cast hs
  have he : Real.exp 1 < 3 := lt_trans Real.exp_one_lt_d9 (by norm_num)
  refine ⟨by decide +kernel, ?_, ?_⟩
  · rw [hr]
    have : (((2 : Int) ^ 148 : Int) : ℝ) / 2 ^ 149 = 2⁻¹ := by norm_num
    rw [this, Real.log_inv, neg_neg, Nat.cast_one, one_mul]
    exact le_trans Real.log_two_lt_d9.le (by norm_num)
  · rw [hl]
    calc (F32.units 0x38D1B717#32 : ℝ) * Real.exp 1 ≤ 2 ^ 136 * 3 :=
          mul_le_mul hs' he.le (Real.exp_pos 1).le (by positivity)
      _ < _ := by norm_num

/-- LEVEL at 3.0, RELEASE at 0 and at the greatest datum below 1.0. -/
theorem witness_AttackAndReleaseEnd_release : F32.fle 0x40400000#32 0x40400000#32 = true ∧ F32.fge 0#32 0#32 = true ∧
    F32.flt 0#32 0x3F800000#32 = true ∧ F32.fge 0x3F7FFFFF#32 0#32 = true ∧ F32.flt 0x3F7FFFFF#32 0x3F800000#32 = true := by
  decide +kernel

end Sys2Proof.Tests
end

section
/-! PROOFS. The binary32 primitives of spec/00_scope.md R10 and R12: each on finite data is one `round`, which rounds once to
nearest even (O57), and each on the special values (O58). -/
namespace Sys2Proof
namespace F32

/-! ### The sign and the kind of a datum -/

theorem isNaN_of_isInf {a : F32} (h : isInf a = true) : isNaN a = false := by
  rw [isInf_iff] at h
  rw [Bool.eq_false_iff, ne_eq, isNaN_iff]
  omega

theorem mag_eq_zero_iff (a : F32) : mag a = 0 ↔ units a = 0 := by
  rw [← natAbs_units, Int.natAbs_eq_zero]

theorem isFinite_of_units_eq_zero {a : F32} (h : units a = 0) : isFinite a = true := by
  have hle : mag a ≤ mag 0#32 := by rw [(mag_eq_zero_iff a).2 h]; exact Nat.zero_le _
  rw [mag_le_iff] at hle
  rw [isFinite_iff]
  exact lt_of_le_of_lt hle (by decide)

theorem getLsbD_fneg (a : F32) (k : Nat) :
    (fneg a).getLsbD k = if k = 31 then !a.getLsbD k else a.getLsbD k := by
  have hmask : (0x80000000#32).getLsbD k = decide (k = 31) := by
    rw [show (0x80000000#32) = BitVec.twoPow 32 31 from rfl, BitVec.getLsbD_twoPow]
    simp [eq_comm]
  rw [fneg, BitVec.getLsbD_xor, hmask]
  by_cases hk : k = 31 <;> simp [hk]

theorem mag_fneg (a : F32) : mag (fneg a) = mag a := by
  rw [← natAbs_units, units_fneg, Int.natAbs_neg, natAbs_units]

/-- Negation keeps the encoding below the sign. -/
theorem toNat_fneg_mod (a : F32) : (fneg a).toNat % 2 ^ 31 = a.toNat % 2 ^ 31 := by
  have h := mag_fneg a
  rw [mag_eq, mag_eq] at h
  exact magNat_injective h

@[simp] theorem isFinite_fneg (a : F32) : isFinite (fneg a) = isFinite a := by
  rw [Bool.eq_iff_iff, isFinite_iff, isFinite_iff, toNat_fneg_mod]

@[simp] theorem isNaN_fneg (a : F32) : isNaN (fneg a) = isNaN a := by
  rw [Bool.eq_iff_iff, isNaN_iff, isNaN_iff, toNat_fneg_mod]

/-! ### One rounding -/

/-- The rounded magnitude overflows exactly from halfway between the greatest finite magnitude and 2^128 on. -/
theorem roundMag_lt_iff {num den : Nat} (hd : 0 < den) :
    roundMag num den < 0x7F800000 ↔ num < (2 ^ 25 - 1) * 2 ^ 252 * den := by
  constructor
  · intro h
    by_contra hc
    have hmono := roundMag_mono (num := (2 ^ 25 - 1) * 2 ^ 252) (den := 1) (num' := num) Nat.one_pos hd (by omega)
    have hhalf : roundMag ((2 ^ 25 - 1) * 2 ^ 252) 1 = 0x7F800000 := by decide +kernel
    omega
  · intro h
    by_contra hc
    have hbig : magNat 0x7F800000 ≤ magNat (roundMag num den) := magNat_strictMono.monotone (by omega)
    have hinf : magNat 0x7F800000 = 2 ^ 277 := by decide +kernel
    have hmax : magNat 0x7F7FFFFF = (2 ^ 24 - 1) * 2 ^ 253 := by decide +kernel
    have hbigd : 2 ^ 277 * den ≤ magNat (roundMag num den) * den := Nat.mul_le_mul_right _ (hinf ▸ hbig)
    -- the greatest finite magnitude would be nearer
    have hnear := roundMag_nearest num den 0x7F7FFFFF hd
    rw [hmax, abs_of_nonneg (a := ((magNat (roundMag num den) * den : Nat) : Int) - num) (by omega)] at hnear
    rcases abs_cases ((((2 ^ 24 - 1) * 2 ^ 253 * den : Nat) : Int) - num) with ⟨e, -⟩ | ⟨e, -⟩ <;> rw [e] at hnear <;> omega

/-- The exact value a sign and a magnitude `num` stand for. -/
def signed (neg : Bool) (num : Nat) : Int := if neg then -(num : Int) else num

theorem units_eq_signed (a : F32) : units a = signed (signBit a) (mag a) := rfl

theorem units_round_eq_signed (neg : Bool) (num den : Nat) (h : roundMag num den < 0x7F800000) :
    units (round neg num den) = signed neg (magNat (roundMag num den)) := units_round neg num den h

theorem natAbs_signed (neg : Bool) (num : Nat) : (signed neg num).natAbs = num := by
  cases neg <;> simp [signed]

theorem signed_neg_iff (neg : Bool) {num : Nat} (h : num ≠ 0) : signed neg num < 0 ↔ neg = true := by
  cases neg
  · simp [signed]
  · simp [signed]; omega

theorem signed_eq_iff (s t : Bool) {num : Nat} (h : num ≠ 0) : signed s num = signed t num ↔ s = t := by
  have hneg : (num : Int) ≠ -num ∧ -(num : Int) ≠ num := by omega
  cases s <;> cases t <;> simp [signed, hneg]

theorem signed_mul (s t : Bool) (m n : Nat) : signed s m * signed t n = signed (s != t) (m * n) := by
  cases s <;> cases t <;> simp [signed]

theorem signed_sign (neg : Bool) {num : Nat} (h : num ≠ 0) : (signed neg num).sign = signed neg 1 := by
  have hs : (num : Int).sign = 1 := Int.sign_eq_one_of_pos (by omega)
  cases neg <;> simp [signed, hs]

theorem signed_natAbs (v : Int) : signed (decide (v < 0)) v.natAbs = v := by
  unfold signed
  by_cases h : v < 0
  · rw [if_pos (decide_eq_true h)]; omega
  · rw [if_neg (by simpa using h)]; omega

/-- The distance of two values of one sign is that of their magnitudes. -/
theorem abs_signed_sub (neg : Bool) (m den num : Nat) :
    |signed neg m * den - signed neg num| = |((m * den : Nat) : Int) - num| := by
  cases neg
  · simp [signed]
  · rw [← abs_neg]
    simp only [signed, if_true]
    congr 1
    push_cast
    ring

/-- A datum as near to the exact value as the rounded one has its sign, if the exact value is not 0. -/
theorem units_eq_signed_of_tie {neg : Bool} {num den : Nat} (hd : 0 < den) (hnum : num ≠ 0) (x : F32)
    (h : |signed neg (magNat (roundMag num den)) * den - signed neg num| = |units x * den - signed neg num|) :
    units x = signed neg (mag x) := by
  rw [units_eq_signed x] at h ⊢
  by_cases hs : signBit x = neg
  · rw [hs]
  have hs' : signBit x = !neg := by cases neg <;> simpa using hs
  have hfar : |signed (!neg) (mag x) * den - signed neg num| = ((mag x * den : Nat) : Int) + num := by
    cases neg
    · simp only [signed, Bool.not_false, if_true, Bool.false_eq_true, if_false]
      rw [show -(mag x : Int) * den - num = -(((mag x * den : Nat) : Int) + num) by push_cast; ring, abs_neg]
      exact abs_of_nonneg (by positivity)
    · simp only [signed, Bool.not_true, if_true, Bool.false_eq_true, if_false]
      rw [show (mag x : Int) * den - -num = ((mag x * den : Nat) : Int) + num by push_cast; ring]
      exact abs_of_nonneg (by positivity)
  have hnear := roundMag_nearest num den (x.toNat % 2 ^ 31) hd
  rw [← mag_eq] at hnear
  rw [hs', hfar, abs_signed_sub] at h
  have hzero : mag x * den = 0 := by
    rcases abs_cases (((mag x * den : Nat) : Int) - num) with ⟨e, -⟩ | ⟨e, -⟩ <;> rw [e] at hnear <;> omega
  have hmag : mag x = 0 := (Nat.mul_eq_zero.1 hzero).resolve_right (by omega)
  rw [hmag]
  cases signBit x <;> cases neg <;> rfl

/-- Where a datum of another value is as near, the rounded encoding is even. -/
theorem roundMag_even_of_units_tie {neg : Bool} {num den : Nat} (hd : 0 < den) (x : F32)
    (hne : units x ≠ signed neg (magNat (roundMag num den)))
    (h : |signed neg (magNat (roundMag num den)) * den - signed neg num| = |units x * den - signed neg num|) :
    roundMag num den % 2 = 0 := by
  by_cases hnum : num = 0
  · have hz := roundMag_exact 0 den hd
    rw [show magNat 0 * den = 0 by simp [magNat]] at hz
    rw [hnum, hz]
  · have hx := units_eq_signed_of_tie hd hnum x h
    rw [hx, abs_signed_sub, abs_signed_sub, mag_eq] at h
    refine roundMag_even_of_tie num den (x.toNat % 2 ^ 31) hd (fun hb => hne ?_) h.symm
    rw [hx, mag_eq, hb]

theorem getLsbD_zero_round {neg : Bool} {num den : Nat} (h : roundMag num den < 0x7F800000)
    (heven : roundMag num den % 2 = 0) : (round neg num den).getLsbD 0 = false := by
  rw [BitVec.getLsbD, toNat_round _ _ _ h, Nat.testBit_zero, decide_eq_false_iff_not]
  cases neg <;> simp <;> omega

theorem overflows_signed_iff (neg : Bool) (num den : Nat) :
    Safety.Overflows (signed neg num) den ↔ (2 ^ 25 - 1) * 2 ^ 252 * den ≤ num := by
  rw [Safety.Overflows, Int.abs_eq_natAbs, natAbs_signed]
  omega

/-- `round` is the one rounding of R10. -/
theorem roundedOnce_round (neg : Bool) (num : Nat) {den : Nat} (hd : 0 < den) :
    Safety.RoundedOnce (signed neg num) den (round neg num den) := by
  rw [Safety.RoundedOnce, overflows_signed_iff, not_le, ← roundMag_lt_iff hd]
  refine ⟨fun h => ⟨(isFinite_round _ _ _).2 h, fun x hx => ⟨?_, fun hne htie => ?_⟩⟩, fun hover => ?_⟩
  · exact units_round_nearest neg num den hd h (units x) (representable_units x)
  · rw [units_round_eq_signed _ _ _ h] at hne htie
    exact getLsbD_zero_round h (roundMag_even_of_units_tie hd x hne htie)
  · have hnum : num ≠ 0 := by rintro rfl; omega
    have hlt : ¬roundMag num den < 0x7F800000 := by rw [roundMag_lt_iff hd]; omega
    rw [round_overflow _ _ _ hlt]
    congr 1
    rw [Bool.eq_iff_iff, decide_eq_true_eq, signed_neg_iff neg hnum]

/-! ### The primitives on finite data -/

theorem round_zero (neg : Bool) : round neg 0 1 = zero neg := by cases neg <;> decide +kernel

/-- The sign of a sum: the exact value's, and of an exact zero, minus only where both operands are negative. -/
def sumSign (a b : F32) : Bool := if units a + units b = 0 then signBit a && signBit b else decide (units a + units b < 0)

section
variable {a b : F32} (ha : isFinite a = true) (hb : isFinite b = true)
include ha hb

theorem fadd_of_finite : fadd a b = round (sumSign a b) (units a + units b).natAbs 1 := by
  simp only [fadd, isNaN_of_isFinite ha, isNaN_of_isFinite hb, isInf_of_isFinite ha, isInf_of_isFinite hb, Bool.or_self,
    Bool.false_eq_true, if_false, sumSign]
  by_cases h0 : units a + units b = 0
  · rw [if_pos h0, if_pos h0, h0]; exact (round_zero _).symm
  · rw [if_neg h0, if_neg h0]

theorem fmul_of_finite : fmul a b = round (signBit a != signBit b) (mag a * mag b) (2 ^ 149) := by
  simp only [fmul, isNaN_of_isFinite ha, isNaN_of_isFinite hb, isInf_of_isFinite ha, isInf_of_isFinite hb, Bool.or_self,
    Bool.false_eq_true, if_false]

theorem fdiv_of_finite : fdiv a b =
    if mag b = 0 then (if mag a = 0 then canonNaN else inf (signBit a != signBit b))
    else round (signBit a != signBit b) (mag a * 2 ^ 149) (mag b) := by
  simp only [fdiv, isNaN_of_isFinite ha, isNaN_of_isFinite hb, isInf_of_isFinite ha, isInf_of_isFinite hb, Bool.or_self,
    Bool.false_eq_true, if_false]

theorem roundedOnce_fadd : Safety.RoundedOnce (units a + units b) 1 (fadd a b) := by
  have hv : signed (sumSign a b) (units a + units b).natAbs = units a + units b := by
    unfold sumSign
    by_cases h0 : units a + units b = 0
    · rw [h0]; cases signBit a <;> cases signBit b <;> rfl
    · rw [if_neg h0, signed_natAbs]
  have h := roundedOnce_round (sumSign a b) (units a + units b).natAbs Nat.one_pos
  rwa [hv, ← fadd_of_finite ha hb] at h

theorem roundedOnce_fsub : Safety.RoundedOnce (units a - units b) 1 (fsub a b) := by
  have h := roundedOnce_fadd ha ((isFinite_fneg b).trans hb)
  rwa [units_fneg, ← sub_eq_add_neg] at h

theorem roundedOnce_fmul : Safety.RoundedOnce (units a * units b) (2 ^ 149) (fmul a b) := by
  rw [fmul_of_finite ha hb, units_eq_signed a, units_eq_signed b, signed_mul]
  exact roundedOnce_round _ _ (by positivity)

theorem roundedOnce_fdiv (h0 : units b ≠ 0) :
    Safety.RoundedOnce (units a * (units b).sign * 2 ^ 149) (units b).natAbs (fdiv a b) := by
  have hm : mag b ≠ 0 := fun h => h0 ((mag_eq_zero_iff b).1 h)
  have hv : units a * (units b).sign * 2 ^ 149 = signed (signBit a != signBit b) (mag a * 2 ^ 149) := by
    calc units a * (units b).sign * 2 ^ 149
        = signed (signBit a) (mag a) * signed (signBit b) 1 * signed false (2 ^ 149) := by
          rw [units_eq_signed a, units_eq_signed b, signed_sign _ hm]; rfl
      _ = signed (signBit a != signBit b) (mag a * 2 ^ 149) := by
          rw [signed_mul, signed_mul, Bool.bne_false, Nat.mul_one]
  rw [hv, natAbs_units, fdiv_of_finite ha hb, if_neg hm]
  exact roundedOnce_round _ _ (Nat.pos_of_ne_zero hm)

end

/-- The value of a whole number `n`, in units of 2^-149. -/
theorem signed_natAbs_mul (n : Int) : signed (decide (n < 0)) (n.natAbs * 2 ^ 149) = n * 2 ^ 149 := by
  have h := signed_mul (decide (n < 0)) false n.natAbs (2 ^ 149)
  rw [signed_natAbs, Bool.bne_false] at h
  exact h.symm

theorem roundedOnce_ofInt (n : Int) : Safety.RoundedOnce (n * 2 ^ 149) 1 (ofInt n) := by
  rw [← signed_natAbs_mul]
  exact roundedOnce_round _ _ Nat.one_pos

/-! ### The floor -/

/-- The exact floor of a finite datum, in units of 2^-149. -/
def floorUnits (a : F32) : Int := units a / 2 ^ 149 * 2 ^ 149

/-- From 2^23 on a datum is whole; below, its floor has 24 digits at most. -/
theorem representable_floorUnits (a : F32) : Representable (floorUnits a) := by
  have hu := natAbs_units a
  unfold floorUnits
  by_cases hbig : 2 ^ (149 + 23) ≤ mag a
  · obtain ⟨k, hk⟩ := magNat_multiple _ 149 (mag_eq a ▸ hbig)
    rw [← mag_eq] at hk
    rw [show units a / 2 ^ 149 * 2 ^ 149 = units a by omega]
    exact representable_units a
  · exact ⟨(units a / 2 ^ 149).natAbs, 149, by omega, by rw [Int.natAbs_mul]; rfl⟩

theorem not_overflows_floorUnits {a : F32} (ha : isFinite a = true) : ¬Safety.Overflows (floorUnits a) 1 := by
  have h := natAbs_units_le ha
  rw [Safety.Overflows, floorUnits, Int.abs_eq_natAbs]
  omega

/-- A finite rounding of a representable whole number is exact. -/
theorem units_ofInt {n : Int} (hf : isFinite (ofInt n) = true) (hr : Representable (n * 2 ^ 149)) :
    units (ofInt n) = n * 2 ^ 149 := by
  have h := units_round_nearest (decide (n < 0)) _ 1 Nat.one_pos ((isFinite_round _ _ _).1 hf) _ hr
  rw [← signed, signed_natAbs_mul, ← ofInt, Nat.cast_one, mul_one, mul_one, sub_self, abs_zero, abs_nonpos_iff] at h
  omega

theorem ffloor_of_zero_or_inf {a : F32} (h : units a = 0 ∨ isInf a = true) : ffloor a = a := by
  unfold ffloor
  rcases h with h | h
  · rw [isNaN_of_isFinite (isFinite_of_units_eq_zero h), (mag_eq_zero_iff a).2 h]; simp
  · rw [isNaN_of_isInf h, h]; simp

theorem ffloor_of_finite {a : F32} (ha : isFinite a = true) (h0 : units a ≠ 0) : ffloor a = ofInt (units a / 2 ^ 149) := by
  simp [ffloor, isNaN_of_isFinite ha, isInf_of_isFinite ha, mag_eq_zero_iff, h0]

/-- The floor of a finite datum is exact. -/
theorem ffloor_exact {a : F32} (ha : isFinite a = true) : isFinite (ffloor a) = true ∧ units (ffloor a) = floorUnits a := by
  by_cases h0 : units a = 0
  · rw [ffloor_of_zero_or_inf (.inl h0), floorUnits, h0]
    exact ⟨ha, rfl⟩
  · obtain ⟨hround, -⟩ := roundedOnce_ofInt (units a / 2 ^ 149)
    obtain ⟨hf, -⟩ := hround (not_overflows_floorUnits ha)
    rw [ffloor_of_finite ha h0]
    exact ⟨hf, units_ofInt hf (representable_floorUnits a)⟩

/-- Between -1.0 and 0 the floor is -1.0. -/
theorem ffloor_of_neg_fraction {a : F32} (h1 : flt 0xBF800000#32 a = true) (h0 : flt a 0#32 = true) :
    ffloor a = 0xBF800000#32 := by
  have hm1 : units 0xBF800000#32 = -2 ^ 149 := by decide +kernel
  have hz : units 0#32 = 0 := by decide +kernel
  obtain ⟨-, hn, hlo⟩ := (flt_iff _ _).1 h1
  obtain ⟨-, -, hhi⟩ := (flt_iff _ _).1 h0
  rw [hm1] at hlo
  rw [hz] at hhi
  obtain ⟨-, hu⟩ := ffloor_exact (isFinite_of_units hn (by omega))
  have hfloor : floorUnits a = -2 ^ 149 := by unfold floorUnits; omega
  exact eq_of_units_eq (by rw [hu, hfloor, hm1]) (by rw [hu, hfloor]; decide)

/-- Between 0 and 1.0 the floor is +0.0. -/
theorem ffloor_of_pos_fraction {a : F32} (h0 : flt 0#32 a = true) (h1 : flt a 0x3F800000#32 = true) :
    ffloor a = 0#32 := by
  have hz : units 0#32 = 0 := by decide +kernel
  have hone : units 0x3F800000#32 = 2 ^ 149 := by decide +kernel
  obtain ⟨-, hn, hlo⟩ := (flt_iff _ _).1 h0
  obtain ⟨-, -, hhi⟩ := (flt_iff _ _).1 h1
  rw [hz] at hlo
  rw [hone] at hhi
  rw [ffloor_of_finite (isFinite_of_units hn (by omega)) (by omega), show units a / 2 ^ 149 = 0 by omega]
  decide +kernel

/-- Settles O57: every primitive is one `round` of the exact value, and the floor of a datum is representable. -/
theorem arithmeticRoundsOnceToNearestEven : Obligations.ArithmeticRoundsOnceToNearestEven := by
  refine ⟨fun a b ha hb => ?_, fun w => roundedOnce_ofInt w.toInt, fun a => ?_⟩
  · exact ⟨roundedOnce_fadd ha hb, roundedOnce_fsub ha hb, roundedOnce_fmul ha hb, roundedOnce_fdiv ha hb⟩
  · exact ⟨ffloor_exact, ffloor_of_neg_fraction, ffloor_of_pos_fraction, ffloor_of_zero_or_inf⟩

/-! ### NaN operands -/

theorem fadd_of_nan {a b : F32} (h : isNaN a = true ∨ isNaN b = true) : fadd a b = canonNaN :=
  if_pos (by simpa using h)

theorem fsub_of_nan {a b : F32} (h : isNaN a = true ∨ isNaN b = true) : fsub a b = canonNaN :=
  fadd_of_nan (by rwa [isNaN_fneg])

theorem fmul_of_nan {a b : F32} (h : isNaN a = true ∨ isNaN b = true) : fmul a b = canonNaN :=
  if_pos (by simpa using h)

theorem fdiv_of_nan {a b : F32} (h : isNaN a = true ∨ isNaN b = true) : fdiv a b = canonNaN :=
  if_pos (by simpa using h)

theorem ffloor_of_nan {a : F32} (h : isNaN a = true) : ffloor a = canonNaN := if_pos h

theorem flt_of_nan {a b : F32} (h : isNaN a = true ∨ isNaN b = true) : flt a b = false := by
  rcases h with h | h <;> simp [flt, h]

theorem fle_of_nan {a b : F32} (h : isNaN a = true ∨ isNaN b = true) : fle a b = false := by
  rcases h with h | h <;> simp [fle, h]

/-! ### Infinities -/

theorem mag_ne_zero_of_isInf {a : F32} (h : isInf a = true) : mag a ≠ 0 := by
  rw [mag_of_isInf h]; positivity

section
variable {a b : F32} (ha : isInf a = true)
include ha

theorem fadd_inf_inf (hb : isInf b = true) : fadd a b = if signBit a = signBit b then a else canonNaN := by
  by_cases hs : signBit a = signBit b <;> simp [fadd, isNaN_of_isInf, ha, hb, hs]

theorem fmul_inf_inf (hb : isInf b = true) : fmul a b = inf (signBit a != signBit b) := by
  simp [fmul, isNaN_of_isInf, ha, hb, mag_ne_zero_of_isInf]

theorem fdiv_inf_inf (hb : isInf b = true) : fdiv a b = canonNaN := by
  simp [fdiv, isNaN_of_isInf, ha, hb]

/-- Two infinities have one value exactly where they have one sign. -/
theorem units_eq_iff_of_isInf (hb : isInf b = true) : units a = units b ↔ signBit a = signBit b := by
  rw [units_eq_signed, units_eq_signed, mag_of_isInf hb, ← mag_of_isInf ha, signed_eq_iff _ _ (mag_ne_zero_of_isInf ha)]

theorem fadd_inf_finite (hb : isFinite b = true) : fadd a b = a := by
  simp [fadd, isNaN_of_isInf ha, ha, isNaN_of_isFinite hb, isInf_of_isFinite hb]

theorem fadd_finite_inf (hb : isFinite b = true) : fadd b a = a := by
  simp [fadd, isNaN_of_isInf ha, ha, isNaN_of_isFinite hb, isInf_of_isFinite hb]

theorem fmul_inf_finite (hb : isFinite b = true) :
    fmul a b = if units b = 0 then canonNaN else inf (signBit a != signBit b) := by
  simp [fmul, isNaN_of_isInf ha, ha, isNaN_of_isFinite hb, mag_ne_zero_of_isInf ha, mag_eq_zero_iff]

theorem fdiv_inf_finite (hb : isFinite b = true) : fdiv a b = inf (signBit a != signBit b) := by
  simp [fdiv, isNaN_of_isInf ha, ha, isNaN_of_isFinite hb, isInf_of_isFinite hb]

theorem fdiv_finite_inf (hb : isFinite b = true) : fdiv b a = zero (signBit b != signBit a) := by
  simp [fdiv, isNaN_of_isInf ha, ha, isNaN_of_isFinite hb, isInf_of_isFinite hb]

/-- An infinity is beyond every finite datum, on its own side. -/
theorem units_inf_beyond_finite (hb : isFinite b = true) :
    if signBit a = true then units a < units b else units b < units a := by
  have hle := mag_lt_of_isFinite hb
  have hbu := natAbs_units b
  rw [units_eq_signed a, mag_of_isInf ha]
  cases signBit a <;> simp only [signed, if_true, Bool.false_eq_true, if_false] <;> omega

end

theorem fmul_comm (a b : F32) : fmul a b = fmul b a := by
  simp only [fmul, Bool.or_comm (isNaN b), Bool.or_comm (isInf b), or_comm (a := mag b = 0), Nat.mul_comm (mag b),
    bne_comm (a := signBit b)]

/-! ### Zeros and signs -/

section
variable {a b : F32} (ha : isFinite a = true) (hb : isFinite b = true)
include ha hb

theorem fdiv_by_zero (h0 : units b = 0) :
    fdiv a b = if units a = 0 then canonNaN else inf (signBit a != signBit b) := by
  rw [fdiv_of_finite ha hb, if_pos ((mag_eq_zero_iff b).2 h0)]
  simp only [mag_eq_zero_iff]

theorem fadd_exact_zero (h0 : units a + units b = 0) : fadd a b = zero (signBit a && signBit b) := by
  rw [fadd_of_finite ha hb, sumSign, if_pos h0, h0]
  exact round_zero _

theorem signBit_fmul : signBit (fmul a b) = (signBit a != signBit b) := by
  rw [fmul_of_finite ha hb, signBit_round]

theorem signBit_fdiv (h0 : units b ≠ 0) : signBit (fdiv a b) = (signBit a != signBit b) := by
  rw [fdiv_of_finite ha hb, if_neg (mt (mag_eq_zero_iff b).1 h0), signBit_round]

end

/-! ### The statement -/

/-- Settles O58: a clause for each kind of operands, each the law of its operation above. -/
theorem nanAndComparisonRules : Obligations.NanAndComparisonRules := by
  intro a b
  refine ⟨fun h => ?_, ffloor_of_nan, getLsbD_fneg a, rfl, fun ha hb => ?_, fun ha hb => ?_, fun ha hb => ?_,
    fun ha hb => ?_, by decide +kernel⟩
  · exact ⟨fadd_of_nan h, fsub_of_nan h, fmul_of_nan h, fdiv_of_nan h, flt_of_nan h, fle_of_nan h, flt_of_nan h.symm,
      fle_of_nan h.symm⟩
  · exact ⟨fadd_inf_inf ha hb, fmul_inf_inf ha hb, fdiv_inf_inf ha hb, units_eq_iff_of_isInf ha hb⟩
  · exact ⟨fadd_inf_finite ha hb, fadd_finite_inf ha hb, fmul_inf_finite ha hb, fmul_comm b a, fdiv_inf_finite ha hb,
      fdiv_finite_inf ha hb, units_inf_beyond_finite ha hb⟩
  · exact ⟨fdiv_by_zero ha hb, fadd_exact_zero ha hb, signBit_fmul ha hb, signBit_fdiv ha hb⟩
  · simp only [flt_iff, fle_iff, fgt_iff, fge_iff, ha, hb, true_and, and_self]

end F32
end Sys2Proof
end

section
/-! PROOFS. The bus as every statement sees it: which register an address names, what a read returns, what a write can do
(spec/20_memory.md R84–R86, spec/40_bus.md R150–R155); then the reads of the registers (O10, O11, O12). -/
namespace Sys2Proof.Machine

/-! ### A read and a write of an address whose register is known -/

theorem reads_of_regOf (s : State) {a : Addr} {r : Reg} (h : regOf a = some r) :
    Safety.Reads s a (s.readReg Config.machine r) := by
  simp only [Safety.Reads, exec, execRd, busRead, h]

theorem exec_wr_readOnly (s : State) (w : Word) {a : Addr} {r : Reg} (h : regOf a = some r) (hr : r.access = .ro) :
    exec (.wr a w) s = .next (s.flag .buserr) := by
  simp only [exec, execWr, h, hr]

/-! ### The voice blocks of the address map -/

theorem oscAt_offset (r : OscReg) : oscAt r.offset = some r := by cases r <;> rfl

theorem oscReg_offset_bounds (r : OscReg) : r.offset < 0x28 ∧ r.offset % 4 = 0 := by cases r <;> decide

theorem voiceAt_osc (o : Fin oscPerVoice) (r : OscReg) : voiceAt (0x40 + 0x40 * o.val + r.offset) = some (.osc o r) := by
  match o with
  | 0 => cases r <;> decide
  | 1 => cases r <;> decide

/-- A register's offset in its voice block names it (R85). -/
theorem voiceAt_offset (r : VoiceReg) : voiceAt r.offset = some r := by
  cases r with
  | osc o r => exact voiceAt_osc o r
  | _ => rfl

theorem voiceReg_offset_bounds (r : VoiceReg) : r.offset < 0x100 ∧ r.offset % 4 = 0 := by
  cases r with
  | osc o r =>
    have ho : o.val < 2 := o.isLt
    obtain ⟨h1, h2⟩ := oscReg_offset_bounds r
    simp only [VoiceReg.offset]
    omega
  | _ => decide

theorem aligned_iff (a : Addr) : aligned a = true ↔ a.toNat % 4 = 0 := by
  simp [aligned, ← BitVec.toNat_inj, BitVec.extractLsb'_toNat]

theorem toNat_voiceAddr (v : Fin maxVoices) {k : Nat} (hk : k < 0x100) :
    (Safety.voiceAddr v k).toNat = 0x01000 + 0x100 * v.val + k := by
  have hv : v.val < 8 := v.isLt
  rw [Safety.voiceAddr, BitVec.toNat_ofNat]
  exact Nat.mod_eq_of_lt (show _ < 2 ^ 17 by omega)

/-- The address of a voice register names it (R85). -/
theorem regOf_voiceAddr (v : Fin maxVoices) (r : VoiceReg) : regOf (Safety.voiceAddr v r.offset) = some (.voice v r) := by
  obtain ⟨hlt, h4⟩ := voiceReg_offset_bounds r
  have hv : v.val < 8 := v.isLt
  have ha := toNat_voiceAddr v hlt
  have hal : aligned (Safety.voiceAddr v r.offset) = true := (aligned_iff _).2 (by omega)
  have hblock : (0x01000 + 0x100 * v.val + r.offset) % 0x100 = r.offset := by omega
  have hvoice : (0x01000 + 0x100 * v.val + r.offset - voiceBase) / 0x100 = v.val := by simp only [voiceBase]; omega
  simp only [regOf, ha, hal, Bool.not_true, Bool.false_eq_true, if_false, hblock, hvoice, voiceAt_offset, Option.map_some]
  rw [if_neg (by simp only [voiceBase]; omega), if_pos (by simp only [voiceBase, maxVoices]; omega)]
  simp

theorem offset_of_oscAt {n : Nat} {r : OscReg} (h : oscAt n = some r) : r.offset = n := by
  unfold oscAt at h
  split at h <;> cases h <;> rfl

theorem offset_of_map_oscAt {n : Nat} (o : Fin oscPerVoice) {r : VoiceReg} (hn : 0x40 + 0x40 * o.val ≤ n)
    (h : (oscAt (n - (0x40 + 0x40 * o.val))).map (.osc o) = some r) : r.offset = n := by
  obtain ⟨q, hq, rfl⟩ := Option.map_eq_some_iff.1 h
  have hoff := offset_of_oscAt hq
  simp only [VoiceReg.offset]
  omega

/-- The one offset of a register in its voice block (R85). -/
theorem offset_of_voiceAt {n : Nat} {r : VoiceReg} (h : voiceAt n = some r) : r.offset = n := by
  unfold voiceAt at h
  split at h
  case h_13 =>
    split_ifs at h with h0 h1
    · exact offset_of_map_oscAt 0 h0.1 h
    · exact offset_of_map_oscAt 1 h1.1 h
  all_goals cases h; rfl

theorem globalAt_ne_voice (n : Nat) (v : Fin maxVoices) (r : VoiceReg) : globalAt n ≠ some (.voice v r) := by
  unfold globalAt
  split <;> exact nofun

/-- No other address names a voice register (R85). -/
theorem eq_voiceAddr_of_regOf {a : Addr} {v : Fin maxVoices} {r : VoiceReg} (h : regOf a = some (.voice v r)) :
    a = Safety.voiceAddr v r.offset := by
  unfold regOf at h
  split_ifs at h with hal hglobal hvoice
  · exact absurd h (globalAt_ne_voice _ _ _)
  · obtain ⟨q, hq, hv⟩ := Option.map_eq_some_iff.1 h
    cases hv
    have hoff := offset_of_voiceAt hq
    apply BitVec.eq_of_toNat_eq
    rw [toNat_voiceAddr _ (voiceReg_offset_bounds r).1, hoff, Fin.val_ofNat]
    simp only [voiceBase, maxVoices] at *
    omega
  all_goals cases h

theorem reads_voiceReg (s : State) (v : Fin maxVoices) (r : VoiceReg) :
    Safety.Reads s (Safety.voiceAddr v r.offset) ((s.voice v).readReg r) :=
  reads_of_regOf s (regOf_voiceAddr v r)

theorem oscAddr_eq_voiceAddr (v : Fin maxVoices) (o : Fin oscPerVoice) (r : OscReg) :
    Safety.oscAddr v o r.offset = Safety.voiceAddr v (VoiceReg.osc o r).offset := by
  simp only [Safety.oscAddr, Safety.voiceAddr, VoiceReg.offset]
  congr 1
  omega

theorem reads_oscReg (s : State) (v : Fin maxVoices) (o : Fin oscPerVoice) (r : OscReg) :
    Safety.Reads s (Safety.oscAddr v o r.offset) (((s.voice v).oscOf o).readReg r) := by
  rw [oscAddr_eq_voiceAddr]
  exact reads_voiceReg s v (.osc o r)

/-- Settles O12: every register of a voice block is read at its offset. -/
theorem voiceRegisterReads : Obligations.VoiceRegisterReads := by
  intro s v
  have hreg := reads_voiceReg s v
  have hphase := hreg .envState
  refine ⟨hreg .note, hreg .panL, hreg .panR, hreg .saw, ?_, hreg .envLevel, hreg .envTarget, hreg .envMult,
    hreg .envAttack, hreg .envDecay, hreg .envSustain, hreg .envRelease, fun o => ?_⟩
  · simp only [Voice.readReg] at hphase
    cases h : (s.voice v).env.phase <;> rw [h] at hphase <;> exact hphase
  · have hosc := reads_oscReg s v o
    exact ⟨hosc .period, hosc .amplitude, hosc .modulation, hosc .phase, hosc .phaseMax, hosc .inc, hosc .sin0, hosc .sin1,
      hosc .dsin⟩

/-- Settles O10: each address names its register, which a read returns. -/
theorem globalRegisterReads : Obligations.GlobalRegisterReads := by
  intro s
  have hread {a : Addr} {r : Reg} (h : regOf a = some r) := reads_of_regOf s h
  have hstatus : (0#25 ++ s.status : Word) = s.readReg Config.machine .status := (BitVec.setWidth_eq_append (by decide)).symm
  have hctrl : (0#31 ++ s.ctrl : Word) = s.readReg Config.machine .ctrl := (BitVec.setWidth_eq_append (by decide)).symm
  rw [hstatus, hctrl]
  exact ⟨hread (r := .id) rfl, hread (r := .cmd) rfl, hread (r := .arg) rfl, hread (r := .status) rfl, hread (r := .ctrl) rfl,
    hread (r := .blockLen) rfl, hread (r := .noiseState) rfl, hread (r := .noiseMix) rfl,
    hread (r := .outTarget) rfl, hread (r := .outMul) rfl, hread (r := .outGain) rfl⟩

/-! ### The two masks -/

theorem getLsbD_one_shiftLeft (v k : Nat) (hv : v < 32) : ((1#32 : Word) <<< v).getLsbD k = decide (k = v) := by
  rw [← BitVec.twoPow_eq, BitVec.getLsbD_twoPow]
  by_cases h : k = v
  · subst h; simpa using hv
  · simp [h, Ne.symm h]

/-- Adding the bit of a voice whose bit is clear sets that bit, or leaves it clear, and no other. -/
theorem getLsbD_add_bit (w : Word) (v : Fin maxVoices) (b : Bool) (hw : w.getLsbD v.val = false) (k : Nat) :
    (w + if b then 1#32 <<< v.val else 0#32).getLsbD k = (w.getLsbD k || (b && decide (k = v.val))) := by
  have hv : v.val < 32 := Nat.lt_trans v.isLt (by decide)
  cases b with
  | false => simp
  | true =>
    have hand : w &&& (1#32 <<< v.val) = 0#32 := by
      apply BitVec.eq_of_getLsbD_eq
      intro i _
      rw [BitVec.getLsbD_and, getLsbD_one_shiftLeft _ _ hv]
      by_cases h : i = v.val
      · rw [h, hw]; simp
      · simp [h]
    rw [if_pos rfl, BitVec.add_eq_or_of_and_eq_zero _ _ hand, BitVec.getLsbD_or, getLsbD_one_shiftLeft _ _ hv, Bool.true_and]

/-- Over voices listed once each, whose bits are still clear, the sum sets the bits of those that meet the predicate. -/
theorem getLsbD_foldl_add_bit (p : Fin maxVoices → Bool) (k : Nat) (l : List (Fin maxVoices)) (hl : l.Nodup) :
    ∀ w : Word, (∀ v ∈ l, w.getLsbD v.val = false) →
      (l.foldl (fun w v => w + if p v then 1#32 <<< v.val else 0#32) w).getLsbD k =
        (w.getLsbD k || l.any fun v => p v && decide (k = v.val)) := by
  induction l with
  | nil => intro w _; simp
  | cons v l ih =>
    intro w hw
    obtain ⟨hv, hl⟩ := List.nodup_cons.1 hl
    have hbit := getLsbD_add_bit w v (p v) (hw v (by simp))
    rw [List.foldl_cons, ih hl, hbit, List.any_cons, Bool.or_assoc]
    intro u hu
    have huv : u.val ≠ v.val := fun h => hv (Fin.ext h ▸ hu)
    rw [hbit, hw u (by simp [hu])]
    simp [huv]

/-- Bit `k` of a mask: some voice `k` meets the predicate (R36). -/
theorem getLsbD_voiceMask (p : Env → Bool) (vs : Vector Voice maxVoices) (k : Nat) :
    (voiceMask p vs).getLsbD k = voiceOrder.any fun v => p (vs.get v).env && decide (k = v.val) := by
  rw [voiceMask, getLsbD_foldl_add_bit (fun v => p (vs.get v).env) k voiceOrder voiceOrder_nodup _ (by simp)]
  simp

theorem getLsbD_voiceMask_voice (p : Env → Bool) (vs : Vector Voice maxVoices) (v : Fin maxVoices) :
    (voiceMask p vs).getLsbD v.val = p (vs.get v).env := by
  rw [getLsbD_voiceMask, Bool.eq_iff_iff, List.any_eq_true]
  constructor
  · rintro ⟨u, -, hu⟩
    obtain ⟨hp, huv⟩ := Bool.and_eq_true_iff.1 hu
    rwa [Fin.ext (of_decide_eq_true huv)]
  · exact fun h => ⟨v, mem_voiceOrder v, by simp [h]⟩

theorem getLsbD_voiceMask_above (p : Env → Bool) (vs : Vector Voice maxVoices) {k : Nat} (hk : 8 ≤ k) :
    (voiceMask p vs).getLsbD k = false := by
  rw [getLsbD_voiceMask, List.any_eq_false]
  intro v _
  have hv : v.val < 8 := v.isLt
  simp [show k ≠ v.val by omega]

theorem reads_activeMask (s : State) : Safety.Reads s 0x00018#17 (voiceMask (Env.isActive Config.machine) s.voices) :=
  reads_of_regOf s (r := .activeMask) rfl

theorem reads_attackMask (s : State) : Safety.Reads s 0x0001C#17 (voiceMask (Env.isInAttack Config.machine) s.voices) :=
  reads_of_regOf s (r := .attackMask) rfl

/-- Settles O11: a mask's bit `v` is the predicate of voice `v`. -/
theorem masksShowThePredicates : Obligations.MasksShowThePredicates := by
  have hactive : voiceMask (Env.isActive Config.machine) State.reset.voices = 0#32 := by decide +kernel
  have hattack : voiceMask (Env.isInAttack Config.machine) State.reset.voices = 0#32 := by decide +kernel
  refine ⟨hactive ▸ reads_activeMask State.reset, hattack ▸ reads_attackMask State.reset, fun s w => ?_, fun s => ?_⟩
  · exact ⟨exec_wr_readOnly s w (r := .activeMask) rfl rfl, exec_wr_readOnly s w (r := .attackMask) rfl rfl⟩
  · exact ⟨_, _, reads_activeMask s, reads_attackMask s,
      fun v => ⟨getLsbD_voiceMask_voice _ _ v, getLsbD_voiceMask_voice _ _ v⟩,
      fun k hk => ⟨getLsbD_voiceMask_above _ _ hk, getLsbD_voiceMask_above _ _ hk⟩⟩

end Sys2Proof.Machine
end

section
/-! PROOFS. What one instruction and one step can do, said once (spec/40_bus.md R150–R155); then the two
invariants of the output RAM (O54, O55). -/
namespace Sys2Proof.Machine

/-! ### What an instruction can do -/

/-- A decoded command runs as its instruction; a bus transaction is no command and is ILLEGAL (R128, R151). -/
theorem execCommand_cases (i : Instr) :
    (i.isCommand = true ∧ ∀ s, execCommand i s = exec i s) ∨ ∀ s, execCommand i s = .next (s.flag .illegal) := by
  cases i with
  | rd a => exact .inr fun _ => rfl
  | wr a w => exact .inr fun _ => rfl
  | _ => exact .inl ⟨rfl, fun _ => rfl⟩

/-- A write, in every state alike, runs a command, flags an event, or writes a register (R151–R155). -/
theorem exec_wr_cases (a : Addr) (w : Word) :
    (∃ i, i.isCommand = true ∧ ∀ s, exec (.wr a w) s = exec i s) ∨ (∃ e, ∀ s, exec (.wr a w) s = .next (s.flag e)) ∨
    ∃ r, ∀ s, exec (.wr a w) s = .next (s.writeReg w r) := by
  simp only [exec, execWr]
  cases regOf a with
  | none => exact .inr (.inl ⟨.buserr, fun _ => rfl⟩)
  | some r =>
    dsimp only
    cases r.access with
    | ro => exact .inr (.inl ⟨.buserr, fun _ => rfl⟩)
    | w1c => exact .inr (.inr ⟨r, fun _ => rfl⟩)
    | rw => exact .inr (.inr ⟨r, fun _ => rfl⟩)
    | wo =>
      simp only [writeCommand]
      cases decodeCommand w with
      | illegal why => exact .inr (.inl ⟨.illegal, fun _ => rfl⟩)
      | command i =>
        rcases execCommand_cases i with ⟨hi, h⟩ | h
        · exact .inl ⟨i, hi, h⟩
        · exact .inr (.inl ⟨.illegal, h⟩)

/-- A command changes STATUS and the voices alone, or is one of the three that reach the shared registers. -/
theorem exec_command_cases {i : Instr} (hi : i.isCommand = true) (s : State) : ∃ t, exec i s = .next t ∧
    (t = { s with status := t.status, voices := t.voices } ∨
      (i = .noiseReset ∧ t = noiseReset Config.machine s) ∨
      (i = .engineReset ∧ t = engineReset Config.machine s) ∨
      ∃ n ≤ blockMax, i = .render n ∧ t = render Config.machine n s) := by
  cases i with
  | noiseReset => exact ⟨_, rfl, .inr (.inl ⟨rfl, rfl⟩)⟩
  | engineReset => exact ⟨_, rfl, .inr (.inr (.inl ⟨rfl, rfl⟩))⟩
  | render n =>
    by_cases hn : n ≤ blockMax
    · exact ⟨_, execRender_next hn s, .inr (.inr (.inr ⟨n, hn, rfl, rfl⟩))⟩
    · exact ⟨s.flag .illegal, if_neg hn, .inl rfl⟩
  | rd a => cases hi
  | wr a w => cases hi
  | _ => exact ⟨_, rfl, .inl rfl⟩

/-- Only RENDER reaches the output RAM and BLOCK_LEN (R37, R60). -/
theorem exec_command_mem {i : Instr} (hi : i.isCommand = true) (s : State) : ∃ t, exec i s = .next t ∧
    ((t.mem = s.mem ∧ t.blockLen = s.blockLen) ∨ ∃ n ≤ blockMax, t = render Config.machine n s) := by
  obtain ⟨t, he, h⟩ := exec_command_cases hi s
  refine ⟨t, he, ?_⟩
  rcases h with h | ⟨-, rfl⟩ | ⟨-, rfl⟩ | ⟨n, hn, -, rfl⟩
  · exact .inl ⟨by rw [h], by rw [h]⟩
  · exact .inl ⟨rfl, rfl⟩
  · exact .inl ⟨rfl, rfl⟩
  · exact .inr ⟨n, hn, rfl⟩

theorem writeReg_mem (s : State) (w : Word) (r : Reg) :
    (s.writeReg w r).mem = s.mem ∧ (s.writeReg w r).blockLen = s.blockLen := by
  cases r <;> exact ⟨rfl, rfl⟩

theorem busRead_mem (c : Config) (s : State) (a : Addr) :
    (busRead c s a).state.mem = s.mem ∧ (busRead c s a).state.blockLen = s.blockLen := by
  unfold busRead
  cases regOf a <;> exact ⟨rfl, rfl⟩

/-- The output RAM and BLOCK_LEN are as before, or a RENDER of a legal count gave the state. -/
theorem exec_mem (i : Instr) (s : State) : ∃ t, exec i s = .next t ∧
    ((t.mem = s.mem ∧ t.blockLen = s.blockLen) ∨ ∃ n ≤ blockMax, t = render Config.machine n s) := by
  cases i with
  | rd a => exact ⟨_, rfl, .inl (busRead_mem Config.machine s a)⟩
  | wr a w =>
    rcases exec_wr_cases a w with ⟨i, hi, h⟩ | ⟨e, h⟩ | ⟨r, h⟩
    · rw [h]; exact exec_command_mem hi s
    · exact ⟨_, h s, .inl ⟨rfl, rfl⟩⟩
    · exact ⟨_, h s, .inl (writeReg_mem s w r)⟩
  | _ => exact exec_command_mem rfl s

/-- A step waits, powers on, or runs one instruction with its request taken off the list (R95, R330). -/
theorem step_cases {s t : State} (h : step s = .next t) :
    t = s ∨ (∃ u, t = powerOn u) ∨ ∃ i rest, exec i { s with pending := rest } = .next t := by
  unfold step takeInput at h
  cases hp : s.pending with
  | nil => rw [hp] at h; cases h; exact .inl rfl
  | cons x rest =>
    rw [hp] at h
    cases x with
    | powerOnReset => cases h; exact .inr (.inl ⟨_, rfl⟩)
    | bus r => exact .inr (.inr ⟨_, _, h⟩)

/-- After a step the output RAM and BLOCK_LEN are as before, or as power-on or a RENDER leaves them. -/
theorem step_mem {s t : State} (h : step s = .next t) :
    (t.mem = s.mem ∧ t.blockLen = s.blockLen) ∨ (t.mem = [] ∧ t.blockLen = 0#32) ∨
    ∃ n ≤ blockMax, ∃ u : State, u.mem = s.mem ∧ t = render Config.machine n u := by
  rcases step_cases h with rfl | ⟨u, rfl⟩ | ⟨i, rest, h⟩
  · exact .inl ⟨rfl, rfl⟩
  · exact .inr (.inl ⟨rfl, rfl⟩)
  · obtain ⟨t', ht', hmem⟩ := exec_mem i { s with pending := rest }
    cases h.symm.trans ht'
    rcases hmem with hsame | ⟨n, hn, rfl⟩
    · exact .inl hsame
    · exact .inr (.inr ⟨n, hn, { s with pending := rest }, rfl, rfl⟩)

/-! ### The output RAM after RENDER -/

/-- What every write of at most BLOCK_MAX clamped words to the head of either RAM keeps, RENDER keeps (R265, R267). -/
theorem render_mem_induct {P : Memory → Prop} {n : Nat} (hn : n ≤ blockMax) (s : State)
    (hwrite : ∀ (m : Memory) (base : Nat) (ws : List F32), base = outLBase ∨ base = outRBase → ws.length ≤ blockMax →
      P m → P (m.writeWords base (ws.map (saneWord Config.machine)))) (hs : P s.mem) :
    P (render Config.machine n s).mem := by
  rw [render_mem]
  have hloop : P (renderLoop Config.machine n s).state.mem := by rwa [renderLoop_mem]
  have hlen := renderLoop_length Config.machine n s
  cases s.mono with
  | true =>
    rw [writeBlock_mono, putChannel_mem, channelWords_machine]
    exact hwrite _ _ _ (.inl rfl) (by rwa [List.length_map, hlen]) hloop
  | false =>
    rw [writeBlock_stereo, putChannel_mem, putChannel_mem, channelWords_machine, channelWords_machine]
    exact hwrite _ _ _ (.inr rfl) (by rwa [List.length_map, hlen])
      (hwrite _ _ _ (.inl rfl) (by rwa [List.length_map, hlen]) hloop)

theorem wf_inRam_render {n : Nat} (hn : n ≤ blockMax) {s : State} (hs : s.mem.wf ∧ s.mem.inRam) :
    (render Config.machine n s).mem.wf ∧ (render Config.machine n s).mem.inRam := by
  refine render_mem_induct (P := fun m => m.wf ∧ m.inRam) hn s (fun m base ws hbase hlen hm => ?_) hs
  obtain ⟨hwf, hram⟩ := hm
  have hfit : outLBase ≤ base ∧ base + 4 * (ws.map (saneWord Config.machine)).length ≤ addrEnd := by
    simp only [blockMax, outLBase, outRBase, addrEnd, List.length_map] at *
    omega
  exact ⟨Memory.wf_writeWords _ _ _ hwf, Memory.inRam_writeWords _ _ _ hram hfit.1 hfit.2⟩

/-- Settles O54, by what a step can leave in the RAM. -/
theorem stepKeepsFormInvariant : Obligations.StepKeepsFormInvariant := by
  rintro s t ⟨hwf, hram, hlen⟩ h
  rcases step_mem h with ⟨hm, hb⟩ | ⟨hm, hb⟩ | ⟨n, hn, u, hm, rfl⟩
  · exact ⟨hm ▸ hwf, hm ▸ hram, hb ▸ hlen⟩
  · exact ⟨by rw [hm]; exact ⟨.nil, nofun⟩, by rw [hm]; exact nofun, by rw [hb]; decide⟩
  · obtain ⟨hwf', hram'⟩ := wf_inRam_render hn (s := u) ⟨hm ▸ hwf, hm ▸ hram⟩
    refine ⟨hwf', hram', ?_⟩
    rw [render_blockLen, BitVec.toNat_ofNat]
    exact (Nat.mod_le _ _).trans hn

/-! ### The samples in the output RAM -/

theorem readWord_nil (a : Nat) : Memory.readWord [] a = 0#32 := by
  simp only [Memory.readWord, Memory.readByte_nil, Memory.unlisted]
  rfl

/-- After a list of words is written, a word aligned with them is one of the list's or the word before. -/
theorem readWord_writeWords_cases (ws : List Word) {m : Memory} (hm : m.wf) {a a' : Nat} (h : a' % 4 = a % 4) :
    (m.writeWords a ws).readWord a' ∈ ws ∨ (m.writeWords a ws).readWord a' = m.readWord a' := by
  by_cases hin : a ≤ a' ∧ a' < a + 4 * ws.length
  · have hi : (a' - a) / 4 < ws.length := by omega
    have hread := Memory.readWord_writeWords_index ws m a ((a' - a) / 4) hi hm
    rw [show a + 4 * ((a' - a) / 4) = a' by omega] at hread
    exact .inl (hread ▸ List.getElem_mem hi)
  · exact .inr (Memory.readWord_writeWords_apart ws m a a' (by omega))

/-- The clamp leaves a sane sample (R267). -/
theorem saneSample_saneWord (x : F32) : Safety.saneSample (saneWord Config.machine x) = true := by
  have hone : F32.isNaN F32.f1 = false := by decide +kernel
  have hneg : F32.fneg Config.machine.clipLimit = F32.fNeg1 := by decide
  have hnegOne : F32.isNaN F32.fNeg1 = false := by decide +kernel
  unfold saneWord
  split_ifs with hnan hmute hgt hlt
  · decide +kernel
  · decide +kernel
  · decide +kernel
  · decide +kernel
  · obtain ⟨hx, -⟩ : F32.isNaN x = false ∧ F32.isInf x = false := by simpa using hnan
    rw [hneg] at hlt
    rw [Config.machine_clipLimit, F32.fgt_iff] at hgt
    rw [F32.flt_iff] at hlt
    rw [Safety.saneSample, Bool.and_eq_true_iff, F32.fle_iff, F32.fge_iff]
    exact ⟨⟨hx, hone, not_lt.1 fun h => hgt ⟨hx, hone, h⟩⟩, hx, hnegOne, not_lt.1 fun h => hlt ⟨hx, hnegOne, h⟩⟩

theorem outputSane_render {n : Nat} (hn : n ≤ blockMax) {s : State} (hwf : s.mem.wf) (hs : Safety.OutputSane s) :
    Safety.OutputSane (render Config.machine n s) := by
  refine (render_mem_induct
    (P := fun m => m.wf ∧ ∀ i < 2 * blockMax, Safety.saneSample (m.readWord (outLBase + 4 * i)) = true) hn s
    (fun m base ws hbase _ hm => ⟨Memory.wf_writeWords _ _ _ hm.1, fun i hi => ?_⟩) ⟨hwf, hs⟩).2
  have halign : (outLBase + 4 * i) % 4 = base % 4 := by simp only [outLBase, outRBase] at *; omega
  rcases readWord_writeWords_cases (ws.map (saneWord Config.machine)) hm.1 halign with h | h
  · obtain ⟨x, -, hx⟩ := List.mem_map.1 h
    rw [← hx]
    exact saneSample_saneWord x
  · rw [h]
    exact hm.2 i hi

/-- Settles O55: RENDER writes clamped words, nothing else writes the RAM, and power-on clears it. -/
theorem stepKeepsOutputSane : Obligations.StepKeepsOutputSane := by
  intro s t hform hs h
  rcases step_mem h with ⟨hm, -⟩ | ⟨hm, -⟩ | ⟨n, hn, u, hm, rfl⟩
  · unfold Safety.OutputSane
    rwa [hm]
  · intro i _
    rw [hm, readWord_nil]
    decide +kernel
  · refine outputSane_render hn (hm ▸ hform.memory) ?_
    unfold Safety.OutputSane
    rwa [hm]

end Sys2Proof.Machine
end

section
/-! PROOFS. The registers the commands keep (O31): the parameters of every voice, and the registers all voices share
(spec/10_state.md R33–R41, R50, R55–R57). -/
namespace Sys2Proof.Machine
open Safety (SameVoiceParameters)

/-! ### The parameters of a voice -/

/-- The parameters of an oscillator are kept (R55–R57). -/
def Osc.SameParameters (x y : Osc) : Prop :=
  y.period = x.period ∧ y.amplitude = x.amplitude ∧ y.modulation = x.modulation

/-- The parameters of an envelope are kept (R50). -/
def Env.SameParameters (e f : Env) : Prop :=
  f.attack = e.attack ∧ f.decay = e.decay ∧ f.sustain = e.sustain ∧ f.release = e.release

theorem Osc.SameParameters.refl (x : Osc) : x.SameParameters x := ⟨rfl, rfl, rfl⟩

theorem sameVoiceParameters_iff (x y : Voice) :
    SameVoiceParameters x y ↔ x.env.SameParameters y.env ∧ ∀ o, (x.oscOf o).SameParameters (y.oscOf o) := by
  constructor
  · rintro ⟨ha, hd, hs, hr, hp, hamp, hmod⟩
    exact ⟨⟨ha, hd, hs, hr⟩, fun o => ⟨hp o, hamp o, hmod o⟩⟩
  · rintro ⟨⟨ha, hd, hs, hr⟩, hosc⟩
    exact ⟨ha, hd, hs, hr, fun o => (hosc o).1, fun o => (hosc o).2.1, fun o => (hosc o).2.2⟩

theorem sameVoiceParameters_refl (x : Voice) : SameVoiceParameters x x :=
  (sameVoiceParameters_iff _ _).2 ⟨⟨rfl, rfl, rfl, rfl⟩, fun _ => .refl _⟩

theorem sameVoiceParameters_trans {x y z : Voice} (h : SameVoiceParameters x y) (k : SameVoiceParameters y z) :
    SameVoiceParameters x z where
  attack := k.attack.trans h.attack
  decay := k.decay.trans h.decay
  sustain := k.sustain.trans h.sustain
  release := k.release.trans h.release
  period o := (k.period o).trans (h.period o)
  amplitude o := (k.amplitude o).trans (h.amplitude o)
  modulation o := (k.modulation o).trans (h.modulation o)

theorem Osc.clear_sameParameters (x : Osc) : x.SameParameters x.clear := ⟨rfl, rfl, rfl⟩

theorem Osc.syncTo_sameParameters (c : Config) (x y : Osc) (w : F32) : x.SameParameters (x.syncTo c y w) := ⟨rfl, rfl, rfl⟩

theorem Env.attackFrom_sameParameters (c : Config) (e : Env) : e.SameParameters (e.attackFrom c) := ⟨rfl, rfl, rfl, rfl⟩

theorem Env.releaseFrom_sameParameters (e : Env) : e.SameParameters e.releaseFrom := ⟨rfl, rfl, rfl, rfl⟩

theorem Env.clear_sameParameters (e : Env) : e.SameParameters e.clear := ⟨rfl, rfl, rfl, rfl⟩

theorem Osc.step_sameParameters (c : Config) (x : Osc) : x.SameParameters (x.step c).osc := by
  unfold Osc.step
  split
  · exact ⟨rfl, rfl, rfl⟩
  · unfold Osc.continue Osc.reflect
    split <;> exact ⟨rfl, rfl, rfl⟩

theorem Env.step_sameParameters (c : Config) (e : Env) : e.SameParameters (e.step c) := by
  unfold Env.step
  split <;> exact ⟨rfl, rfl, rfl, rfl⟩

theorem Voice.turn_sameParameters (c : Config) (z : F32) (x : Voice) : SameVoiceParameters x (x.turn c z) := by
  unfold Voice.turn
  split
  · refine (sameVoiceParameters_iff _ _).2 ⟨Env.step_sameParameters c x.env, fun o => ?_⟩
    rw [Voice.oscOf_step]
    exact Osc.step_sameParameters c _
  · exact sameVoiceParameters_refl x

theorem Voice.retire_sameParameters (c : Config) (x : Voice) : SameVoiceParameters x (x.retire c) := by
  unfold Voice.retire
  split
  · exact sameVoiceParameters_refl x
  · exact (sameVoiceParameters_iff _ _).2 ⟨Env.clear_sameParameters _, fun _ => .refl _⟩

theorem Voice.panned_sameParameters (c : Config) (x : Voice) : SameVoiceParameters x (x.panned c) :=
  (sameVoiceParameters_iff _ _).2 ⟨⟨rfl, rfl, rfl, rfl⟩, fun _ => .refl _⟩

theorem Voice.hardZero_sameParameters (c : Config) (x : Voice) : SameVoiceParameters x (x.hardZero c) := by
  refine (sameVoiceParameters_iff _ _).2 ⟨⟨rfl, rfl, rfl, rfl⟩, fun o => ?_⟩
  rw [Voice.oscOf_hardZero]
  exact Osc.clear_sameParameters _

theorem Voice.engineReset_sameParameters (c : Config) (x : Voice) : SameVoiceParameters x (x.engineReset c) :=
  sameVoiceParameters_trans (Voice.hardZero_sameParameters c x)
    ((sameVoiceParameters_iff _ _).2 ⟨Env.clear_sameParameters _, fun _ => .refl _⟩)

theorem Voice.setOsc_sameParameters {x : Voice} {o : Fin oscPerVoice} {y : Osc} (h : (x.oscOf o).SameParameters y) :
    SameVoiceParameters x (x.setOsc o y) := by
  refine (sameVoiceParameters_iff _ _).2 ⟨⟨rfl, rfl, rfl, rfl⟩, fun p => ?_⟩
  by_cases hp : p = o
  · rw [hp, Voice.oscOf_setOsc_same]; exact h
  · rw [Voice.oscOf_setOsc_ne _ _ hp]; exact .refl _

/-! ### The parameters of every voice, over a command -/

theorem setVoice_sameVoiceParameters {s s' : State} {v : Fin maxVoices} {x : Voice} (hs : s'.voices = s.voices)
    (h : SameVoiceParameters (s.voice v) x) (u : Fin maxVoices) :
    SameVoiceParameters (s.voice u) ((s'.setVoice v x).voice u) := by
  by_cases hu : u = v
  · rw [hu, State.voice_setVoice_same]; exact h
  · rw [State.voice_setVoice_ne _ _ hu, show s'.voice u = s.voice u from congrArg (fun vs => vs.get u) hs]
    exact sameVoiceParameters_refl _

theorem setEnv_sameVoiceParameters {s s' : State} {v : Fin maxVoices} {e : Env} (hs : s'.voices = s.voices)
    (h : (s.voice v).env.SameParameters e) (u : Fin maxVoices) :
    SameVoiceParameters (s.voice u) ((s'.setEnv v e).voice u) := by
  have hv : s'.voice v = s.voice v := congrArg (fun vs => vs.get v) hs
  refine setVoice_sameVoiceParameters hs ((sameVoiceParameters_iff _ _).2 ⟨h, fun o => ?_⟩) u
  show ((s.voice v).oscOf o).SameParameters ((s'.voice v).oscOf o)
  rw [hv]
  exact .refl _

theorem render_sameVoiceParameters (c : Config) (n : Nat) (s : State) (u : Fin maxVoices) :
    SameVoiceParameters (s.voice u) ((render c n s).voice u) := by
  rw [render_voice]
  refine sameVoiceParameters_trans ?_ (Voice.retire_sameParameters c _)
  refine renderLoop_induct (P := fun t => SameVoiceParameters (s.voice u) (t.voice u)) c (fun t ht => ?_) n s
    (sameVoiceParameters_refl _)
  rw [renderSample_voice]
  exact sameVoiceParameters_trans ht (Voice.turn_sameParameters c _ _)

/-- No command writes a parameter of a voice (R50, R55–R57). -/
theorem exec_command_sameVoiceParameters {i : Instr} (hi : i.isCommand = true) {s t : State} (h : exec i s = .next t)
    (u : Fin maxVoices) : SameVoiceParameters (s.voice u) (t.voice u) := by
  cases i with
  | nop => cases h; exact sameVoiceParameters_refl _
  | engineReset => cases h; rw [State.voice_engineReset]; exact Voice.engineReset_sameParameters _ _
  | noiseReset => cases h; exact sameVoiceParameters_refl _
  | envAttack v => cases h; exact setEnv_sameVoiceParameters rfl (Env.attackFrom_sameParameters _ _) u
  | envRelease v => cases h; exact setEnv_sameVoiceParameters rfl (Env.releaseFrom_sameParameters _) u
  | envReset v => cases h; exact setEnv_sameVoiceParameters rfl (Env.clear_sameParameters _) u
  | oscReset v o =>
    cases h; exact setVoice_sameVoiceParameters rfl (Voice.setOsc_sameParameters (Osc.clear_sameParameters _)) u
  | oscSync v o =>
    cases h; exact setVoice_sameVoiceParameters rfl (Voice.setOsc_sameParameters (Osc.syncTo_sameParameters _ _ _ _)) u
  | voiceReset v => cases h; exact setVoice_sameVoiceParameters rfl (Voice.hardZero_sameParameters _ _) u
  | voicePan v => cases h; exact setVoice_sameVoiceParameters rfl (Voice.panned_sameParameters _ _) u
  | render n =>
    by_cases hn : n ≤ blockMax
    · cases h.symm.trans (execRender_next hn s); exact render_sameVoiceParameters _ n s u
    · cases h.symm.trans (if_neg hn); exact sameVoiceParameters_refl _
  | rd a => cases hi
  | wr a w => cases hi

/-- Settles O31: the voices' parameters, then the shared registers in each case of what a command can do. -/
theorem commandsKeepParameters : Obligations.CommandsKeepParameters := by
  intro i s hi
  obtain ⟨t, he, h⟩ := exec_command_cases hi s
  have hvoices := exec_command_sameVoiceParameters hi he
  refine ⟨t, he, ?_⟩
  rcases h with h | ⟨rfl, rfl⟩ | ⟨rfl, rfl⟩ | ⟨n, -, rfl, rfl⟩
  · rw [h] at hvoices ⊢
    exact ⟨⟨rfl, rfl, rfl, rfl, rfl, hvoices⟩, rfl, rfl, fun _ => ⟨fun _ => rfl, rfl, fun _ => ⟨rfl, fun _ => rfl⟩⟩⟩
  · exact ⟨⟨rfl, rfl, rfl, rfl, rfl, hvoices⟩, rfl, rfl,
      fun _ => ⟨fun _ => rfl, rfl, fun _ => ⟨rfl, fun hne => absurd rfl hne⟩⟩⟩
  · exact ⟨⟨rfl, rfl, rfl, rfl, rfl, hvoices⟩, rfl, rfl, fun _ => ⟨fun _ => rfl, rfl, fun hne => absurd rfl hne⟩⟩
  · rw [render_eq] at hvoices ⊢
    exact ⟨⟨rfl, rfl, rfl, rfl, rfl, hvoices⟩, rfl, rfl, fun hne => absurd rfl (hne n)⟩

end Sys2Proof.Machine
end

section
/-! PROOFS. ENV_STATE is informational (O36, spec/10_state.md R48): whatever an instruction computes is the same from two states
that differ in ENV_STATE alone. -/
namespace Sys2Proof.Machine
open Safety (erasePhases)

/-! ### Functions that do not see ENV_STATE -/

/-- ENV_STATE of a voice made IDLE. -/
def Voice.erasePhase (x : Voice) : Voice := { x with env := { x.env with phase := .idle } }

theorem erasePhases_voices (s : State) : (erasePhases s).voices = s.voices.map Voice.erasePhase := rfl

@[simp] theorem voice_erasePhases (s : State) (v : Fin maxVoices) : (erasePhases s).voice v = (s.voice v).erasePhase :=
  vector_get_map _ _ _

@[simp] theorem erasePhases_erasePhases (s : State) : erasePhases (erasePhases s) = erasePhases s :=
  State.ext_voices rfl rfl rfl rfl rfl rfl rfl rfl rfl (fun v => by simp only [voice_erasePhases]; rfl) rfl rfl rfl

/-- The function has one value at states that differ in ENV_STATE alone. -/
def PhaseBlind {α : Type} (f : State → α) : Prop := ∀ s, f (erasePhases s) = f s

/-- From states that differ in ENV_STATE alone the transformer leads to such states. -/
def PhaseBlindStep (f : State → State) : Prop := ∀ s, erasePhases (f (erasePhases s)) = erasePhases (f s)

/-- The same of a transformer of one voice. -/
def Voice.PhaseBlindStep (g : Voice → Voice) : Prop := ∀ x : Voice, (g x.erasePhase).erasePhase = (g x).erasePhase

/-- Through an intermediate state that is known up to ENV_STATE only. -/
theorem PhaseBlind.comp {α : Type} {f : State → α} {g : State → State} (hf : PhaseBlind f) (hg : PhaseBlindStep g) :
    PhaseBlind fun s => f (g s) := by
  intro s
  show f (g (erasePhases s)) = f (g s)
  rw [← hf, hg s, hf]

theorem PhaseBlindStep.comp {f g : State → State} (hf : PhaseBlindStep f) (hg : PhaseBlindStep g) :
    PhaseBlindStep fun s => f (g s) :=
  PhaseBlind.comp (f := fun s => erasePhases (f s)) hf hg

/-- A transformer that leaves the voices alone and does not read them. -/
theorem PhaseBlindStep.of_commutes {f : State → State} (h : ∀ s, erasePhases (f s) = f (erasePhases s)) :
    PhaseBlindStep f := by
  intro s
  rw [h, h, erasePhases_erasePhases]

theorem erasePhases_setVoice (s : State) (v : Fin maxVoices) (x : Voice) :
    erasePhases (s.setVoice v x) = (erasePhases s).setVoice v x.erasePhase := by
  refine State.ext_voices rfl rfl rfl rfl rfl rfl rfl rfl rfl (fun u => ?_) rfl rfl rfl
  by_cases hu : u = v
  · subst hu; simp
  · simp [State.voice_setVoice_ne _ _ hu]

/-- Replacing one voice by its image, which may depend on the shared registers. -/
theorem PhaseBlindStep.updateVoice {g : State → Voice → Voice} (v : Fin maxVoices) (hg : ∀ x, PhaseBlind fun s => g s x)
    (hv : ∀ s, Voice.PhaseBlindStep (g s)) : PhaseBlindStep fun s => s.setVoice v (g s (s.voice v)) := by
  intro s
  have hs : g (erasePhases s) (s.voice v).erasePhase = g s (s.voice v).erasePhase := hg _ s
  rw [erasePhases_setVoice, erasePhases_setVoice, erasePhases_erasePhases, voice_erasePhases, hs, hv s]

theorem PhaseBlindStep.mapVoice {g : Voice → Voice} (v : Fin maxVoices) (hg : Voice.PhaseBlindStep g) :
    PhaseBlindStep fun s => s.setVoice v (g (s.voice v)) :=
  .updateVoice (g := fun _ => g) v (fun _ _ => rfl) fun _ => hg

/-- Flagging an event whose cause does not see ENV_STATE. -/
theorem PhaseBlindStep.flagIf {f : State → State} (hf : PhaseBlindStep f) (e : Event) {b : State → Bool} (hb : PhaseBlind b) :
    PhaseBlindStep fun s => (f s).flagIf e (b s) := by
  intro s
  show (erasePhases (f (erasePhases s))).flagIf e (b (erasePhases s)) = (erasePhases (f s)).flagIf e (b s)
  rw [hf s, hb s]

/-- The end of a read: the word returned joins the list. -/
theorem PhaseBlindStep.appendRead {f : State → State} (hf : PhaseBlindStep f) {w : State → Word} (hw : PhaseBlind w) :
    PhaseBlindStep fun s => { f s with reads := (f s).reads ++ [w s] } := by
  intro s
  show { erasePhases (f (erasePhases s)) with reads := (erasePhases (f (erasePhases s))).reads ++ [w (erasePhases s)] } =
    { erasePhases (f s) with reads := (erasePhases (f s)).reads ++ [w s] }
  rw [hf s, hw s]

/-! ### One sample -/

/-- The predicates of an envelope read its LEVEL and TARGET alone (R183, R184). -/
@[simp] theorem isActive_erasePhase (c : Config) (x : Voice) : x.erasePhase.env.isActive c = x.env.isActive c := rfl

@[simp] theorem isInAttack_erasePhase (c : Config) (x : Voice) : x.erasePhase.env.isInAttack c = x.env.isInAttack c := rfl

theorem Env.step_setPhase (c : Config) (e : Env) (p q : EnvPhase) :
    { Env.step c { e with phase := p } with phase := q } = { e.step c with phase := q } := by
  have hends : Env.attackEnds c { e with phase := p } = e.attackEnds c := rfl
  unfold Env.step
  rw [hends]
  split <;> rfl

theorem Voice.phaseBlindStep_step (c : Config) (z : F32) : Voice.PhaseBlindStep fun x => (x.step c z).voice := fun x =>
  congrArg (fun e => { (x.step c z).voice with env := e }) (Env.step_setPhase c x.env .idle .idle)

@[simp] theorem Voice.step_out_erasePhase (c : Config) (z : F32) (x : Voice) :
    (x.erasePhase.step c z).out = (x.step c z).out := by
  have hlevel : (x.erasePhase.env.step c).level = (x.env.step c).level := by
    rw [Env.step_level, Env.step_level]
    rfl
  exact congrArg (F32.fmul _) hlevel

@[simp] theorem Voice.step_plow_erasePhase (c : Config) (z : F32) (x : Voice) :
    (x.erasePhase.step c z).plow = (x.step c z).plow := rfl

theorem Voice.phaseBlindStep_turn (c : Config) (z : F32) : Voice.PhaseBlindStep (Voice.turn c z) := by
  intro x
  unfold Voice.turn
  rw [isActive_erasePhase]
  split
  · exact Voice.phaseBlindStep_step c z x
  · rfl

theorem mix_erasePhase (c : Config) (z : F32) (vs : Vector Voice maxVoices) :
    (mix c z (vs.map Voice.erasePhase)).left = (mix c z vs).left ∧
    (mix c z (vs.map Voice.erasePhase)).right = (mix c z vs).right ∧
    (mix c z (vs.map Voice.erasePhase)).plow = (mix c z vs).plow := by
  have hpanL (x : Voice) : x.erasePhase.panL = x.panL := rfl
  have hpanR (x : Voice) : x.erasePhase.panR = x.panR := rfl
  obtain ⟨hl, hr, hp⟩ := mix_sums c z vs
  obtain ⟨hl', hr', hp'⟩ := mix_sums c z (vs.map Voice.erasePhase)
  rw [hl, hr, hp, hl', hr', hp']
  simp only [vector_get_map, isActive_erasePhase, Voice.step_out_erasePhase, Voice.step_plow_erasePhase, hpanL, hpanR, and_self]

theorem mix_voices_erasePhase (c : Config) (z : F32) (vs : Vector Voice maxVoices) :
    (mix c z (vs.map Voice.erasePhase)).voices.map Voice.erasePhase = (mix c z vs).voices.map Voice.erasePhase :=
  vector_ext_get fun u => by
    simp only [vector_get_map, mix_get]
    exact Voice.phaseBlindStep_turn c z _

theorem renderSample_frame_phaseBlind (c : Config) : PhaseBlind fun s => (renderSample c s).frame := by
  intro s
  obtain ⟨hl, hr, -⟩ := mix_erasePhase c (F32.fmul (noiseSample (noiseAdvance c s.noiseState)) s.noiseMix) s.voices
  exact congrArg₂ Frame.mk (congrArg (fun x => F32.fmul x _) hl) (congrArg (fun x => F32.fmul x _) hr)

/-- The state after one sample, up to ENV_STATE: the mix enters by its voices and its PLOW flag alone. -/
theorem erasePhases_renderSample (c : Config) (s : State) {m : MixResult}
    (hm : m = mix c (F32.fmul (noiseSample (noiseAdvance c s.noiseState)) s.noiseMix) s.voices) :
    erasePhases (renderSample c s).state = { s with
      status := s.status ||| Event.plow.maskIf m.plow
      noiseState := noiseAdvance c s.noiseState
      voices := m.voices.map Voice.erasePhase
      outGain := onePole s.outMul s.outGain s.outTarget } := by
  rw [hm]
  rfl

theorem renderSample_state_phaseBlind (c : Config) : PhaseBlindStep fun s => (renderSample c s).state := by
  intro s
  let z := F32.fmul (noiseSample (noiseAdvance c s.noiseState)) s.noiseMix
  obtain ⟨-, -, hplow⟩ := mix_erasePhase c z s.voices
  have hvoices := mix_voices_erasePhase c z s.voices
  rw [erasePhases_renderSample c s (m := mix c z s.voices) rfl,
    erasePhases_renderSample c (erasePhases s) (m := mix c z (s.voices.map Voice.erasePhase)) rfl, hplow, hvoices]
  rfl

/-! ### RENDER -/

theorem renderLoop_state_phaseBlind (c : Config) : ∀ n, PhaseBlindStep fun s => (renderLoop c n s).state
  | 0 => erasePhases_erasePhases
  | n + 1 => (renderLoop_state_phaseBlind c n).comp (renderSample_state_phaseBlind c)

theorem renderLoop_frames_phaseBlind (c : Config) : ∀ n, PhaseBlind fun s => (renderLoop c n s).frames
  | 0 => fun _ => rfl
  | n + 1 => fun s => congrArg₂ List.cons (renderSample_frame_phaseBlind c s)
      (((renderLoop_frames_phaseBlind c n).comp (renderSample_state_phaseBlind c)) s)

theorem writeBlock_phaseBlind (c : Config) (mono : Bool) (fs : List Frame) : PhaseBlindStep (writeBlock c mono fs) :=
  .of_commutes fun s => by cases mono <;> rfl

theorem Voice.phaseBlindStep_retire (c : Config) : Voice.PhaseBlindStep (Voice.retire c) := by
  intro x
  unfold Voice.retire
  rw [isActive_erasePhase]
  split <;> rfl

theorem retire_phaseBlind (c : Config) : PhaseBlindStep (retire c) := fun s =>
  State.ext_voices rfl rfl rfl rfl rfl rfl rfl rfl rfl
    (fun v => by simp only [voice_erasePhases, State.voice_retire]; exact Voice.phaseBlindStep_retire c _) rfl rfl rfl

/-- RENDER after its loop: the output write, the retirement, and BLOCK_LEN (R265–R269). -/
def finishRender (c : Config) (n : Nat) (mono : Bool) (fs : List Frame) (s : State) : State :=
  { retire c (writeBlock c mono fs s) with blockLen := BitVec.ofNat 32 n }

theorem render_eq_finishRender (c : Config) (n : Nat) (s : State) :
    render c n s = finishRender c n s.mono (renderLoop c n s).frames (renderLoop c n s).state := rfl

theorem finishRender_phaseBlind (c : Config) (n : Nat) (mono : Bool) (fs : List Frame) :
    PhaseBlindStep (finishRender c n mono fs) :=
  PhaseBlindStep.comp (f := fun s => { s with blockLen := BitVec.ofNat 32 n }) (.of_commutes fun _ => rfl)
    ((retire_phaseBlind c).comp (writeBlock_phaseBlind c mono fs))

theorem render_phaseBlind (c : Config) (n : Nat) : PhaseBlindStep (render c n) := by
  intro s
  have hframes : (renderLoop c n (erasePhases s)).frames = (renderLoop c n s).frames := renderLoop_frames_phaseBlind c n s
  have hmono : (erasePhases s).mono = s.mono := rfl
  rw [render_eq_finishRender, render_eq_finishRender, hframes, hmono]
  exact ((finishRender_phaseBlind c n s.mono (renderLoop c n s).frames).comp (renderLoop_state_phaseBlind c n)) s

/-! ### The other commands -/

theorem engineReset_phaseBlind (c : Config) : PhaseBlindStep (engineReset c) := fun s =>
  State.ext_voices rfl rfl rfl rfl rfl rfl rfl rfl rfl
    (fun v => by simp only [voice_erasePhases, State.voice_engineReset]; rfl) rfl rfl rfl

theorem flag_phaseBlind (e : Event) : PhaseBlindStep fun s => s.flag e := .of_commutes fun _ => rfl

/-- HAZ of a reset is flagged on LEVEL alone, before the voice is replaced (R188, R245). -/
theorem flagHaz_phaseBlind (c : Config) (v : Fin maxVoices) :
    PhaseBlindStep fun s => s.flagIf .haz ((s.voice v).env.isActive c) :=
  PhaseBlindStep.flagIf (f := fun s => s) erasePhases_erasePhases .haz
    fun s => by rw [voice_erasePhases, isActive_erasePhase]

/-- A command's effect does not depend on ENV_STATE, up to ENV_STATE itself. -/
theorem exec_command_phaseBlind {i : Instr} (hi : i.isCommand = true) :
    ∃ f, PhaseBlindStep f ∧ ∀ s, exec i s = .next (f s) := by
  cases i with
  | nop => exact ⟨fun s => s, erasePhases_erasePhases, fun _ => rfl⟩
  | engineReset => exact ⟨_, engineReset_phaseBlind _, fun _ => rfl⟩
  | noiseReset => exact ⟨noiseReset Config.machine, .of_commutes fun _ => rfl, fun _ => rfl⟩
  | envAttack v =>
    exact ⟨_, .mapVoice (g := fun x => { x with env := x.env.attackFrom Config.machine }) v fun _ => rfl, fun _ => rfl⟩
  | envRelease v => exact ⟨_, .mapVoice (g := fun x => { x with env := x.env.releaseFrom }) v fun _ => rfl, fun _ => rfl⟩
  | envReset v =>
    have hclear : PhaseBlindStep fun s => s.setVoice v { s.voice v with env := (s.voice v).env.clear } :=
      .mapVoice (g := fun x => { x with env := x.env.clear }) v fun _ => rfl
    exact ⟨_, hclear.comp (flagHaz_phaseBlind Config.machine v), fun _ => rfl⟩
  | oscReset v o => exact ⟨_, .mapVoice (g := fun x => x.setOsc o (x.oscOf o).clear) v fun _ => rfl, fun _ => rfl⟩
  | oscSync v o =>
    exact ⟨_, .updateVoice
      (g := fun s x => x.setOsc o ((x.oscOf o).syncTo Config.machine (x.oscOf (companionOf o)) s.arg)) v
      (fun _ _ => rfl) (fun _ _ => rfl), fun _ => rfl⟩
  | voiceReset v =>
    have hzero : PhaseBlindStep fun s => s.setVoice v ((s.voice v).hardZero Config.machine) :=
      .mapVoice (g := Voice.hardZero Config.machine) v fun _ => rfl
    exact ⟨_, hzero.comp (flagHaz_phaseBlind Config.machine v), fun _ => rfl⟩
  | voicePan v => exact ⟨_, .mapVoice (g := Voice.panned Config.machine) v fun _ => rfl, fun _ => rfl⟩
  | render n =>
    by_cases hn : n ≤ blockMax
    · exact ⟨_, render_phaseBlind Config.machine n, execRender_next hn⟩
    · exact ⟨_, flag_phaseBlind .illegal, fun _ => if_neg hn⟩
  | rd a => cases hi
  | wr a w => cases hi

/-! ### The bus -/

theorem writeReg_phaseBlind (w : Word) (r : Reg) : PhaseBlindStep fun s => s.writeReg w r := by
  cases r with
  | voice v r =>
    exact .mapVoice (g := fun x => x.writeReg w r) v fun x => by cases r <;> rfl
  | _ => exact .of_commutes fun _ => rfl

theorem voiceMask_phaseBlind {p : Env → Bool} (hp : ∀ x : Voice, p x.erasePhase.env = p x.env) :
    PhaseBlind fun s => voiceMask p s.voices := by
  intro s
  simp only [erasePhases_voices, voiceMask, vector_get_map, hp]

theorem Voice.readReg_erasePhase (x : Voice) {r : VoiceReg} (hr : r ≠ .envState) : x.erasePhase.readReg r = x.readReg r := by
  cases r with
  | envState => exact absurd rfl hr
  | _ => rfl

/-- Every register but ENV_STATE reads the same. -/
theorem readReg_phaseBlind (c : Config) {r : Reg} (hr : ∀ v, r ≠ .voice v .envState) : PhaseBlind fun s => s.readReg c r := by
  cases r with
  | activeMask => exact voiceMask_phaseBlind (isActive_erasePhase c)
  | attackMask => exact voiceMask_phaseBlind (isInAttack_erasePhase c)
  | voice v r =>
    intro s
    simp only [State.readReg, voice_erasePhases]
    exact Voice.readReg_erasePhase _ fun h => hr v (by rw [h])
  | _ => exact fun _ => rfl

theorem exec_rd_phaseBlind {a : Addr} (ha : ∀ v, regOf a ≠ some (.voice v .envState)) :
    ∃ f, PhaseBlindStep f ∧ ∀ s, exec (.rd a) s = .next (f s) := by
  cases h : regOf a with
  | none =>
    exact ⟨_, (flag_phaseBlind .buserr).appendRead (w := fun _ => 0#32) (fun _ => rfl), fun s => by
      simp only [exec, execRd, busRead, h]⟩
  | some r =>
    exact ⟨_, PhaseBlindStep.appendRead (f := fun s => s) erasePhases_erasePhases
      (readReg_phaseBlind Config.machine fun v hv => ha v (hv ▸ h)), fun s => reads_of_regOf s h⟩

/-- Every instruction but a read of ENV_STATE is a transformer that does not see it. -/
theorem exec_phaseBlind {i : Instr} (hi : ∀ v, i ≠ .rd (Safety.voiceAddr v 0x10)) :
    ∃ f, PhaseBlindStep f ∧ ∀ s, exec i s = .next (f s) := by
  cases i with
  | rd a => exact exec_rd_phaseBlind fun v h => hi v (congrArg Instr.rd (eq_voiceAddr_of_regOf h))
  | wr a w =>
    rcases exec_wr_cases a w with ⟨j, hj, h⟩ | ⟨e, h⟩ | ⟨r, h⟩
    · obtain ⟨f, hf, he⟩ := exec_command_phaseBlind hj
      exact ⟨f, hf, fun s => (h s).trans (he s)⟩
    · exact ⟨_, flag_phaseBlind e, h⟩
    · exact ⟨_, writeReg_phaseBlind w r, h⟩
  | _ => exact exec_command_phaseBlind rfl

/-- Settles O36: an instruction's effect is one transformer, and it does not see ENV_STATE. -/
theorem envStateIsInformational : Obligations.EnvStateIsInformational := by
  intro i s hi
  obtain ⟨f, hf, he⟩ := exec_phaseBlind hi
  exact ⟨f s, f (erasePhases s), he s, he _, (hf s).symm⟩

end Sys2Proof.Machine
end

section
/-! PROOFS. The address map has an inverse, and the address sets of the statements are what it says: an address names nothing
exactly if it is misaligned or reserved, and names something read-only exactly if `Safety.readOnlyAddress` has it
(spec/20_memory.md R82–R87, spec/40_bus.md R152); then the map and the output RAMs (O9, O13). -/
namespace Sys2Proof.Machine

/-! ### The map and its inverse -/

theorem addrNat_bounds (r : Reg) : r.addrNat < 2 ^ 17 ∧ r.addrNat % 4 = 0 := by
  cases r with
  | voice v r =>
    have hv : v.val < 8 := v.isLt
    obtain ⟨hlt, h4⟩ := voiceReg_offset_bounds r
    simp only [Reg.addrNat, voiceBase]
    omega
  | outL i =>
    have hi : i.val < 8192 := i.isLt
    simp only [Reg.addrNat, outLBase]
    omega
  | outR i =>
    have hi : i.val < 8192 := i.isLt
    simp only [Reg.addrNat, outRBase]
    omega
  | _ => decide

@[simp] theorem toNat_addrOf (r : Reg) : (addrOf r).toNat = r.addrNat := Nat.mod_eq_of_lt (addrNat_bounds r).1

/-- From OUT_L up every word address names a word of one of the RAMs (R86). -/
theorem regOf_of_ram {a : Addr} (h4 : a.toNat % 4 = 0) (hram : outLBase ≤ a.toNat) :
    regOf a = some (if a.toNat < outRBase then .outL (Fin.ofNat blockMax ((a.toNat - outLBase) / 4))
      else .outR (Fin.ofNat blockMax ((a.toNat - outRBase) / 4))) := by
  simp only [outLBase] at hram
  simp only [regOf, (aligned_iff a).2 h4, Bool.not_true, Bool.false_eq_true, if_false]
  rw [if_neg (by simp only [voiceBase]; omega), if_neg (by simp only [voiceBase, maxVoices]; omega),
    if_neg (by simp only [outLBase]; omega), apply_ite some]

theorem regOf_outL (i : Fin blockMax) : regOf (addrOf (.outL i)) = some (.outL i) := by
  have hi : i.val < 8192 := i.isLt
  have h4 := (toNat_addrOf (.outL i)).symm ▸ (addrNat_bounds (.outL i)).2
  rw [regOf_of_ram h4 (by simp [Reg.addrNat]), if_pos (by simp only [toNat_addrOf, Reg.addrNat, outLBase, outRBase]; omega)]
  simp [Reg.addrNat]

theorem regOf_outR (i : Fin blockMax) : regOf (addrOf (.outR i)) = some (.outR i) := by
  have h4 := (toNat_addrOf (.outR i)).symm ▸ (addrNat_bounds (.outR i)).2
  rw [regOf_of_ram h4 (by simp only [toNat_addrOf, Reg.addrNat, outLBase, outRBase]; omega), if_neg (by simp [Reg.addrNat])]
  simp [Reg.addrNat]

/-- The address of a register or RAM word names it (R84–R86). -/
theorem regOf_addrOf (r : Reg) : regOf (addrOf r) = some r := by
  cases r with
  | voice v r => exact regOf_voiceAddr v r
  | outL i => exact regOf_outL i
  | outR i => exact regOf_outR i
  | _ => rfl

theorem addrNat_of_globalAt {n : Nat} {r : Reg} (h : globalAt n = some r) : r.addrNat = n := by
  unfold globalAt at h
  split at h <;> cases h <;> rfl

/-- What an address names has that address (R84–R86). -/
theorem addrNat_of_regOf {a : Addr} {r : Reg} (h : regOf a = some r) : r.addrNat = a.toNat := by
  have ha : a.toNat < 2 ^ 17 := a.isLt
  unfold regOf at h
  split_ifs at h with hal hglobal hvoice hreserved hleft
  · exact addrNat_of_globalAt h
  · obtain ⟨q, hq, rfl⟩ := Option.map_eq_some_iff.1 h
    have hoff := offset_of_voiceAt hq
    simp only [Reg.addrNat, hoff, Fin.val_ofNat, voiceBase, maxVoices] at *
    omega
  all_goals
    have h4 := (aligned_iff a).1 (by simpa using hal)
    cases h
    simp only [Reg.addrNat, Fin.val_ofNat, outLBase, outRBase, blockMax] at *
    omega

/-- No other address names a register or RAM word (R84–R86). -/
theorem addrOf_of_regOf {a : Addr} {r : Reg} (h : regOf a = some r) : addrOf r = a := by
  rw [addrOf, addrNat_of_regOf h]
  simp

/-- An address that is not `q`'s does not name `q`. -/
theorem regOf_ne {a : Addr} {r q : Reg} (h : regOf a = some r) (ha : a ≠ addrOf q) : r ≠ q :=
  fun hrq => ha (hrq ▸ (addrOf_of_regOf h).symm)

/-- Settles O9: `addrOf` and `regOf` invert each other. -/
theorem addressMapInverse : Obligations.AddressMapInverse := ⟨regOf_addrOf, fun _ _ => addrOf_of_regOf⟩

/-- Settles O13: the word at an index of a RAM is the RAM's register there, whose four bytes a read puts together. -/
theorem outputRamReads : Obligations.OutputRamReads :=
  fun s i => ⟨reads_of_regOf s (regOf_addrOf (.outL i)), reads_of_regOf s (regOf_addrOf (.outR i))⟩

/-! ### The addresses that name nothing, and those that take no write -/

theorem globalAt_eq_none_iff {n : Nat} (h4 : n % 4 = 0) : globalAt n = none ↔ 0x34 ≤ n := by
  unfold globalAt
  split
  case h_14 =>
    simp only [imp_false, true_iff] at *
    omega
  all_goals simp

/-- The slots of a voice block that R85 leaves free. -/
theorem voiceAt_eq_none_iff {n : Nat} (hn : n < 0x100) (h4 : n % 4 = 0) : voiceAt n = none ↔
    (0x14 ≤ n ∧ n < 0x20) ∨ (0x3C ≤ n ∧ n < 0x40) ∨ (0x4C ≤ n ∧ n < 0x50) ∨ (0x68 ≤ n ∧ n < 0x80) ∨
      (0x8C ≤ n ∧ n < 0x90) ∨ 0xA8 ≤ n := by
  revert n
  decide +kernel

/-- An address names nothing exactly if it is misaligned or reserved (R83, R87). -/
theorem regOf_eq_none_iff (a : Addr) : regOf a = none ↔ a.toNat % 4 ≠ 0 ∨ Safety.reservedAddress a.toNat = true := by
  have ha : a.toNat < 2 ^ 17 := a.isLt
  by_cases hal : aligned a = true
  case neg =>
    have h4 := mt (aligned_iff a).2 hal
    simp [regOf, hal, h4]
  have h4 := (aligned_iff a).1 hal
  simp only [regOf, hal, Bool.not_true, Bool.false_eq_true, if_false, Safety.reservedAddress, decide_eq_true_eq]
  split_ifs with hglobal hvoice hreserved hleft
  · rw [globalAt_eq_none_iff h4]
    simp only [voiceBase] at *
    omega
  · rw [Option.map_eq_none_iff, voiceAt_eq_none_iff (by omega) (by omega)]
    simp only [voiceBase, maxVoices] at *
    omega
  all_goals
    simp only [voiceBase, maxVoices, outLBase, outRBase, true_iff, false_iff] at *
    omega

/-- The read-only slots of a voice block (R85, R152). -/
theorem voiceReg_readOnly_iff (r : VoiceReg) :
    (0x04 ≤ r.offset ∧ r.offset < 0x14) ∨ (0x20 ≤ r.offset ∧ r.offset < 0x2C) ∨
      (0x50 ≤ r.offset ∧ r.offset < 0x68) ∨ (0x90 ≤ r.offset ∧ r.offset < 0xA8) ↔ r.access = .ro := by
  cases r with
  | osc o r =>
    match o with
    | 0 => cases r <;> decide
    | 1 => cases r <;> decide
  | _ => decide

theorem readOnlyAddress_addrNat (r : Reg) : Safety.readOnlyAddress r.addrNat = true ↔ r.access = .ro := by
  cases r with
  | voice v r =>
    obtain ⟨hlt, -⟩ := voiceReg_offset_bounds r
    have hv : v.val < 8 := v.isLt
    rw [Safety.readOnlyAddress, decide_eq_true_iff, Reg.access, ← voiceReg_readOnly_iff]
    simp only [Reg.addrNat, voiceBase]
    omega
  | outL i => simp [Safety.readOnlyAddress, Reg.addrNat, Reg.access]
  | outR i => simp [Safety.readOnlyAddress, Reg.addrNat, Reg.access, outRBase]; omega
  | _ => decide

end Sys2Proof.Machine
end

section
/-! PROOFS. What a transaction does, by what its address names: which are refused (O14), and that a written register reads
back (O18); then what one step runs (O2) (spec/20_memory.md R83–R95, spec/40_bus.md R150–R155). -/
namespace Sys2Proof.Machine

/-! ### Refused transactions -/

theorem exec_rd_unmapped (s : State) {a : Addr} (h : regOf a = none) :
    exec (.rd a) s = .next { s.flag .buserr with reads := s.reads ++ [0#32] } := by
  simp only [exec, execRd, busRead, h, State.flag_reads]

theorem exec_wr_unmapped (s : State) (w : Word) {a : Addr} (h : regOf a = none) :
    exec (.wr a w) s = .next (s.flag .buserr) := by
  simp only [exec, execWr, h]

theorem regOf_of_not_reserved {a : Addr} (h4 : a.toNat % 4 = 0) (hres : Safety.reservedAddress a.toNat = false) :
    ∃ r, regOf a = some r := by
  rw [← Option.ne_none_iff_exists', ne_eq, regOf_eq_none_iff]
  simp [h4, hres]

/-- A write is refused where nothing is named, and where what is named is read-only (R152). -/
theorem exec_wr_refused (s : State) (w : Word) {a : Addr}
    (h : a.toNat % 4 ≠ 0 ∨ Safety.reservedAddress a.toNat = true ∨ Safety.readOnlyAddress a.toNat = true) :
    exec (.wr a w) s = .next (s.flag .buserr) := by
  rw [← or_assoc, ← regOf_eq_none_iff] at h
  cases hreg : regOf a with
  | none => exact exec_wr_unmapped s w hreg
  | some r =>
    have hro := h.resolve_left (by simp [hreg])
    rw [← addrNat_of_regOf hreg, readOnlyAddress_addrNat] at hro
    exact exec_wr_readOnly s w hreg hro

/-! ### Writes that store -/

theorem oscReg_access_cases (r : OscReg) : r.access = .ro ∨ r.access = .rw := by cases r <;> decide

theorem voiceReg_access_cases (r : VoiceReg) : r.access = .ro ∨ r.access = .rw := by
  cases r with
  | osc o r => exact oscReg_access_cases r
  | _ => decide

/-- CMD and STATUS are the only registers that are neither RO nor RW (R32, R34). -/
theorem access_cases (r : Reg) : r = .cmd ∨ r = .status ∨ r.access = .ro ∨ r.access = .rw := by
  cases r with
  | voice v r => exact .inr (.inr (voiceReg_access_cases r))
  | outL i | outR i => exact .inr (.inr (.inl rfl))
  | _ => decide

/-- A writable address but CMD names STATUS or a RW register (R152). -/
theorem regOf_of_writable {a : Addr} (ha : Safety.writableAddress a = true) (hcmd : a ≠ 0x00004#17) :
    ∃ r, regOf a = some r ∧ (r = .status ∨ r.access = .rw) := by
  simp only [Safety.writableAddress, Bool.and_eq_true, beq_iff_eq, Bool.not_eq_true'] at ha
  obtain ⟨⟨h4, hres⟩, hro⟩ := ha
  obtain ⟨r, hreg⟩ := regOf_of_not_reserved h4 hres
  refine ⟨r, hreg, ?_⟩
  rcases access_cases r with h | hstatus | hacc | hrw
  · exact absurd h (regOf_ne hreg hcmd)
  · exact .inl hstatus
  · rw [← addrNat_of_regOf hreg, (readOnlyAddress_addrNat r).2 hacc] at hro
    cases hro
  · exact .inr hrw

theorem exec_wr_stores (s : State) (w : Word) {a : Addr} {r : Reg} (h : regOf a = some r)
    (hr : r = .status ∨ r.access = .rw) : exec (.wr a w) s = .next (s.writeReg w r) := by
  rcases hr with rfl | hr
  · simp only [exec, execWr, h, Reg.access]
  · simp only [exec, execWr, h, hr]

/-- Only a read adds to what was read, and a step alone takes from what is presented. -/
theorem writeReg_pending_reads (s : State) (w : Word) (r : Reg) :
    (s.writeReg w r).pending = s.pending ∧ (s.writeReg w r).reads = s.reads := by
  cases r <;> exact ⟨rfl, rfl⟩

theorem writeReg_status (s : State) (w : Word) {r : Reg} (hr : r ≠ .status) : (s.writeReg w r).status = s.status := by
  cases r with
  | status => exact absurd rfl hr
  | _ => rfl

/-- Settles O14: what an address names decides what becomes of a transaction. -/
theorem refusedTransactions : Obligations.RefusedTransactions := by
  intro s a
  refine ⟨fun h => exec_rd_unmapped s ((regOf_eq_none_iff a).2 h), fun ⟨h4, hres⟩ => ?_,
    fun h w => exec_wr_refused s w h, fun ha hcmd w => ?_⟩
  · obtain ⟨r, hreg⟩ := regOf_of_not_reserved h4 hres
    exact ⟨_, reads_of_regOf s hreg⟩
  · obtain ⟨r, hreg, hr⟩ := regOf_of_writable ha hcmd
    obtain ⟨hpending, hreads⟩ := writeReg_pending_reads s w r
    exact ⟨_, exec_wr_stores s w hreg hr, fun hstatus => writeReg_status s w (regOf_ne hreg hstatus),
      (writeReg_mem s w r).1, hpending, hreads⟩

/-! ### A read after a write -/

theorem Osc.readReg_writeReg (x : Osc) (w : Word) {r : OscReg} (hr : r.access = .rw) : (x.writeReg w r).readReg r = w := by
  cases r with
  | period | amplitude | modulation => rfl
  | _ => cases hr

theorem Voice.readReg_writeReg (x : Voice) (w : Word) {r : VoiceReg} (hr : r.access = .rw) :
    (x.writeReg w r).readReg r = w := by
  cases r with
  | osc o r =>
    simp only [Voice.readReg, Voice.writeReg, Voice.oscOf_setOsc_same]
    exact Osc.readReg_writeReg _ w hr
  | note | envAttack | envDecay | envSustain | envRelease => rfl
  | _ => cases hr

/-- Every RW register but CTRL, of which one bit is kept, reads as the word written to it (R89, R90, R154). -/
theorem State.readReg_writeReg (c : Config) (s : State) (w : Word) {r : Reg} (hr : r.access = .rw) (hctrl : r ≠ .ctrl) :
    (s.writeReg w r).readReg c r = w := by
  cases r with
  | voice v r =>
    simp only [State.readReg, State.writeReg, State.voice_setVoice_same]
    exact Voice.readReg_writeReg _ w hr
  | arg | noiseMix | outTarget | outMul => rfl
  | ctrl => exact absurd rfl hctrl
  | _ => cases hr

/-- Settles O18: the address names an RW register, which holds the word written. -/
theorem readAfterWrite : Obligations.ReadAfterWrite := by
  intro s a w ha hcmd hstatus hctrl
  obtain ⟨r, hreg, hr⟩ := regOf_of_writable ha hcmd
  have hrw : r.access = .rw := hr.resolve_left (regOf_ne hreg hstatus)
  have hread := reads_of_regOf (s.writeReg w r) hreg
  rw [State.readReg_writeReg _ s w hrw (regOf_ne hreg hctrl)] at hread
  exact ⟨_, exec_wr_stores s w hreg hr, hread⟩

/-! ### One step -/

theorem step_of_pending {s : State} {r : BusRequest} {rest : List HostInput} (h : s.pending = .bus r :: rest) :
    step s = exec (decodeRequest r) { s with pending := rest } := by
  simp only [step, takeInput, h]

theorem step_of_empty {s : State} (h : s.pending = []) : step s = .next s := by
  simp only [step, takeInput, h]

theorem decodeRequest_of_decodeTableWord {nbits w : Nat} {i : Instr} (h : decodeTableWord nbits w = some i) :
    decodeRequest (.write cmdAddr (BitVec.ofNat 32 w)) = i := by
  unfold decodeTableWord at h
  split_ifs at h with hbits
  simp only [decodeRequest, if_true]
  cases hdec : decodeCommand (BitVec.ofNat 32 w) with
  | command j => simpa [hdec] using h
  | illegal why => simp [hdec] at h

/-- Settles O2: a step takes the first thing presented, and a placed table word is the write to CMD that decodes to its
instruction. -/
theorem stepRunsDecodedInstruction : Obligations.StepRunsDecodedInstruction := by
  refine ⟨fun _ _ _ => step_of_pending, fun _ => step_of_empty, fun s nbits w i h => ?_⟩
  rw [← decodeRequest_of_decodeTableWord h]
  exact step_of_pending rfl

end Sys2Proof.Machine
end

section
/-! PROOFS. The command decoder read off the words' numbers: which row a word selects, which words are legal, and that
decoding and encoding undo each other (spec/30_encoding.md R120–R131). -/
namespace Sys2Proof

/-! ### The rows of the opcode map -/

/-- How many low bits of a format's word hold its operands (R121–R124). -/
def Format.operandBits : Format → Nat
  | .N => 0
  | .V => 3
  | .VO => 4
  | .R => 16

/-- A row's mask keeps all but the operand bits of its format, and its pattern is an opcode in the top byte (R126). -/
theorem opcodeMap_mask_pattern : ∀ r ∈ opcodeMap,
    r.mask = BitVec.allOnes 32 <<< r.format.operandBits ∧ r.pattern.toNat % 2 ^ 24 = 0 := by decide

theorem opcodeMap_patterns_nodup : (opcodeMap.map OpcodeRow.pattern).Nodup := by decide

theorem and_allOnes_shiftLeft {n : Nat} (w : BitVec n) (k : Nat) : w &&& BitVec.allOnes n <<< k = (w >>> k) <<< k := by
  ext i hi
  by_cases hik : i < k
  · simp [hik]
  · simp [hik, Nat.add_sub_cancel' (Nat.le_of_not_lt hik), BitVec.getLsbD_eq_getElem hi]

theorem toNat_and_allOnes_shiftLeft {n : Nat} (w : BitVec n) (k : Nat) :
    (w &&& BitVec.allOnes n <<< k).toNat = w.toNat / 2 ^ k * 2 ^ k := by
  rw [and_allOnes_shiftLeft, BitVec.toNat_shiftLeft, BitVec.toNat_ushiftRight, Nat.shiftLeft_eq,
    Nat.shiftRight_eq_div_pow, Nat.mod_eq_of_lt ((Nat.div_mul_le_self _ _).trans_lt w.isLt)]

/-- A word selects a row when its top byte is the row's opcode and every bit between it and the operands is 0. -/
theorem selects_iff {r : OpcodeRow} (hr : r ∈ opcodeMap) (w : Word) : r.selects w = true ↔
    r.pattern.toNat = w.toNat / 2 ^ 24 * 2 ^ 24 ∧ w.toNat % 2 ^ 24 < 2 ^ r.format.operandBits := by
  obtain ⟨hmask, hpattern⟩ := opcodeMap_mask_pattern r hr
  rw [OpcodeRow.selects, beq_iff_eq, hmask, ← BitVec.toNat_inj, toNat_and_allOnes_shiftLeft]
  cases r.format <;> simp only [Format.operandBits] <;> omega

/-- At most one row is selected: its pattern is the word's top byte. -/
theorem pattern_eq_of_selects {r q : OpcodeRow} (hr : r ∈ opcodeMap) (hq : q ∈ opcodeMap) {w : Word}
    (hrw : r.selects w = true) (hqw : q.selects w = true) : r.pattern = q.pattern := by
  rw [selects_iff hr] at hrw
  rw [selects_iff hq] at hqw
  exact BitVec.eq_of_toNat_eq (hrw.1.trans hqw.1.symm)

theorem row_eq_of_selects {r q : OpcodeRow} (hr : r ∈ opcodeMap) (hq : q ∈ opcodeMap) {w : Word}
    (hrw : r.selects w = true) (hqw : q.selects w = true) : r = q :=
  List.inj_on_of_nodup_map opcodeMap_patterns_nodup hr hq (pattern_eq_of_selects hr hq hrw hqw)

/-- Settles O5: the rows' patterns differ, and the word gives the pattern of a row it selects. -/
theorem opcodeRowsDisjoint : Obligations.OpcodeRowsDisjoint := by
  refine ⟨rfl, fun w i j r q hi hj hrw hqw => ?_⟩
  obtain ⟨hlt, _⟩ := List.getElem?_eq_some_iff.1 hi
  have hpattern := pattern_eq_of_selects (List.mem_of_getElem? hi) (List.mem_of_getElem? hj) hrw hqw
  refine (List.getElem?_inj (by simpa using hlt) opcodeMap_patterns_nodup).1 ?_
  simp only [List.getElem?_map, hi, hj, Option.map_some, hpattern]

/-! ### What the decoder answers -/

/-- A word decodes to a command exactly if it selects that command's row, and its count is in range. -/
theorem decodeCommand_eq_command_iff {w : Word} {i : Instr} : decodeCommand w = .command i ↔
    ∃ r ∈ opcodeMap, r.selects w = true ∧ (r.format = .R → countField w ≤ blockMax) ∧
      r.command (voiceField w) (oscField w) (countField w) = i := by
  unfold decodeCommand
  cases hfind : opcodeMap.find? (fun r => r.selects w) with
  | none =>
    rw [List.find?_eq_none] at hfind
    constructor
    · dsimp only
      split <;> rintro ⟨⟩
    · rintro ⟨r, hr, hrw, -⟩
      exact absurd hrw (hfind r hr)
  | some q =>
    have hq := List.mem_of_find?_eq_some hfind
    have hqw := List.find?_some hfind
    have hunique : ∀ r ∈ opcodeMap, r.selects w = true → r = q := fun r hr hrw => row_eq_of_selects hr hq hrw hqw
    dsimp only
    split
    · next hlong =>
      refine ⟨by rintro ⟨⟩, ?_⟩
      rintro ⟨r, hr, hrw, hcount, -⟩
      obtain rfl := hunique r hr hrw
      exact absurd (hcount hlong.1) (Nat.not_le_of_lt hlong.2)
    · next hshort =>
      constructor
      · rintro ⟨⟩
        exact ⟨q, hq, hqw, fun hR => Nat.le_of_not_lt fun hlt => hshort ⟨hR, hlt⟩, rfl⟩
      · rintro ⟨r, hr, hrw, -, rfl⟩
        rw [hunique r hr hrw]

/-- An opcode has a format exactly if it heads a row of that format (R126). -/
theorem formatOfOpcode_eq_some_iff {op : Nat} {f : Format} : formatOfOpcode op = some f ↔
    ∃ r ∈ opcodeMap, r.format = f ∧ r.pattern.toNat = op * 2 ^ 24 := by
  constructor
  · unfold formatOfOpcode
    split_ifs <;> rintro ⟨⟩ <;> simp [opcodeMap] <;> omega
  · have hrows : ∀ r ∈ opcodeMap, formatOfOpcode (r.pattern.toNat / 2 ^ 24) = some r.format := by decide
    rintro ⟨r, hr, rfl, hop⟩
    rw [← hrows r hr, hop, Nat.mul_div_cancel _ (by decide)]

theorem countField_eq (w : Word) : countField w = w.toNat % 2 ^ 16 := by
  simp only [countField, BitVec.extractLsb'_toNat, Nat.shiftRight_zero]

/-- A word is legal exactly if its top byte has a format, the bits between it and the operands are 0, and a count is in
range (R121–R124, R128). -/
theorem legalCommandWord_iff_format {w : Word} : legalCommandWord w = true ↔
    ∃ f, formatOfOpcode (w.toNat / 2 ^ 24) = some f ∧ w.toNat % 2 ^ 24 < 2 ^ f.operandBits ∧
      (f = .R → countField w ≤ blockMax) := by
  have hw : w.toNat < 2 ^ 32 := w.isLt
  have hop : (w.extractLsb' 24 8).toNat = w.toNat / 2 ^ 24 := by
    rw [BitVec.extractLsb'_toNat, Nat.shiftRight_eq_div_pow]
    omega
  rw [legalCommandWord, hop]
  cases formatOfOpcode (w.toNat / 2 ^ 24) with
  | none => simp
  | some f =>
    cases f <;>
      simp [Format.operandBits, countField_eq, ← BitVec.toNat_inj, BitVec.extractLsb'_toNat,
        Nat.shiftRight_eq_div_pow] <;>
      omega

/-- A word is legal exactly if it selects a row, and its count is in range. -/
theorem legalCommandWord_iff_row {w : Word} : legalCommandWord w = true ↔
    ∃ r ∈ opcodeMap, r.selects w = true ∧ (r.format = .R → countField w ≤ blockMax) := by
  rw [legalCommandWord_iff_format]
  constructor
  · rintro ⟨f, hf, hreserved, hcount⟩
    obtain ⟨r, hr, rfl, hop⟩ := formatOfOpcode_eq_some_iff.1 hf
    exact ⟨r, hr, (selects_iff hr w).2 ⟨hop, hreserved⟩, hcount⟩
  · rintro ⟨r, hr, hrw, hcount⟩
    obtain ⟨hop, hreserved⟩ := (selects_iff hr w).1 hrw
    exact ⟨r.format, formatOfOpcode_eq_some_iff.2 ⟨r, hr, rfl, hop⟩, hreserved, hcount⟩

theorem legalCommandWord_iff_command (w : Word) : legalCommandWord w = true ↔ ∃ i, decodeCommand w = .command i := by
  rw [legalCommandWord_iff_row]
  simp only [decodeCommand_eq_command_iff]
  constructor
  · rintro ⟨r, hr, hrw, hcount⟩
    exact ⟨_, r, hr, hrw, hcount, rfl⟩
  · rintro ⟨_, r, hr, hrw, hcount, -⟩
    exact ⟨r, hr, hrw, hcount⟩

theorem legalCommandWord_eq_false_iff_illegal (w : Word) :
    legalCommandWord w = false ↔ ∃ why, decodeCommand w = .illegal why := by
  rw [← Bool.not_eq_true, legalCommandWord_iff_command]
  cases decodeCommand w <;> simp

/-- Settles O6: rows and formats accept the same words. -/
theorem decoderAcceptsExactlyTheFormats : Obligations.DecoderAcceptsExactlyTheFormats := fun w =>
  ⟨legalCommandWord_iff_command w, legalCommandWord_eq_false_iff_illegal w⟩

/-! ### Encoding what a word decodes to -/

theorem voiceField_val (w : Word) : (voiceField w).val = w.toNat % 8 := by
  rw [voiceField, Fin.val_ofNat, BitVec.extractLsb'_toNat]
  exact Nat.mod_mod _ _

theorem oscField_val (w : Word) : (oscField w).val = w.toNat / 8 % 2 := by
  rw [oscField, Fin.val_ofNat, BitVec.extractLsb'_toNat, Nat.shiftRight_eq_div_pow]
  exact Nat.mod_mod _ _

/-- The operands as a format's word holds them in its low bits (R121–R125). -/
def Format.operands (v : Fin maxVoices) (o : Fin oscPerVoice) (n : Nat) : Format → Nat
  | .N => 0
  | .V => v.val
  | .VO => 8 * o.val + v.val
  | .R => n

theorem wordVO_eq_or (pattern : Word) (v : Fin maxVoices) (o : Fin oscPerVoice) :
    wordVO pattern v o = pattern ||| BitVec.ofNat 32 (8 * o.val + v.val) := by
  have h : BitVec.ofNat 32 o.val <<< 3 ||| BitVec.ofNat 32 v.val = BitVec.ofNat 32 (8 * o.val + v.val) := by
    revert v o
    decide
  rw [wordVO, BitVec.or_assoc, h]

/-- Each row's command has the row's pattern with the operands in the low bits as its word. -/
theorem encode_rowCommand {r : OpcodeRow} (hr : r ∈ opcodeMap) (v : Fin maxVoices) (o : Fin oscPerVoice) (n : Nat) :
    encode (r.command v o n) = .write cmdAddr (r.pattern ||| BitVec.ofNat 32 (r.format.operands v o n)) := by
  fin_cases hr <;> simp [encode, wordV, wordVO_eq_or, wordR, Format.operands]

theorem rowCommand_wellFormed {r : OpcodeRow} (hr : r ∈ opcodeMap) (v : Fin maxVoices) (o : Fin oscPerVoice) {n : Nat}
    (hn : r.format = .R → n ≤ blockMax) :
    (r.command v o n).wellFormed = true ∧ (r.command v o n).isCommand = true := by
  fin_cases hr <;> simp_all [Instr.wellFormed, Instr.isCommand]

/-- The operands read from a word, put back, are its bits below the opcode, if no reserved bit is set. -/
theorem operands_fields {f : Format} {w : Word} (h : w.toNat % 2 ^ 24 < 2 ^ f.operandBits) :
    f.operands (voiceField w) (oscField w) (countField w) = w.toNat % 2 ^ 24 := by
  cases f <;> simp only [Format.operands, Format.operandBits, voiceField_val, oscField_val, countField_eq] at h ⊢ <;> omega

theorem toNat_or_of_disjoint {p x : Word} {k : Nat} (hp : p.toNat % 2 ^ k = 0) (hx : x.toNat < 2 ^ k) :
    (p ||| x).toNat = p.toNat + x.toNat := by
  rw [BitVec.toNat_or, ← Nat.div_mul_cancel (Nat.dvd_of_mod_eq_zero hp), Nat.mul_comm, Nat.two_pow_add_eq_or_of_lt hx]

/-- A selected row's pattern with the word's own operands is the word. -/
theorem pattern_or_operands {r : OpcodeRow} (hr : r ∈ opcodeMap) {w : Word} (hrw : r.selects w = true) :
    r.pattern ||| BitVec.ofNat 32 (r.format.operands (voiceField w) (oscField w) (countField w)) = w := by
  obtain ⟨hop, hreserved⟩ := (selects_iff hr w).1 hrw
  have hlow : (BitVec.ofNat 32 (w.toNat % 2 ^ 24)).toNat = w.toNat % 2 ^ 24 := by
    rw [BitVec.toNat_ofNat]
    omega
  apply BitVec.eq_of_toNat_eq
  rw [operands_fields hreserved, toNat_or_of_disjoint (k := 24) (by omega) (by omega), hlow]
  omega

/-- Settles O8: a row's command, with the operands the word holds, has the word as its encoding. -/
theorem encodeAfterDecode : Obligations.EncodeAfterDecode := by
  intro w i h
  obtain ⟨r, hr, hrw, hcount, rfl⟩ := decodeCommand_eq_command_iff.1 h
  refine ⟨?_, rowCommand_wellFormed hr _ _ hcount⟩
  rw [encode_rowCommand hr, pattern_or_operands hr hrw]

/-! ### Decoding what an instruction encodes to -/

theorem decodeRequest_cmd_of_command {w : Word} {i : Instr} (h : decodeCommand w = .command i) :
    decodeRequest (.write cmdAddr w) = i := by
  simp only [decodeRequest, if_true, h]

theorem decodeRequest_wr_of_wellFormed {a : Addr} {w : Word} (h : (Instr.wr a w).wellFormed = true) :
    decodeRequest (.write a w) = .wr a w := by
  by_cases ha : a = cmdAddr
  · have hlegal : legalCommandWord w = false := by simpa [Instr.wellFormed, ha] using h
    obtain ⟨why, hw⟩ := (legalCommandWord_eq_false_iff_illegal w).1 hlegal
    simp only [decodeRequest, ha, if_true, hw]
  · simp only [decodeRequest, ha, if_false]

/-- RENDER's word decodes to it at every count (R124). -/
theorem decodeCommand_wordR {n : Nat} (hn : n ≤ blockMax) :
    decodeCommand (wordR 0x40000000#32 n) = .command (.render n) := by
  have hw := Laws.EncodedForm.wordR_toNat n hn
  have hcount : countField (wordR 0x40000000#32 n) = n := by
    rw [countField_eq, hw]
    simp only [blockMax] at hn
    omega
  have hr : opcodeMap[10] ∈ opcodeMap := List.getElem_mem _
  have hselects : opcodeMap[10].selects (wordR 0x40000000#32 n) = true := by
    simp only [selects_iff hr, hw, blockMax] at hn ⊢
    simp only [opcodeMap, List.getElem_cons_succ, List.getElem_cons_zero, Format.operandBits, BitVec.toNat_ofNat]
    omega
  exact decodeCommand_eq_command_iff.2 ⟨_, hr, hselects, fun _ => hcount.trans_le hn, congrArg Instr.render hcount⟩

/-- Settles O7: a voice or oscillator operand has its few values, RENDER's count is read back from the word, and a
well-formed write is no command's. -/
theorem decodeAfterEncode : Obligations.DecodeAfterEncode := by
  intro i hi
  cases i with
  | nop | engineReset | noiseReset => decide
  | envAttack v | envRelease v | envReset v | voiceReset v | voicePan v => clear hi; revert v; decide
  | oscReset v o | oscSync v o => clear hi; revert v o; decide
  | render n => exact decodeRequest_cmd_of_command (decodeCommand_wordR (by simpa [Instr.wellFormed] using hi))
  | rd a => rfl
  | wr a w => exact decodeRequest_wr_of_wellFormed hi

/-- Settles O4: the decoder evaluates on each word. -/
theorem decodesSpecWords : Obligations.DecodesSpecWords := by
  unfold Obligations.DecodesSpecWords
  decide

end Sys2Proof
end

section
/-! PROOFS. A write to CMD that is no legal command, and lines of the assembler (spec/30_encoding.md R128–R132). -/
namespace Sys2Proof.Machine

/-- A write to CMD runs what its word decodes to (R151, R153). -/
theorem exec_wr_cmd (s : State) (w : Word) : exec (.wr cmdAddr w) s = writeCommand w s := by
  have hreg : regOf cmdAddr = some .cmd := regOf_addrOf .cmd
  simp only [exec, execWr, hreg, Reg.access]

theorem exec_wr_cmd_illegal (s : State) {w : Word} (h : legalCommandWord w = false) :
    exec (.wr cmdAddr w) s = .next (s.flag .illegal) := by
  obtain ⟨why, hw⟩ := (legalCommandWord_eq_false_iff_illegal w).1 h
  simp only [exec_wr_cmd, writeCommand, hw]

/-- A command breaks H6 exactly if it is not well formed, that is a RENDER above the limit (R124, R342). -/
theorem dutyH6_eq_wellFormed {i : Instr} (hi : i.isCommand = true) : Safety.dutyH6 i = i.wellFormed := by
  cases i with
  | rd a => cases hi
  | wr a w => cases hi
  | _ => rfl

theorem dutyH6_wr_cmd_of_command {w : Word} {i : Instr} (h : decodeCommand w = .command i) :
    Safety.dutyH6 (.wr cmdAddr w) = true := by
  obtain ⟨-, hwf, hi⟩ := encodeAfterDecode w i h
  have hspelled : Safety.spelled (.wr cmdAddr w) = Safety.spelled i := by
    rw [Safety.spelled, decodeRequest_cmd_of_command h]
    cases i with
    | wr a w => cases hi
    | _ => rfl
  rw [← hwf, ← dutyH6_eq_wellFormed hi, Safety.dutyH6, hspelled, Safety.dutyH6]

/-- What breaks H6 is a RENDER term that is too long or a write of an illegal word to CMD. -/
theorem dutyH6_eq_false_cases {i : Instr} (h : Safety.dutyH6 i = false) :
    (∃ n, i = .render n ∧ ¬n ≤ blockMax) ∨ ∃ w, i = .wr cmdAddr w ∧ legalCommandWord w = false := by
  cases i with
  | render n => exact .inl ⟨n, rfl, of_decide_eq_false h⟩
  | wr a w =>
    by_cases ha : a = cmdAddr
    · subst ha
      refine .inr ⟨w, rfl, (legalCommandWord_eq_false_iff_illegal w).2 ?_⟩
      cases hw : decodeCommand w with
      | illegal why => exact ⟨why, rfl⟩
      | command j => rw [dutyH6_wr_cmd_of_command hw] at h; cases h
    · simp [Safety.dutyH6, Safety.spelled, decodeRequest, ha] at h
  | _ => cases h

/-- Settles O19: an illegal word decodes to no command, and what breaks H6 is one or a RENDER term above the limit. -/
theorem illegalWordOnlyFlags : Obligations.IllegalWordOnlyFlags := by
  refine ⟨fun s w h => exec_wr_cmd_illegal s h, fun i s h => ?_⟩
  rcases dutyH6_eq_false_cases h with ⟨n, rfl, hn⟩ | ⟨w, rfl, hw⟩
  · exact if_neg hn
  · exact exec_wr_cmd_illegal s hw

/-- Settles O59: the assembler evaluates on each line. -/
theorem assemblerExamples : Obligations.AssemblerExamples := by
  unfold Obligations.AssemblerExamples
  decide +kernel

end Sys2Proof.Machine
end

section
/-! PROOFS. What the writes of the host leave: a RW register, STATUS, CTRL, and a command's word at CMD (spec/40_bus.md
R151–R156). -/
namespace Sys2Proof.Machine

/-! ### A write to a RW register -/

theorem exec_wr_voiceReg (s : State) (w : Word) (v : Fin maxVoices) {r : VoiceReg} (hr : r.access = .rw) :
    exec (.wr (Safety.voiceAddr v r.offset) w) s = .next (s.setVoice v ((s.voice v).writeReg w r)) :=
  exec_wr_stores s w (regOf_voiceAddr v r) (.inr hr)

theorem exec_wr_oscReg (s : State) (w : Word) (v : Fin maxVoices) (o : Fin oscPerVoice) {r : OscReg}
    (hr : r.access = .rw) : exec (.wr (Safety.oscAddr v o r.offset) w) s =
      .next (s.setVoice v ((s.voice v).setOsc o (((s.voice v).oscOf o).writeReg w r))) := by
  rw [oscAddr_eq_voiceAddr]
  exact exec_wr_voiceReg s w v (r := .osc o r) hr

/-- Settles O15: each address names a RW register, which stores the word. -/
theorem writesStoreVerbatim : Obligations.WritesStoreVerbatim := by
  intro s w
  have hglobal {a : Addr} {r : Reg} (h : regOf a = some r) (hr : r.access = .rw) := exec_wr_stores s w h (.inr hr)
  refine ⟨hglobal (r := .arg) rfl rfl, hglobal (r := .noiseMix) rfl rfl, hglobal (r := .outTarget) rfl rfl,
    hglobal (r := .outMul) rfl rfl, fun v => ?_⟩
  have hvoice {r : VoiceReg} (hr : r.access = .rw) := exec_wr_voiceReg s w v hr
  refine ⟨hvoice (r := .note) rfl, hvoice (r := .envAttack) rfl, hvoice (r := .envDecay) rfl,
    hvoice (r := .envSustain) rfl, hvoice (r := .envRelease) rfl, fun o => ?_⟩
  have hosc {r : OscReg} (hr : r.access = .rw) := exec_wr_oscReg s w v o hr
  exact ⟨hosc (r := .period) rfl, hosc (r := .amplitude) rfl, hosc (r := .modulation) rfl⟩

/-! ### A write of a command's word to CMD -/

theorem execCommand_eq_exec {i : Instr} (hi : i.isCommand = true) (s : State) : execCommand i s = exec i s := by
  cases i with
  | rd a => cases hi
  | wr a w => cases hi
  | _ => rfl

/-- Settles O20: a word decodes to commands only, which a write to CMD runs as `exec` does. -/
theorem commandWriteRunsTheCommand : Obligations.CommandWriteRunsTheCommand := by
  intro s w i h
  obtain ⟨-, -, hi⟩ := encodeAfterDecode w i h
  rw [exec_wr_cmd, ← execCommand_eq_exec hi]
  simp only [writeCommand, h]

/-! ### Writes to STATUS and CTRL -/

theorem getLsbD_writeReg_status (s : State) (w : Word) {k : Nat} (hk : k < 7) :
    (s.writeReg w .status).status.getLsbD k = (s.status.getLsbD k && !w.getLsbD k) := by
  simp [State.writeReg, hk]

/-- Settles O16: the bits written as 1 are masked out of STATUS. -/
theorem statusWriteOneClears : Obligations.StatusWriteOneClears := fun s w =>
  ⟨_, exec_wr_stores s w (r := .status) rfl (.inl rfl), fun _ => getLsbD_writeReg_status s w⟩

/-- MONO is CTRL's one bit (R35). -/
theorem mono_eq_getLsbD (s : State) : s.mono = s.ctrl.getLsbD 0 := by
  rcases BitVec.eq_zero_or_eq_one s.ctrl with h | h <;> simp [State.mono, h]

/-- CTRL reads as MONO in bit 0 and 0 above it (R35, R150). -/
theorem reads_ctrl (s : State) : Safety.Reads s 0x00010#17 (if s.mono then 1#32 else 0#32) := by
  have hword : s.ctrl.zeroExtend 32 = if s.mono then 1#32 else 0#32 := by
    rcases BitVec.eq_zero_or_eq_one s.ctrl with h | h <;> simp [State.mono, h]
  rw [← hword]
  exact reads_of_regOf s (r := .ctrl) rfl

theorem writeReg_ctrl_mono (s : State) (w : Word) : (s.writeReg w .ctrl).mono = w.getLsbD 0 := by
  simp [mono_eq_getLsbD, State.writeReg]

/-- Settles O17: CTRL keeps bit 0 of the word, which is MONO and all that a read shows. -/
theorem ctrlWriteSetsMono : Obligations.CtrlWriteSetsMono := by
  intro s w
  have hmono := writeReg_ctrl_mono s w
  exact ⟨_, exec_wr_stores s w (r := .ctrl) rfl (.inr rfl), rfl, hmono, hmono ▸ reads_ctrl _⟩

end Sys2Proof.Machine
end

section
/-! PROOFS. The noise generator (spec/41_noise.md R170, R171): a rounding of a datum's value is that value, so the division
of a whole number of 24 digits by 2^24 is exact (O40); then NOISE_RESET (O23). -/
namespace Sys2Proof
namespace F32

/-! ### Exact roundings -/

/-- Every value of 24 digits up to the greatest finite magnitude is some datum's. -/
theorem exists_finite_units_eq {v : Int} (hr : Representable v) (hv : v.natAbs ≤ (2 ^ 24 - 1) * 2 ^ 253) :
    ∃ x, isFinite x = true ∧ units x = v := by
  have hlt := roundMag_lt v.natAbs 1 Nat.one_pos (by omega)
  have h := units_round_nearest (decide (v < 0)) v.natAbs 1 Nat.one_pos hlt v hr
  rw [← signed, signed_natAbs, Nat.cast_one, mul_one, mul_one, sub_self, abs_zero, abs_nonpos_iff, sub_eq_zero] at h
  exact ⟨_, (isFinite_round _ _ _).2 hlt, h⟩

/-- An exact result that is a datum's value is not changed by the one rounding of R10. -/
theorem units_of_roundedOnce {v : Int} {den : Nat} {r : F32} (hd : 0 < den) (hr : Representable v)
    (hv : v.natAbs ≤ (2 ^ 24 - 1) * 2 ^ 253) (h : Safety.RoundedOnce (v * den) den r) :
    isFinite r = true ∧ units r = v := by
  have hover : ¬Safety.Overflows (v * den) den := by
    have hle := Nat.mul_le_mul_right den hv
    rw [Safety.Overflows, Int.abs_eq_natAbs, Int.natAbs_mul, Int.natAbs_natCast]
    omega
  obtain ⟨hf, hnear⟩ := h.1 hover
  obtain ⟨x, hx, hxv⟩ := exists_finite_units_eq hr hv
  obtain ⟨hle, -⟩ := hnear x hx
  rw [hxv, sub_self, abs_zero, abs_nonpos_iff, sub_eq_zero] at hle
  exact ⟨hf, Int.eq_of_mul_eq_mul_right (by omega) hle⟩

/-! ### Whole numbers of 24 digits, and their division by 2^24 -/

theorem representable_whole_mul_pow {t : Int} (ht : t.natAbs ≤ 2 ^ 24) (q : Nat) : Representable (t * 2 ^ q) :=
  ⟨t.natAbs, q, ht, by rw [Int.natAbs_mul, Int.natAbs_pow]; rfl⟩

theorem ofInt_exact {t : Int} (ht : t.natAbs ≤ 2 ^ 24) : isFinite (ofInt t) = true ∧ units (ofInt t) = t * 2 ^ 149 :=
  units_of_roundedOnce Nat.one_pos (representable_whole_mul_pow ht 149) (by omega)
    (by rw [Nat.cast_one, mul_one]; exact roundedOnce_ofInt t)

theorem signBit_ofInt (t : Int) : signBit (ofInt t) = decide (t < 0) := signBit_round _ _ _

/-- The division by 2^24 only lowers the exponent: it is exact, and keeps the sign. -/
theorem fdiv_ofInt_f2p24 {t : Int} (ht : t.natAbs ≤ 2 ^ 24) : isFinite (fdiv (ofInt t) f2p24) = true ∧
    units (fdiv (ofInt t) f2p24) = t * 2 ^ 125 ∧ signBit (fdiv (ofInt t) f2p24) = decide (t < 0) := by
  have hbf : isFinite f2p24 = true := by decide
  have hbs : signBit f2p24 = false := by decide
  have hb : units f2p24 = 2 ^ 173 := by decide +kernel
  have hb0 : units f2p24 ≠ 0 := by rw [hb]; decide
  obtain ⟨haf, ha⟩ := ofInt_exact ht
  have hnum : units (ofInt t) * (units f2p24).sign * 2 ^ 149 = t * 2 ^ 125 * ((units f2p24).natAbs : Nat) := by
    rw [ha, hb, show ((2 : Int) ^ 173).sign = 1 by decide, show ((2 : Int) ^ 173).natAbs = 2 ^ 173 by decide]
    push_cast
    ring
  have hround := roundedOnce_fdiv haf hbf hb0
  rw [hnum] at hround
  obtain ⟨hf, hu⟩ := units_of_roundedOnce (by omega) (representable_whole_mul_pow ht 125) (by omega) hround
  exact ⟨hf, hu, by rw [signBit_fdiv haf hbf hb0, signBit_ofInt, hbs, Bool.bne_false]⟩

end F32

namespace Machine

/-! ### The noise sample -/

theorem noiseInt_eq (st : Word) : noiseInt st = (st.toNat / 2 ^ 7 : Nat) - 2 ^ 24 := by
  have hst : st.toNat < 2 ^ 32 := st.isLt
  rw [noiseInt, BitVec.extractLsb'_toNat, Nat.shiftRight_eq_div_pow]
  omega

/-- `t` is in [-2^24, 2^24) (R170). -/
theorem noiseInt_bounds (st : Word) : -2 ^ 24 ≤ noiseInt st ∧ noiseInt st < 2 ^ 24 := by
  have hst : st.toNat < 2 ^ 32 := st.isLt
  rw [noiseInt_eq]
  omega

/-- The `i32` word that holds `t` loses nothing of it. -/
theorem noiseSample_eq (st : Word) : noiseSample st = F32.fdiv (F32.ofInt (noiseInt st)) F32.f2p24 := by
  obtain ⟨hlo, hhi⟩ := noiseInt_bounds st
  rw [noiseSample, F32.i2f, BitVec.toInt_ofInt_eq_self (by decide) (le_trans (by decide) hlo) (hhi.trans_le (by decide))]

/-- Settles O40: `t` has 24 digits, so its division by 2^24 is exact; the sign is that of `t`, so zero is +0.0. -/
theorem noiseSampleExact : Obligations.NoiseSampleExact := by
  intro st
  obtain ⟨hlo, hhi⟩ := noiseInt_bounds st
  obtain ⟨hf, hu, hs⟩ := F32.fdiv_ofInt_f2p24 (t := noiseInt st) (by omega)
  rw [← noiseSample_eq] at hf hu hs
  refine ⟨noiseInt st, noiseInt_eq st, hf, by omega, fun hneg => ?_, by omega, by omega⟩
  have hzero : F32.units 0x80000000#32 = 0 := by decide
  have hminus : F32.signBit 0x80000000#32 = true := by decide
  rw [hneg, hzero] at hu
  rw [hneg, hminus, eq_comm, decide_eq_true_eq] at hs
  omega

/-! ### NOISE_RESET -/

theorem exec_noiseReset (s : State) : exec .noiseReset s = .next (noiseReset Config.machine s) := rfl

theorem noiseReset_machine (s : State) : noiseReset Config.machine s = { s with noiseState := 22222#32 } := by
  rw [noiseReset, Config.machine_noiseSeed]

/-- Settles O23: NOISE_SEED is the power-on value, and `noiseReset` writes that one field. -/
theorem noiseResetEffect : Obligations.NoiseResetEffect := by
  refine ⟨by decide, rfl, fun s => ?_⟩
  rw [exec_noiseReset, noiseReset_machine]

end Machine
end Sys2Proof
end

section
/-! PROOFS. One envelope step and the three commands of the envelope (spec/42_envelope.md R180, R185–R188): their equations, with
the machine's numerals, and the four statements that are these equations (O32, O24, O25, O26). -/
namespace Sys2Proof.Machine

/-! ### The commands' equations -/

theorem exec_envAttack (v : Fin maxVoices) (s : State) :
    exec (.envAttack v) s = .next (s.setEnv v ((s.voice v).env.attackFrom Config.machine)) := rfl

theorem exec_envRelease (v : Fin maxVoices) (s : State) :
    exec (.envRelease v) s = .next (s.setEnv v (s.voice v).env.releaseFrom) := rfl

theorem exec_envReset (v : Fin maxVoices) (s : State) : exec (.envReset v) s =
    .next ((s.flagIf .haz ((s.voice v).env.isActive Config.machine)).setEnv v (s.voice v).env.clear) := rfl

theorem State.setEnv_env (s : State) (v : Fin maxVoices) (e : Env) : ((s.setEnv v e).voice v).env = e := by
  rw [State.voice_setEnv_same]

/-- HAZ is bit 2 of STATUS, raised if its cause occurred (R34). -/
theorem State.flagIf_haz (s : State) (b : Bool) :
    s.flagIf .haz b = { s with status := if b then s.status ||| 4#7 else s.status } := by
  cases b with
  | false => simp only [State.flagIf, Event.maskIf, State.raise, Bool.false_eq_true, if_false, BitVec.or_zero]
  | true => rfl

/-- ENV_ATTACK on the machine, with its numerals: 2·SILENCE and the target 2.0 (R185). -/
theorem Env.attackFrom_machine (e : Env) : e.attackFrom Config.machine =
    { e with level := F32.fadd e.level 0x3951B717#32, target := 0x40000000#32, mult := e.attack, phase := .attack } := by
  have hsum : F32.fadd Config.machine.silence Config.machine.silence = 0x3951B717#32 := by decide +kernel
  rw [Env.attackFrom, hsum, Config.machine_attackTarget]

theorem Env.attackFrom_level_of_zero {e : Env} (h : e.level = 0#32) :
    (e.attackFrom Config.machine).level = 0x3951B717#32 := by
  rw [Env.attackFrom_machine]
  show F32.fadd e.level 0x3951B717#32 = 0x3951B717#32
  rw [h]
  decide +kernel

theorem Env.isInAttack_of_target {e : Env} (h : e.target = 0x40000000#32) : e.isInAttack Config.machine = true := by
  rw [Env.isInAttack, h]
  decide +kernel

/-! ### The effects -/

/-- Settles O32: the step's update and test, with the new level named. -/
theorem envStepEffect : Obligations.EnvStepEffect := by
  intro e level hlevel
  have hnext : e.nextLevel = level := hlevel.symm
  rw [Env.step, Env.attackEnds, hnext, Config.machine_attackDone]

/-- Settles O24: `attackFrom` with its numerals; from +0.0 the sum is 2·SILENCE, above the silence floor. -/
theorem envAttackEffect : Obligations.EnvAttackEffect := by
  intro v
  refine ⟨by revert v; decide, fun s => ⟨?_, fun hl t ht => ?_⟩⟩
  · rw [exec_envAttack, Env.attackFrom_machine]
    rfl
  · cases ht
    have hlevel := Env.attackFrom_level_of_zero hl
    rw [State.setEnv_env]
    refine ⟨hlevel, ?_, Env.isInAttack_of_target rfl⟩
    rw [Env.isActive, hlevel]
    decide +kernel

/-- Settles O25: `releaseFrom` is the rule's three writes. -/
theorem envReleaseEffect : Obligations.EnvReleaseEffect := fun v => ⟨by revert v; decide, exec_envRelease v⟩

/-- Settles O26: HAZ by the activity before the reset, then the cleared envelope. -/
theorem envResetEffect : Obligations.EnvResetEffect := by
  refine fun v => ⟨by revert v; decide, fun s => ?_⟩
  rw [exec_envReset, State.flagIf_haz]
  rfl

end Sys2Proof.Machine
end

section
/-! PROOFS. The envelope of a voice over RENDER (spec/42_envelope.md R189, R190): the phases it can move to (O35), and the
sustaining envelope, which stays so (O34). -/
namespace Sys2Proof.Machine

/-! ### The envelope of a voice over RENDER -/

/-- A sample's effect on an envelope: an active one steps, an inactive one is passed over (R263). -/
def Env.turn (c : Config) (e : Env) : Env := if e.isActive c then e.step c else e

/-- The retirement of an envelope: an inactive one is cleared (R268). -/
def Env.retire (c : Config) (e : Env) : Env := if e.isActive c then e else e.clear

theorem Env.turn_of_active {c : Config} {e : Env} (h : e.isActive c = true) : e.turn c = e.step c := if_pos h

theorem Env.retire_of_active {c : Config} {e : Env} (h : e.isActive c = true) : e.retire c = e := if_pos h

theorem Env.retire_of_inactive {c : Config} {e : Env} (h : e.isActive c = false) : e.retire c = e.clear := by
  rw [Env.retire, h]
  rfl

theorem Voice.turn_env (c : Config) (z : F32) (x : Voice) : (x.turn c z).env = x.env.turn c := by
  unfold Voice.turn Env.turn
  split <;> rfl

theorem Voice.retire_env (c : Config) (x : Voice) : (x.retire c).env = x.env.retire c := by
  unfold Voice.retire Env.retire
  split <;> rfl

theorem renderLoop_env (c : Config) (v : Fin maxVoices) : ∀ (n : Nat) (s : State),
    ((renderLoop c n s).state.voice v).env = (Env.turn c)^[n] (s.voice v).env
  | 0, _ => rfl
  | n + 1, s => by
    rw [renderLoop_succ, renderLoop_env c v n, renderSample_voice, Voice.turn_env, Function.iterate_succ_apply]

/-- The envelope of a voice after RENDER depends on that envelope alone (R263, R268). -/
theorem render_env (c : Config) (n : Nat) (s : State) (v : Fin maxVoices) :
    ((render c n s).voice v).env = ((Env.turn c)^[n] (s.voice v).env).retire c := by
  rw [render_voice, Voice.retire_env, renderLoop_env]

/-! ### ENV_STATE -/

/-- A sample moves ENV_STATE, if at all, to DECAY_SUSTAIN (R180). -/
theorem Env.turn_phase (c : Config) (e : Env) : (e.turn c).phase = e.phase ∨ (e.turn c).phase = .decaySustain := by
  unfold Env.turn Env.step
  split_ifs
  · exact .inr rfl
  · exact .inl rfl
  · exact .inl rfl

theorem Env.iterate_turn_phase (c : Config) (e : Env) (n : Nat) :
    ((Env.turn c)^[n] e).phase = e.phase ∨ ((Env.turn c)^[n] e).phase = .decaySustain := by
  induction n with
  | zero => exact .inl rfl
  | succ n ih =>
    rw [Function.iterate_succ_apply']
    rcases Env.turn_phase c ((Env.turn c)^[n] e) with h | h
    · rwa [h]
    · exact .inr h

/-- RENDER moves ENV_STATE, if at all, to DECAY_SUSTAIN or, in the retirement, to IDLE (R180, R268). -/
theorem render_phase (c : Config) (n : Nat) (s : State) (v : Fin maxVoices) :
    ((render c n s).voice v).env.phase = (s.voice v).env.phase ∨
    ((render c n s).voice v).env.phase = .decaySustain ∨ ((render c n s).voice v).env.phase = .idle := by
  rw [render_env, Env.retire]
  split_ifs
  · exact (Env.iterate_turn_phase c _ n).imp_right .inl
  · exact .inr (.inr rfl)

/-- Replacing one voice by one of the same envelope leaves every envelope as it is. -/
theorem State.voice_setVoice_env (s : State) {u : Fin maxVoices} {x : Voice} (h : x.env = (s.voice u).env)
    (v : Fin maxVoices) : ((s.setVoice u x).voice v).env = (s.voice v).env := by
  by_cases hv : v = u
  · rw [hv, State.voice_setVoice_same, h]
  · rw [State.voice_setVoice_ne _ _ hv]

/-- Replacing one voice's envelope moves the phase of that voice alone. -/
theorem State.voice_setEnv_phase (s : State) (u v : Fin maxVoices) (e : Env) :
    ((s.setEnv u e).voice v).env.phase = (s.voice v).env.phase ∨
    (((s.setEnv u e).voice v).env.phase = e.phase ∧ u = v) := by
  by_cases hv : v = u
  · subst hv
    exact .inr ⟨congrArg Env.phase (State.setEnv_env s v e), rfl⟩
  · exact .inl (by rw [State.voice_setEnv_ne _ _ hv])

/-- Settles O35: the oscillators' and the voice's commands keep the envelope; the others set the phase the rule names. -/
theorem envPhaseTransitions : Obligations.EnvPhaseTransitions := by
  intro i s t v hi h
  cases i with
  | nop | noiseReset => cases h; exact .inl rfl
  | oscReset u o | oscSync u o | voiceReset u | voicePan u =>
    cases h
    refine .inl (congrArg Env.phase (State.voice_setVoice_env _ ?_ v))
    rfl
  | envAttack u =>
    cases h
    exact (State.voice_setEnv_phase _ u v _).imp_right fun ⟨hp, hu⟩ => .inl ⟨hp, hu ▸ rfl⟩
  | envRelease u =>
    cases h
    exact (State.voice_setEnv_phase _ u v _).imp_right fun ⟨hp, hu⟩ => .inr (.inl ⟨hp, hu ▸ rfl⟩)
  | envReset u =>
    cases h
    exact (State.voice_setEnv_phase _ u v _).imp_right fun ⟨hp, hu⟩ => .inr (.inr (.inr ⟨hp, .inl (hu ▸ rfl)⟩))
  | engineReset =>
    cases h
    exact .inr (.inr (.inr (.inr ⟨by rw [State.voice_engineReset]; rfl, .inr (.inl rfl)⟩)))
  | render n =>
    by_cases hn : n ≤ blockMax
    · cases h.symm.trans (execRender_next hn s)
      rcases render_phase Config.machine n s v with hp | hp | hp
      · exact .inl hp
      · exact .inr (.inr (.inr (.inl ⟨hp, n, rfl⟩)))
      · exact .inr (.inr (.inr (.inr ⟨hp, .inr (.inr ⟨n, rfl⟩)⟩)))
    · cases h.symm.trans (if_neg hn)
      exact .inl rfl
  | rd a => cases hi
  | wr a w => cases hi

/-! ### Sustaining envelopes (R190 (b)) -/

/-- Where a sustaining envelope `e` may have moved: toward SUSTAIN, and not past it. -/
structure Env.SustainsFrom (e f : Env) : Prop where
  sustaining : Safety.sustaining f = true
  sustain : f.sustain = e.sustain
  above : F32.units e.sustain ≤ F32.units e.level → F32.units f.sustain ≤ F32.units f.level
  below : F32.units e.level ≤ F32.units e.sustain →
    F32.units e.level ≤ F32.units f.level ∧ F32.units f.level ≤ F32.units f.sustain

theorem Env.SustainsFrom.refl {e : Env} (h : Safety.sustaining e = true) : e.SustainsFrom e :=
  ⟨h, rfl, id, fun hle => ⟨le_rfl, hle⟩⟩

theorem Env.SustainsFrom.isActive {e f : Env} (h : e.SustainsFrom f) : f.isActive Config.machine = true :=
  (sustaining_step h.sustaining).2.2

theorem Env.SustainsFrom.step {e f : Env} (h : e.SustainsFrom f) : e.SustainsFrom (f.step Config.machine) := by
  obtain ⟨hf, hsus, habove, hbelow⟩ := h
  obtain ⟨hstep, hkeep, -⟩ := sustaining_step hf
  obtain ⟨-, hnextAbove, hnextBelow⟩ := sustaining_next hf
  refine ⟨hstep, hkeep.trans hsus, fun hle => ?_, fun hle => ?_⟩ <;> rw [hkeep, Env.step_level]
  · exact hnextAbove (habove hle)
  · obtain ⟨hlow, hhigh⟩ := hbelow hle
    exact ⟨hlow.trans (hnextBelow hhigh).1, (hnextBelow hhigh).2⟩

theorem Env.SustainsFrom.iterate_turn {e : Env} (h : Safety.sustaining e = true) (n : Nat) :
    e.SustainsFrom ((Env.turn Config.machine)^[n] e) := by
  induction n with
  | zero => exact .refl h
  | succ n ih =>
    rw [Function.iterate_succ_apply', Env.turn_of_active ih.isActive]
    exact ih.step

/-- RENDER moves a sustaining envelope toward SUSTAIN, whatever its count. -/
theorem Env.SustainsFrom.render {s : State} {v : Fin maxVoices} (h : Safety.sustaining (s.voice v).env = true) (n : Nat) :
    (s.voice v).env.SustainsFrom ((render Config.machine n s).voice v).env := by
  have hloop := Env.SustainsFrom.iterate_turn h n
  rwa [render_env, Env.retire_of_active hloop.isActive]

theorem isNaN_of_sustaining {e : Env} (h : Safety.sustaining e = true) :
    F32.isNaN e.level = false ∧ F32.isNaN e.sustain = false := by
  obtain ⟨⟨-, -, hsustain⟩, -, -, -, hlevel, -⟩ := (sustaining_iff e).1 h
  exact ⟨F32.isNaN_of_isFinite hlevel, F32.isNaN_of_isFinite hsustain⟩

/-- Settles O34: RENDER keeps a sustaining envelope one, which is active, and the step whose test fires leaves one. -/
theorem sustainKeepsVoiceActive : Obligations.SustainKeepsVoiceActive := by
  refine ⟨fun n s v hn h => ?_, fun e h2 hd ht hf hends => ?_⟩
  · have hfrom := Env.SustainsFrom.render h n
    obtain ⟨hlevel, hsustain⟩ := isNaN_of_sustaining hfrom.sustaining
    obtain ⟨hlevel₀, -⟩ := isNaN_of_sustaining h
    refine ⟨_, execRender_next hn s, hfrom.sustaining, hfrom.sustain, hfrom.isActive, fun hge => ?_, fun hlt => ?_⟩
    · exact (F32.fge_iff _ _).2 ⟨hlevel, hsustain, hfrom.above ((F32.fge_iff _ _).1 hge).2.2⟩
    · obtain ⟨hlow, hhigh⟩ := hfrom.below ((F32.flt_iff _ _).1 hlt).2.2.le
      exact ⟨(F32.fge_iff _ _).2 ⟨hlevel, hlevel₀, hlow⟩, (F32.fle_iff _ _).2 ⟨hlevel, hsustain, hhigh⟩⟩
  · rw [Env.step_level] at hf hends
    exact attack_end_sustains h2 hd ht hf (by rw [Env.attackEnds, ht]; exact hends)

end Sys2Proof.Machine
end

section
/-! PROOFS. One-sample RENDERs, one after another (spec/42_envelope.md R190): while the voice is active they are the steps of
its envelope, so what `Env.step` does over time they do (O33, O60). -/
namespace Sys2Proof.Machine

/-! ### One-sample RENDERs, one after another -/

/-- The state after `k` one-sample RENDERs. -/
def afterRenders (s : State) (k : Nat) : State := (render Config.machine 1)^[k] s

theorem exec_render_afterRenders (s : State) (k : Nat) :
    exec (.render 1) (afterRenders s k) = .next (afterRenders s (k + 1)) := by
  rw [afterRenders, afterRenders, Function.iterate_succ_apply']
  exact execRender_next (by decide) _

theorem afterRenders_succ_env (s : State) (v : Fin maxVoices) (k : Nat) : ((afterRenders s (k + 1)).voice v).env =
    (((afterRenders s k).voice v).env.turn Config.machine).retire Config.machine := by
  rw [afterRenders, Function.iterate_succ_apply', render_env, Function.iterate_one]
  rfl

/-- Up to the first step that leaves it inactive, `k` one-sample RENDERs are `k` steps of the envelope. -/
theorem afterRenders_env {s : State} {v : Fin maxVoices} {e : Env} (he : (s.voice v).env = e) : ∀ {k : Nat},
    (∀ j ≤ k, ((Env.step Config.machine)^[j] e).isActive Config.machine = true) →
      ((afterRenders s k).voice v).env = (Env.step Config.machine)^[k] e
  | 0, _ => he
  | k + 1, h => by
    have hlast := h (k + 1) le_rfl
    rw [afterRenders_succ_env, afterRenders_env he fun j hj => h j (by omega), Env.turn_of_active (h k (by omega)),
      ← Function.iterate_succ_apply' (Env.step Config.machine), Env.retire_of_active hlast]

/-- The RENDER whose step leaves the envelope inactive retires it (R268). -/
theorem afterRenders_env_retired {s : State} {v : Fin maxVoices} {e : Env} (he : (s.voice v).env = e) {k : Nat}
    (h : ∀ j ≤ k, ((Env.step Config.machine)^[j] e).isActive Config.machine = true)
    (hend : ((Env.step Config.machine)^[k + 1] e).isActive Config.machine = false) :
    ((afterRenders s (k + 1)).voice v).env = ((Env.step Config.machine)^[k + 1] e).clear := by
  rw [afterRenders_succ_env, afterRenders_env he h, Env.turn_of_active (h k le_rfl),
    ← Function.iterate_succ_apply' (Env.step Config.machine), Env.retire_of_inactive hend]

/-! ### The largest ATTACK (R190 (a')) -/

/-- With MULT 0x3F7FFFFF the attack stands still at 1.0: the step rounds back to 1.0, where the threshold test does not
fire. -/
theorem Env.step_at_one {e : Env} (hm : e.mult = 0x3F7FFFFF#32) (hl : e.level = 0x3F800000#32)
    (ht : e.target = 0x40000000#32) : e.step Config.machine = e := by
  have hone : F32.units 0x3F800000#32 = 2 ^ 149 := by decide +kernel
  have hnext : e.nextLevel = 0x3F800000#32 := by
    rw [Env.nextLevel, hm, hl, ht]
    decide +kernel
  have hends : e.attackEnds Config.machine = false := Env.not_ends_of_le_one ht (by rw [hnext]; decide)
    (by rw [hnext, hone]; norm_num) (by rw [hnext, hone])
  rw [Env.step_of_not_ends hends, hnext, ← hl]

/-- Settles O33: the voice is active throughout, so RENDERs are steps of its envelope. -/
theorem largestAttackNeverEnds : Obligations.LargestAttackNeverEnds := by
  refine ⟨fun e hm hl ht => ⟨Env.step_at_one hm hl ht, Env.isInAttack_of_target ht⟩, fun s v hl hm => ?_⟩
  have henv := State.setEnv_env s v ((s.voice v).env.attackFrom Config.machine)
  have hnever := largest_attack_never_ends hl hm
  refine ⟨afterRenders (s.setEnv v ((s.voice v).env.attackFrom Config.machine)), exec_envAttack v s, ?_, fun k => ?_⟩
  · exact (congrArg Env.level henv).trans (Env.attackFrom_level_of_zero hl)
  · rw [afterRenders_env henv fun j _ => (hnever j).1]
    exact ⟨exec_render_afterRenders _ k, hnever k⟩

/-! ### The end of an attack and of a release (R190 (a), (c), (d)) -/

/-- A level above that of an active envelope is active. -/
theorem Env.isActive_of_flt {c : Config} {e f : Env} (he : e.isActive c = true) (h : F32.flt e.level f.level = true) :
    f.isActive c = true := by
  obtain ⟨-, hsilence, habove⟩ := (F32.fgt_iff _ _).1 he
  obtain ⟨-, hlevel, hlt⟩ := (F32.flt_iff _ _).1 h
  exact (F32.fgt_iff _ _).2 ⟨hlevel, hsilence, habove.trans hlt⟩

theorem Env.clear_inactive (e : Env) : e.clear.isActive Config.machine = false := by
  rw [Env.isActive, Env.clear_level, Config.machine_silence]
  decide +kernel

/-- A cleared level is below that of an active envelope. -/
theorem Env.clear_level_flt {e : Env} (f : Env) (he : e.isActive Config.machine = true) :
    F32.flt f.clear.level e.level = true := by
  have hnan : F32.isNaN F32.f0 = false := by decide
  have hzero : F32.units F32.f0 < F32.units 0x38D1B717#32 := by decide +kernel
  obtain ⟨hlevel, -, habove⟩ := (F32.fgt_iff _ _).1 he
  exact (F32.flt_iff _ _).2 ⟨hnan, hlevel, hzero.trans habove⟩

theorem Env.SameParameters.clear_eq {e f : Env} (h : e.SameParameters f) : f.clear = e.clear := by
  obtain ⟨ha, hd, hs, hr⟩ := h
  rw [Env.clear, ha, hd, hs, hr]
  rfl

theorem Env.iterate_step_clear (c : Config) (e : Env) (k : Nat) : ((Env.step c)^[k] e).clear = e.clear := by
  induction k with
  | zero => rfl
  | succ k ih => rw [Function.iterate_succ_apply', (Env.step_sameParameters c _).clear_eq, ih]

/-- R190 (a) over RENDERs: every step up to the last of the attack rises from an active level, so the voice stays active. -/
theorem attack_ends_renders {s : State} {v : Fin maxVoices} {e : Env}
    (henv : (s.voice v).env = e.attackFrom Config.machine) (hl0 : F32.fge e.level 0#32 = true)
    (hl1 : F32.flt e.level 0x3F800000#32 = true) (hm0 : F32.fge e.attack 0#32 = true)
    (hm1 : F32.fle e.attack 0x3F7FFFFE#32 = true) (hs : F32.fge e.sustain 0x40000000#32 = false) :
    ∃ k, (∀ j ≤ k, ((afterRenders s j).voice v).env.isInAttack Config.machine = true ∧
        F32.flt ((afterRenders s j).voice v).env.level ((afterRenders s (j + 1)).voice v).env.level = true) ∧
      ((afterRenders s (k + 1)).voice v).env.isInAttack Config.machine = false ∧
      (Safety.dutyH2 e = true → Safety.unitMultiplier e.decay = true →
        Safety.sustaining ((afterRenders s (k + 1)).voice v).env = true) := by
  obtain ⟨k, hrise, hend⟩ := attack_ends hl0 hl1 hm0 hm1 hs
  have hactive : ∀ j ≤ k + 1, ((Env.step Config.machine)^[j] (e.attackFrom Config.machine)).isActive Config.machine =
      true := fun j hj => by
    rcases Nat.lt_or_eq_of_le hj with hlt | rfl
    · exact (hrise j (by omega)).1
    · obtain ⟨hk, -, hlt⟩ := hrise k le_rfl
      exact Env.isActive_of_flt hk hlt
  have hsteps : ∀ j ≤ k + 1, ((afterRenders s j).voice v).env =
      (Env.step Config.machine)^[j] (e.attackFrom Config.machine) :=
    fun j hj => afterRenders_env henv fun i hi => hactive i (hi.trans hj)
  refine ⟨k, fun j hj => ?_, ?_⟩
  · rw [hsteps j (by omega), hsteps (j + 1) (by omega)]
    exact (hrise j hj).2
  · rw [hsteps (k + 1) le_rfl]
    exact hend

/-- R190 (c) over RENDERs. -/
theorem release_active_through_renders {s : State} {v : Fin maxVoices} {e : Env}
    (henv : (s.voice v).env = e.releaseFrom) (hl : F32.fle e.level 0x40400000#32 = true)
    (hr0 : F32.fgt e.release 0#32 = true) (hr1 : F32.flt e.release 0x3F800000#32 = true) {k : Nat}
    (hk : (k : ℝ) * -Real.log ((F32.units e.release : ℝ) / 2 ^ 149) ≤ 1)
    (hs : (F32.units 0x38D1B717#32 : ℝ) * Real.exp 1 < F32.units e.level * (1 - 1 / 2 ^ 24) ^ k) :
    ∀ j ≤ k, ((afterRenders s j).voice v).env.isActive Config.machine = true := fun j hj => by
  have hactive := release_active_through hl hr0 hr1 hk hs
  rw [afterRenders_env henv fun i hi => hactive i (hi.trans hj)]
  exact hactive j hj

/-- R190 (d) over RENDERs: the last RENDER of the release retires the voice. -/
theorem release_ends_renders {s : State} {v : Fin maxVoices} {e : Env} (henv : (s.voice v).env = e.releaseFrom)
    (hl : F32.fle e.level 0x40400000#32 = true) (hr0 : F32.fge e.release 0#32 = true)
    (hr1 : F32.flt e.release 0x3F800000#32 = true) :
    ∃ k, (∀ j < k, ((afterRenders s j).voice v).env.isActive Config.machine = true ∧
        F32.flt ((afterRenders s (j + 1)).voice v).env.level ((afterRenders s j).voice v).env.level = true) ∧
      ((afterRenders s k).voice v).env.isActive Config.machine = false ∧
      (k ≠ 0 → ((afterRenders s k).voice v).env = e.releaseFrom.clear) := by
  obtain ⟨k, hfall, hend⟩ := release_ends hl hr0 hr1
  cases k with
  | zero => exact ⟨0, nofun, henv ▸ hend, fun h => absurd rfl h⟩
  | succ k =>
    have hactive : ∀ j ≤ k, ((Env.step Config.machine)^[j] e.releaseFrom).isActive Config.machine = true :=
      fun j hj => (hfall j (by omega)).1
    have hsteps : ∀ j ≤ k, ((afterRenders s j).voice v).env = (Env.step Config.machine)^[j] e.releaseFrom :=
      fun j hj => afterRenders_env henv fun i hi => hactive i (hi.trans hj)
    have hretired := afterRenders_env_retired henv hactive hend
    rw [Env.iterate_step_clear] at hretired
    refine ⟨k + 1, fun j hj => ?_, hretired ▸ Env.clear_inactive _, fun _ => hretired⟩
    obtain ⟨hact, hlt⟩ := hfall j hj
    rcases Nat.lt_or_eq_of_le (show j ≤ k by omega) with hjk | rfl
    · rw [hsteps j (by omega), hsteps (j + 1) hjk]
      exact ⟨hact, hlt⟩
    · rw [hretired, hsteps j le_rfl]
      exact ⟨hact, Env.clear_level_flt _ hact⟩

/-- Settles O60: R190 (a), (c) and (d) over RENDERs, from what ENV_ATTACK and ENV_RELEASE leave. -/
theorem attackAndReleaseEnd : Obligations.AttackAndReleaseEnd := by
  rintro s v _ rfl
  refine ⟨fun hl0 hl1 hm0 hm1 hs => ?_, fun hl hr0 hr1 k hk hs => ?_, fun hl hr0 hr1 => ?_⟩
  · obtain ⟨k, hrise, hend⟩ := attack_ends_renders (State.setEnv_env s v _) hl0 hl1 hm0 hm1 hs
    exact ⟨k, afterRenders _, exec_envAttack v s, fun j hj => ⟨exec_render_afterRenders _ j, hrise j hj⟩, hend⟩
  · exact ⟨afterRenders _, exec_envRelease v s, fun j _ => exec_render_afterRenders _ j,
      release_active_through_renders (State.setEnv_env s v _) hl hr0 hr1 hk hs⟩
  · obtain ⟨k, hfall, hend, hretired⟩ := release_ends_renders (State.setEnv_env s v _) hl hr0 hr1
    refine ⟨k, afterRenders _, exec_envRelease v s, fun j hj => ⟨exec_render_afterRenders _ j, hfall j hj⟩, hend,
      fun hk => (hretired hk).trans ?_⟩
    exact (congrArg Env.clear (State.setEnv_env s v _)).symm

end Sys2Proof.Machine
end

section
/-! PROOFS. The oscillator (spec/43_oscillator.md R210–R216): a step's two branches, an equation each (O37, O38); what OSC_RESET
and OSC_SYNC leave, and the reseed after a reset (O27, O28). -/
namespace Sys2Proof.Machine

/-! ### The branches of a step -/

theorem Osc.step_of_fle (c : Config) {x : Osc} (h : F32.fle (F32.fadd x.phase x.inc) c.reseedT = true) :
    x.step c = x.advance.reseed c := if_pos h

theorem Osc.step_of_not_fle (c : Config) {x : Osc} (h : F32.fle (F32.fadd x.phase x.inc) c.reseedT = false) :
    x.step c = x.advance.continue := if_neg (Bool.eq_false_iff.1 h)

theorem Osc.reflect_of_fgt {x : Osc} (h : F32.fgt x.phase x.phaseMax = true) : x.reflect =
    { x with phase := F32.fsub (F32.fadd x.phaseMax x.phaseMax) x.phase, inc := F32.fneg x.inc } := if_pos h

theorem Osc.reflect_of_not_fgt {x : Osc} (h : F32.fgt x.phase x.phaseMax = false) : x.reflect = x :=
  if_neg (Bool.eq_false_iff.1 h)

/-- The reflection moves PHASE and INC alone, so the recurrence reads the registers from before it (R212, R213). -/
theorem Osc.continue_of_reflect {x : Osc} {phase inc : F32} (h : x.reflect = { x with phase := phase, inc := inc }) :
    x.continue =
      { osc := { x with phase := phase, inc := inc, sin1 := x.sin0, sin0 := x.nextSin }
        out := F32.fdiv x.nextSin phase
        plow := false } := by
  rw [Osc.continue, h]
  rfl

/-- Settles O37: the step is `reseed` of the advanced oscillator, whose fields are the rule's statements. -/
theorem oscStepReseeds : Obligations.OscStepReseeds := by
  rintro x _ _ _ _ h rfl rfl rfl rfl
  rw [Osc.step_of_fle Config.machine h]
  exact ⟨rfl, rfl, rfl⟩

/-- Settles O38: the step is `continue` of the advanced oscillator, by whether its phase is above PHASE_MAX. -/
theorem oscStepContinues : Obligations.OscStepContinues := by
  rintro x _ phase inc rfl h hfold hkeep
  have hreflect : x.advance.reflect = { x.advance with phase := phase, inc := inc } := by
    cases habove : F32.fgt (F32.fadd x.phase x.inc) x.phaseMax with
    | true =>
      obtain ⟨rfl, rfl⟩ := hfold habove
      exact Osc.reflect_of_fgt habove
    | false =>
      obtain ⟨rfl, rfl⟩ := hkeep habove
      exact Osc.reflect_of_not_fgt habove
  rw [Osc.step_of_not_fle Config.machine h, Osc.continue_of_reflect hreflect]
  rfl

/-! ### OSC_RESET -/

theorem exec_oscReset (v : Fin maxVoices) (o : Fin oscPerVoice) (s : State) :
    exec (.oscReset v o) s = .next (s.setVoice v ((s.voice v).setOsc o ((s.voice v).oscOf o).clear)) := rfl

/-- The phase of a cleared oscillator advances to +0.0, at or below π/4. -/
theorem Osc.clear_step_reseeds (x : Osc) :
    F32.fle (F32.fadd x.clear.phase x.clear.inc) 0x3F490FDB#32 = true := by
  rw [Osc.clear_phase, Osc.clear_inc]
  decide +kernel

/-- The phase a cleared oscillator reseeds to: -(0.0 + 0.0) (R215). -/
theorem Osc.clear_reseed_phase (x : Osc) : F32.fneg (F32.fadd x.clear.phase x.clear.inc) = 0x80000000#32 := by
  rw [Osc.clear_phase, Osc.clear_inc]
  decide +kernel

/-- The step after a clear: the phase is -0.0, whose square is not above NEAR_ZERO_SQ, so the sample is AMPLITUDE (R215). -/
theorem Osc.step_clear (x : Osc) :
    (x.clear.step Config.machine).out = x.amplitude ∧ (x.clear.step Config.machine).osc.phase = 0x80000000#32 := by
  obtain ⟨hosc, hout, -⟩ := oscStepReseeds x.clear _ _ _ _ x.clear_step_reseeds rfl rfl rfl rfl
  rw [Osc.clear_reseed_phase] at hosc hout
  have hnear : F32.fgt (F32.fmul 0x80000000#32 0x80000000#32) 0x3089705F#32 = false := by decide +kernel
  rw [hnear, if_neg Bool.false_ne_true, Osc.clear_amplitude] at hout
  exact ⟨hout, by rw [hosc]⟩

/-- Settles O27: the oscillator read back is the cleared one, and its step reseeds at phase -0.0. -/
theorem oscResetEffect : Obligations.OscResetEffect := by
  refine fun v o => ⟨by revert v o; decide, fun s => ⟨exec_oscReset v o s, fun t ht => ?_⟩⟩
  cases ht
  rw [State.voice_setVoice_same, Voice.oscOf_setOsc_same]
  exact Osc.step_clear _

/-! ### OSC_SYNC -/

theorem exec_oscSync (v : Fin maxVoices) (o : Fin oscPerVoice) (s : State) :
    exec (.oscSync v o) s = .next (s.setVoice v ((s.voice v).setOsc o (((s.voice v).oscOf o).syncTo Config.machine
      ((s.voice v).oscOf (companionOf o)) s.arg))) := rfl

/-- A voice has two oscillators. -/
theorem companionOf_eq_of_ne {o p : Fin oscPerVoice} (h : p ≠ o) : companionOf o = p := by
  revert o p
  decide

theorem not_fgt_zero_of_flt_zero {a : F32} (h : F32.flt a 0#32 = true) : ¬F32.fgt a 0#32 = true := by
  rw [F32.flt_iff] at h
  rw [F32.fgt_iff]
  omega

theorem sync_of_rising (c : Config) {y : Osc} (h : F32.fgt y.inc 0#32 = true) :
    syncPhase c y = F32.fsub (F32.fadd y.phaseMax y.phaseMax) y.phase ∧ syncInc c y = F32.fneg y.inc :=
  ⟨if_pos h, if_pos h⟩

theorem sync_of_falling (c : Config) {y : Osc} (h : F32.flt y.inc 0#32 = true) :
    syncPhase c y = y.phase ∧ syncInc c y = y.inc := by
  have hnot := not_fgt_zero_of_flt_zero h
  exact ⟨(if_neg hnot).trans (if_pos h), (if_neg hnot).trans (if_pos h)⟩

theorem sync_of_resting (c : Config) {y : Osc} (hgt : F32.fgt y.inc 0#32 = false) (hlt : F32.flt y.inc 0#32 = false) :
    syncPhase c y = F32.fneg c.pi ∧ syncInc c y = c.pi := by
  simp only [syncPhase, syncInc, hgt, hlt, Bool.false_eq_true, if_false, and_self]

/-- Settles O28: `syncPhase` and `syncInc` of the companion are the rule's phase and increment at each sign. -/
theorem oscSyncEffect : Obligations.OscSyncEffect := by
  refine fun v o p hp => ⟨by clear hp; revert v o; decide, ?_⟩
  rintro s c rfl
  refine ⟨syncPhase Config.machine ((s.voice v).oscOf p), syncInc Config.machine ((s.voice v).oscOf p),
    sync_of_rising _, sync_of_falling _, sync_of_resting _, ?_⟩
  rw [exec_oscSync, companionOf_eq_of_ne hp]
  rfl

end Sys2Proof.Machine
end

section
/-! PROOFS. The voice (spec/44_voice.md R240–R246): its step (O39), VOICE_RESET and VOICE_PAN (O29, O30), and that RENDER leaves
in a voice a function of that voice and the noise alone (O44). -/
namespace Sys2Proof.Machine

/-! ### The step -/

/-- Settles O39: each oscillator steps from its own registers, and the other fields are the rule's statements. -/
theorem voiceStepFormula : Obligations.VoiceStepFormula := by
  rintro x noise _ _ _ rfl rfl rfl
  exact ⟨rfl, rfl, rfl, Voice.step_env _ _ x, Voice.oscOf_step _ _ x 0, Voice.oscOf_step _ _ x 1, Voice.step_note _ _ x,
    Voice.step_panL _ _ x, Voice.step_panR _ _ x⟩

/-! ### VOICE_RESET -/

theorem exec_voiceReset (v : Fin maxVoices) (s : State) : exec (.voiceReset v) s =
    .next ((s.flagIf .haz ((s.voice v).env.isActive Config.machine)).setVoice v
      ((s.voice v).hardZero Config.machine)) := rfl

/-- A voice has no oscillator but the two that a reset clears. -/
theorem Voice.hardZero_osc (c : Config) (x : Voice) : (x.hardZero c).osc = x.osc.map Osc.clear :=
  vector_ext_get fun o => (Voice.oscOf_hardZero c x o).trans (vector_get_map Osc.clear x.osc o).symm

theorem Voice.hardZero_eq (c : Config) (x : Voice) : x.hardZero c =
    { x with saw := 0#32, panL := c.panC, panR := c.panC, osc := x.osc.map Osc.clear } :=
  congrArg (fun osc => { x.hardZero c with osc := osc }) (Voice.hardZero_osc c x)

/-- Settles O29: HAZ by the activity before the reset, then the voice with both oscillators cleared. -/
theorem voiceResetEffect : Obligations.VoiceResetEffect := by
  refine fun v => ⟨by revert v; decide, fun s => ?_⟩
  rw [exec_voiceReset, State.flagIf_haz, Voice.hardZero_eq]
  rfl

/-! ### VOICE_PAN -/

theorem exec_voicePan (v : Fin maxVoices) (s : State) :
    exec (.voicePan v) s = .next (s.setVoice v ((s.voice v).panned Config.machine)) := rfl

/-- Settles O30: the rule's position is `panPosition` of NOTE, and the gains are `panned`'s. -/
theorem voicePanEffect : Obligations.VoicePanEffect := by
  refine fun v => ⟨by revert v; decide, ?_⟩
  rintro s _ _ rfl rfl
  exact exec_voicePan v s

/-! ### A voice over RENDER -/

/-- A voice after `n` samples, from the noise generator's state and NOISE_MIX: each sample draws, then the voice takes its
turn (R262, R263). -/
def Voice.turns (c : Config) (noiseMix : F32) : Nat → Word → Voice → Voice
  | 0, _, x => x
  | n + 1, st, x =>
    Voice.turns c noiseMix n (noiseAdvance c st) (x.turn c (F32.fmul (noiseSample (noiseAdvance c st)) noiseMix))

theorem renderLoop_voice (c : Config) (v : Fin maxVoices) : ∀ (n : Nat) (s : State),
    (renderLoop c n s).state.voice v = Voice.turns c s.noiseMix n s.noiseState (s.voice v)
  | 0, _ => rfl
  | n + 1, s => by
    rw [renderLoop_succ, renderLoop_voice c v n, renderSample_voice, renderSample_noiseMix, renderSample_noiseState]
    rfl

/-- What RENDER leaves in a voice, by the registers it depends on (R243). -/
theorem render_voice_eq_turns (c : Config) (n : Nat) (s : State) (v : Fin maxVoices) :
    (render c n s).voice v = (Voice.turns c s.noiseMix n s.noiseState (s.voice v)).retire c := by
  rw [render_voice, renderLoop_voice]

/-- Settles O44: the two states agree on all that the voice's turns and its retirement read. -/
theorem voicesDoNotInterfere : Obligations.VoicesDoNotInterfere := by
  intro n s s' v hstate hmix hvoice hn
  refine ⟨_, _, execRender_next hn s, execRender_next hn s', ?_⟩
  rw [render_voice_eq_turns, render_voice_eq_turns, hstate, hmix, hvoice]

end Sys2Proof.Machine
end

section
/-! PROOFS. The safety clamp (spec/45_engine.md R267): a word and its STATUS bits in each branch, and a channel under either
MUTE_SCOPE (O47). -/
namespace Sys2Proof.Machine

/-! ### The branches of the clamp -/

theorem sane_of_nonfinite {x : F32} (h : F32.isNaN x = true ∨ F32.isInf x = true) :
    saneWord Config.machine x = 0#32 ∧ saneEvents Config.machine x = 0x60#7 := by
  have hcond : (F32.isNaN x || F32.isInf x) = true := by simpa using h
  exact ⟨if_pos hcond, if_pos hcond⟩

section
variable {x : F32} (hf : F32.isFinite x = true)
include hf

theorem sane_of_muted (h : F32.fgt x 0x40000000#32 = true ∨ F32.flt x 0xC0000000#32 = true) :
    saneWord Config.machine x = 0#32 ∧ saneEvents Config.machine x = 0x20#7 := by
  have hneg : F32.fneg Config.machine.muteLimit = 0xC0000000#32 := by decide
  have hcond : (F32.fgt x Config.machine.muteLimit || F32.flt x (F32.fneg Config.machine.muteLimit)) = true := by
    rw [hneg]; simpa using h
  simp only [saneWord, saneEvents, F32.isNaN_of_isFinite hf, F32.isInf_of_isFinite hf, hcond]
  exact ⟨rfl, rfl⟩

/-- A finite word the limit 2.0 lets through is clipped at 1.0. -/
theorem sane_of_not_muted (hhi : F32.fgt x 0x40000000#32 = false) (hlo : F32.flt x 0xC0000000#32 = false) :
    saneWord Config.machine x = (if F32.fgt x 0x3F800000#32 then 0x3F800000#32
      else if F32.flt x 0xBF800000#32 then 0xBF800000#32 else x) ∧
    saneEvents Config.machine x = (if F32.fgt x 0x3F800000#32 then 0x10#7
      else if F32.flt x 0xBF800000#32 then 0x10#7 else 0#7) := by
  have hmute : F32.fneg 0x40000000#32 = 0xC0000000#32 := by decide
  have hclip : F32.fneg 0x3F800000#32 = 0xBF800000#32 := by decide
  have hmask : Event.clipped.mask = 0x10#7 := rfl
  simp only [saneWord, saneEvents, F32.isNaN_of_isFinite hf, F32.isInf_of_isFinite hf, Config.machine_muteLimit,
    Config.machine_clipLimit, hmute, hclip, hmask, hhi, hlo, Bool.or_self, Bool.false_eq_true, if_false, and_self]

end

/-! ### Its limits as numbers -/

/-- A datum between -2.0 and 2.0 is finite and is not muted. -/
theorem not_muted_of_units {x : F32} (hn : F32.isNaN x = false) (hlo : -2 ^ 150 ≤ F32.units x)
    (hhi : F32.units x ≤ 2 ^ 150) :
    F32.isFinite x = true ∧ F32.fgt x 0x40000000#32 = false ∧ F32.flt x 0xC0000000#32 = false := by
  have htwo : F32.units 0x40000000#32 = 2 ^ 150 := by decide +kernel
  have hminusTwo : F32.units 0xC0000000#32 = -2 ^ 150 := by decide +kernel
  refine ⟨F32.isFinite_of_units hn (by omega), ?_, ?_⟩
  · rw [Bool.eq_false_iff, ne_eq, F32.fgt_iff, htwo]
    exact fun h => hhi.not_gt h.2.2
  · rw [Bool.eq_false_iff, ne_eq, F32.flt_iff, hminusTwo]
    exact fun h => hlo.not_gt h.2.2

theorem units_clip_limits : F32.units 0x3F800000#32 = 2 ^ 149 ∧ F32.units 0xBF800000#32 = -2 ^ 149 := by decide +kernel

theorem sane_of_clipped_high {x : F32} (h1 : F32.fgt x 0x3F800000#32 = true) (h2 : F32.fle x 0x40000000#32 = true) :
    saneWord Config.machine x = 0x3F800000#32 ∧ saneEvents Config.machine x = 0x10#7 := by
  obtain ⟨hn, -, hone⟩ := (F32.fgt_iff _ _).1 h1
  obtain ⟨-, -, htwo⟩ := (F32.fle_iff _ _).1 h2
  rw [units_clip_limits.1] at hone
  have hle : F32.units x ≤ 2 ^ 150 := htwo.trans (by decide +kernel)
  obtain ⟨hf, hhi, hlo⟩ := not_muted_of_units hn (by omega) hle
  have hsane := sane_of_not_muted hf hhi hlo
  rwa [if_pos h1, if_pos h1] at hsane

theorem sane_of_clipped_low {x : F32} (h1 : F32.flt x 0xBF800000#32 = true) (h2 : F32.fge x 0xC0000000#32 = true) :
    saneWord Config.machine x = 0xBF800000#32 ∧ saneEvents Config.machine x = 0x10#7 := by
  obtain ⟨hn, -, hone⟩ := (F32.flt_iff _ _).1 h1
  obtain ⟨-, -, htwo⟩ := (F32.fge_iff _ _).1 h2
  rw [units_clip_limits.2] at hone
  have hge : -2 ^ 150 ≤ F32.units x := le_trans (by decide +kernel) htwo
  obtain ⟨hf, hhi, hlo⟩ := not_muted_of_units hn hge (by omega)
  have hnot : ¬F32.fgt x 0x3F800000#32 = true := by
    rw [F32.fgt_iff, units_clip_limits.1]
    omega
  have hsane := sane_of_not_muted hf hhi hlo
  rwa [if_neg hnot, if_neg hnot, if_pos h1, if_pos h1] at hsane

theorem sane_of_in_range {x : F32} (h1 : F32.fge x 0xBF800000#32 = true) (h2 : F32.fle x 0x3F800000#32 = true) :
    saneWord Config.machine x = x ∧ saneEvents Config.machine x = 0#7 := by
  obtain ⟨hn, -, hlow⟩ := (F32.fge_iff _ _).1 h1
  obtain ⟨-, -, hhigh⟩ := (F32.fle_iff _ _).1 h2
  rw [units_clip_limits.2] at hlow
  rw [units_clip_limits.1] at hhigh
  obtain ⟨hf, hhi, hlo⟩ := not_muted_of_units hn (by omega) (by omega)
  have hgt : ¬F32.fgt x 0x3F800000#32 = true := by
    rw [F32.fgt_iff, units_clip_limits.1]
    omega
  have hlt : ¬F32.flt x 0xBF800000#32 = true := by
    rw [F32.flt_iff, units_clip_limits.2]
    omega
  have hsane := sane_of_not_muted hf hhi hlo
  rwa [if_neg hgt, if_neg hgt, if_neg hlt, if_neg hlt] at hsane

/-! ### A channel -/

/-- MUTED is bit 5 of STATUS (R34). -/
theorem and_muted_mask (e : BitVec 7) : (e &&& Event.muted.mask != 0#7) = e.getLsbD 5 := by
  revert e
  decide

/-- With MUTE_SCOPE `channel_block` one muted word mutes its channel (R267). -/
theorem channelWords_channelBlock (ws : List F32) :
    channelWords { Config.machine with muteScope := .channelBlock } ws =
      if ∃ x ∈ ws, (saneEvents Config.machine x).getLsbD 5 = true then ws.map (fun _ => 0#32)
      else ws.map (saneWord Config.machine) := by
  have hany : (ws.any fun x => saneEvents Config.machine x &&& Event.muted.mask != 0#7) = true ↔
      ∃ x ∈ ws, (saneEvents Config.machine x).getLsbD 5 = true := by
    simp only [and_muted_mask, List.any_eq_true]
  exact ite_congr (propext hany) (fun _ => rfl) fun _ => rfl

/-- Settles O47: a lemma for each branch of the clamp, then a channel under either MUTE_SCOPE. -/
theorem safetyClampCases : Obligations.SafetyClampCases :=
  ⟨fun _ => ⟨sane_of_nonfinite, sane_of_muted, sane_of_clipped_high, sane_of_clipped_low, sane_of_in_range⟩,
    channelWords_machine, channelWords_channelBlock⟩

end Sys2Proof.Machine
end

section
/-! PROOFS. NOP and ENGINE_RESET (spec/45_engine.md R272, R273): O21 and O22. -/
namespace Sys2Proof.Machine

theorem exec_nop (s : State) : exec .nop s = .next s := rfl

/-- Settles O21: the decoder's answer to the one word, and NOP's meaning, which is the state it is given. -/
theorem nopChangesNothing : Obligations.NopChangesNothing := ⟨by decide, exec_nop⟩

theorem exec_engineReset (s : State) : exec .engineReset s = .next (engineReset Config.machine s) := rfl

/-- What ENGINE_RESET leaves in a voice: both oscillators and the envelope cleared, and four registers (R272). -/
theorem Voice.engineReset_eq (c : Config) (x : Voice) : x.engineReset c =
    { x with note := 0#32, panL := c.panC, panR := c.panC, saw := 0#32, env := x.env.clear, osc := x.osc.map Osc.clear } := by
  rw [Voice.engineReset, Voice.hardZero_eq]

/-- Settles O22: every voice reset, and the noise seed and the gain written. -/
theorem engineResetEffect : Obligations.EngineResetEffect := by
  refine ⟨by decide, fun s => ?_⟩
  rw [exec_engineReset, engineReset, funext (Voice.engineReset_eq Config.machine)]
  rfl

end Sys2Proof.Machine
end

section
/-! PROOFS. RENDER as the turns of the sample loop, the words and STATUS bits of its samples, and the retirement
(spec/45_engine.md R260–R270): O41, O42, O43, O49, O45, O46. -/
namespace Sys2Proof.Machine
open Safety (sampleState sampleFrame)

/-! ### One sample -/

theorem renderSample_frame (c : Config) (s : State) : (renderSample c s).frame =
    ⟨F32.fmul (mix c (F32.fmul (noiseSample (noiseAdvance c s.noiseState)) s.noiseMix) s.voices).left
        (onePole s.outMul s.outGain s.outTarget),
      F32.fmul (mix c (F32.fmul (noiseSample (noiseAdvance c s.noiseState)) s.noiseMix) s.voices).right
        (onePole s.outMul s.outGain s.outTarget)⟩ := rfl

/-- PLOW is bit 3 of STATUS, raised if its cause occurred (R34). -/
theorem or_plow_maskIf (status : BitVec 7) (b : Bool) :
    status ||| Event.plow.maskIf b = if b then status ||| 8#7 else status := by
  cases b with
  | false => exact BitVec.or_zero
  | true => rfl

/-- Settles O43: the sums of the mix over the active voices, each voice's turn, and the mix's PLOW. -/
theorem sampleSumsActiveVoicesInOrder : Obligations.SampleSumsActiveVoicesInOrder := by
  rintro s _ noise _ active rfl rfl rfl hactive
  obtain ⟨hleft, hright, hplow⟩ := mix_sums Config.machine
    (F32.fmul (noiseSample (noiseAdvance Config.machine s.noiseState)) s.noiseMix) s.voices
  have horder : (voiceOrder.filter fun v => (s.voices.get v).env.isActive Config.machine) = active := hactive.symm
  rw [horder] at hleft hright hplow
  refine ⟨?_, ?_, fun v => ?_, ?_⟩
  · rw [renderSample_frame, hleft]
    rfl
  · rw [renderSample_frame, hright]
    rfl
  · have hmem : v ∈ active ↔ (s.voice v).env.isActive Config.machine = true := by
      rw [← horder, List.mem_filter]
      exact and_iff_right (mem_voiceOrder v)
    rw [renderSample_voice, Voice.turn]
    exact ite_congr (propext hmem).symm (fun _ => rfl) fun _ => rfl
  · rw [renderSample_status, hplow, or_plow_maskIf]
    rfl

/-! ### RENDER by its turns -/

/-- The frames of the first `n` samples of a RENDER that begins in `s`. -/
def sampleFrames (n : Nat) (s : State) : List Frame := (List.range n).map fun i => sampleFrame i s

theorem renderLoop_machine (n : Nat) (s : State) :
    renderLoop Config.machine n s = ⟨sampleState n s, sampleFrames n s⟩ :=
  congrArg₂ BlockResult.mk (renderLoop_state _ n s) (renderLoop_frames _ n s)

/-- The STATUS bits the clamp flags over a block: left and right in stereo, their mean in mono (R265, R267). -/
def blockEvents (c : Config) (mono : Bool) (fs : List Frame) : BitVec 7 :=
  if mono then channelEvents c (fs.map (Frame.mono c))
  else channelEvents c (fs.map Frame.left) ||| channelEvents c (fs.map Frame.right)

/-- What the output write and the end of RENDER change beside the voices: STATUS bits, the output RAM, BLOCK_LEN. -/
def State.written (s : State) (events : BitVec 7) (m : Memory) (len : Word) : State :=
  { s.raise events with mem := m, blockLen := len }

theorem writeBlock_status (c : Config) (mono : Bool) (fs : List Frame) (s : State) :
    (writeBlock c mono fs s).status = s.status ||| blockEvents c mono fs := by
  cases mono with
  | true => rfl
  | false => exact BitVec.or_assoc _ _ _

/-- RENDER: `n` turns of the loop, the retirement, and what is written (R260). -/
theorem render_eq_written (n : Nat) (s : State) : render Config.machine n s =
    (retire Config.machine (sampleState n s)).written (blockEvents Config.machine s.mono (sampleFrames n s))
      (render Config.machine n s).mem (BitVec.ofNat 32 n) := by
  have hframe := writeBlock_frame Config.machine s.mono (sampleFrames n s) (sampleState n s)
  rw [writeBlock_status] at hframe
  rw [render_mem, render, renderLoop_machine]
  conv_lhs => rw [hframe]
  rfl

/-- Settles O49: the voices are those of the turns, retired. -/
theorem renderRetiresInactiveVoices : Obligations.RenderRetiresInactiveVoices := by
  rintro n s v _ hn rfl
  refine ⟨_, execRender_next hn s, ?_⟩
  rw [render_voice, renderLoop_machine]
  rfl

/-- Settles O41: no turn of the loop is taken and an empty block is written. -/
theorem renderZeroOnlyRetires : Obligations.RenderZeroOnlyRetires := by
  refine ⟨by decide, fun s => (execRender_next (Nat.zero_le _) s).trans (congrArg Host.Outcome.next ?_)⟩
  have hwrite : writeBlock Config.machine s.mono [] s = s := by
    rw [writeBlock_frame, writeBlock_status]
    cases s.mono <;> exact congrArg (fun b => { s with status := b }) BitVec.or_zero
  rw [render, renderLoop_zero, hwrite]
  rfl

theorem Voice.turn_registers (c : Config) (z : F32) (x : Voice) :
    (x.turn c z).note = x.note ∧ (x.turn c z).panL = x.panL ∧ (x.turn c z).panR = x.panR := by
  unfold Voice.turn
  split <;> exact ⟨rfl, rfl, rfl⟩

theorem Voice.retire_registers (c : Config) (x : Voice) :
    (x.retire c).note = x.note ∧ (x.retire c).panL = x.panL ∧ (x.retire c).panR = x.panR := by
  unfold Voice.retire
  split <;> exact ⟨rfl, rfl, rfl⟩

/-- RENDER keeps NOTE and the pan gains of every voice. -/
theorem render_voice_registers (c : Config) (n : Nat) (s : State) (v : Fin maxVoices) :
    ((render c n s).voice v).note = (s.voice v).note ∧ ((render c n s).voice v).panL = (s.voice v).panL ∧
      ((render c n s).voice v).panR = (s.voice v).panR := by
  obtain ⟨hnote, hl, hr⟩ := Voice.retire_registers c ((renderLoop c n s).state.voice v)
  rw [render_voice, hnote, hl, hr]
  refine renderLoop_induct (P := fun t => (t.voice v).note = (s.voice v).note ∧ (t.voice v).panL = (s.voice v).panL ∧
    (t.voice v).panR = (s.voice v).panR) c (fun t ht => ?_) n s ⟨rfl, rfl, rfl⟩
  obtain ⟨hnote, hl, hr⟩ := Voice.turn_registers c (F32.fmul (noiseSample (noiseAdvance c t.noiseState)) t.noiseMix)
    (t.voice v)
  rwa [renderSample_voice, hnote, hl, hr]

/-- Settles O42: everything RENDER does, field by field, and what it keeps of each voice. -/
theorem renderAdvancesNoiseAndGain : Obligations.RenderAdvancesNoiseAndGain := by
  intro n s hn
  have hvoices := render_sameVoiceParameters Config.machine n s
  have hregs := render_voice_registers Config.machine n s
  refine ⟨_, execRender_next hn s, ?_⟩
  rw [render_eq] at hvoices hregs ⊢
  exact ⟨rfl, rfl, rfl, ⟨rfl, rfl, rfl, rfl, rfl, hvoices⟩, hregs, rfl, rfl⟩

/-! ### The words RENDER writes -/

/-- The clamped words of one channel: `f` of each of the first `n` samples of a RENDER that begins in `s` (R265, R267). -/
def clampedWords (f : Frame → F32) (n : Nat) (s : State) : List Word :=
  ((sampleFrames n s).map f).map (saneWord Config.machine)

@[simp] theorem clampedWords_length (f : Frame → F32) (n : Nat) (s : State) : (clampedWords f n s).length = n := by
  simp [clampedWords, sampleFrames]

theorem getElem_clampedWords (f : Frame → F32) {n i : Nat} (s : State) (hi : i < (clampedWords f n s).length) :
    (clampedWords f n s)[i] = saneWord Config.machine (f (sampleFrame i s)) := by
  simp [clampedWords, sampleFrames]

theorem readWord_writeWords_clampedWords (f : Frame → F32) {m : Memory} (hm : m.wf) (base : Nat) {n i : Nat} (hi : i < n)
    (s : State) : (m.writeWords base (clampedWords f n s)).readWord (base + 4 * i) =
      saneWord Config.machine (f (sampleFrame i s)) := by
  rw [Memory.readWord_writeWords_index _ m base i (by rwa [clampedWords_length]) hm, getElem_clampedWords]

theorem sampleState_succ (n : Nat) (s : State) :
    sampleState (n + 1) s = (renderSample Config.machine (sampleState n s)).state := Function.iterate_succ_apply' _ n s

theorem sampleState_mem (n : Nat) (s : State) : (sampleState n s).mem = s.mem := by
  rw [← renderLoop_mem Config.machine n s, renderLoop_machine]

/-- In stereo RENDER writes OUT_L, then OUT_R. -/
theorem render_mem_stereo (n : Nat) {s : State} (h : s.ctrl = 0#1) : (render Config.machine n s).mem =
    (s.mem.writeWords outLBase (clampedWords Frame.left n s)).writeWords outRBase (clampedWords Frame.right n s) := by
  rw [render_mem, mono_eq_false h, renderLoop_machine, writeBlock_stereo, putChannel_mem, putChannel_mem, sampleState_mem]
  rfl

/-- In mono RENDER writes OUT_L alone. -/
theorem render_mem_mono (n : Nat) {s : State} (h : s.ctrl = 1#1) : (render Config.machine n s).mem =
    s.mem.writeWords outLBase (clampedWords (Frame.mono Config.machine) n s) := by
  rw [render_mem, mono_eq_true h, renderLoop_machine, writeBlock_mono, putChannel_mem, sampleState_mem]
  rfl

theorem readWord_render_right {n : Nat} {s : State} (hm : s.mem.wf) (h : s.ctrl = 0#1) {i : Nat} (hi : i < n) :
    (render Config.machine n s).mem.readWord (outRBase + 4 * i) =
      saneWord Config.machine (sampleFrame i s).right := by
  rw [render_mem_stereo n h]
  exact readWord_writeWords_clampedWords _ (Memory.wf_writeWords _ _ _ hm) _ hi s

theorem readWord_render_left_stereo {n : Nat} (hn : n ≤ blockMax) {s : State} (hm : s.mem.wf) (h : s.ctrl = 0#1) {i : Nat}
    (hi : i < n) : (render Config.machine n s).mem.readWord (outLBase + 4 * i) =
      saneWord Config.machine (sampleFrame i s).left := by
  rw [render_mem_stereo n h, Memory.readWord_writeWords_apart _ _ _ _ (.inl (by
    simp only [blockMax, outLBase, outRBase] at *
    omega))]
  exact readWord_writeWords_clampedWords _ hm _ hi s

theorem readWord_render_left_mono {n : Nat} {s : State} (hm : s.mem.wf) (h : s.ctrl = 1#1) {i : Nat} (hi : i < n) :
    (render Config.machine n s).mem.readWord (outLBase + 4 * i) =
      saneWord Config.machine ((sampleFrame i s).mono Config.machine) := by
  rw [render_mem_mono n h]
  exact readWord_writeWords_clampedWords _ hm _ hi s

/-- Settles O45: the words written are the words read, and OUT_R begins past the words of OUT_L. -/
theorem stereoRenderWritesBothChannels : Obligations.StereoRenderWritesBothChannels := by
  refine fun n s hn hm h => ⟨_, execRender_next hn s, fun i hi =>
    ⟨readWord_render_left_stereo hn hm h hi, readWord_render_right hm h hi⟩, fun a ha => ?_⟩
  have hleft : a < outLBase ∨ outLBase + 4 * (clampedWords Frame.left n s).length ≤ a := by
    simp only [clampedWords_length, outLBase]
    omega
  have hright : a < outRBase ∨ outRBase + 4 * (clampedWords Frame.right n s).length ≤ a := by
    simp only [clampedWords_length, outRBase]
    omega
  rw [render_mem_stereo n h, Memory.readByte_writeWords_outside _ _ _ _ hright,
    Memory.readByte_writeWords_outside _ _ _ _ hleft]

/-- Settles O46: only the words of OUT_L are written. -/
theorem monoRenderWritesLeftOnly : Obligations.MonoRenderWritesLeftOnly := by
  refine fun n s hn hm h => ⟨_, execRender_next hn s, fun i hi => readWord_render_left_mono hm h hi, fun a ha => ?_⟩
  rw [render_mem_mono n h]
  exact Memory.readByte_writeWords_outside _ _ _ _ (by rwa [clampedWords_length])

end Sys2Proof.Machine
end

section
/-! PROOFS. Block splitting (spec/45_engine.md R271): no sample sees what a RENDER writes, nor whether the voices were retired
before it, so the samples of two RENDERs are those of one (O50). -/
namespace Sys2Proof.Machine
open Safety (sampleState sampleFrame)

/-! ### What is written does not reach the samples -/

theorem renderSample_written (s : State) (e : BitVec 7) (m : Memory) (len : Word) :
    renderSample Config.machine (s.written e m len) =
      ⟨(renderSample Config.machine s).state.written e m len, (renderSample Config.machine s).frame⟩ := by
  have hstatus : ∀ p : BitVec 7, s.status ||| e ||| p = s.status ||| p ||| e := fun p => by
    rw [BitVec.or_assoc, BitVec.or_comm e, BitVec.or_assoc]
  exact congrArg (fun status => SampleResult.mk { (renderSample Config.machine s).state.written e m len with
    status := status } (renderSample Config.machine s).frame) (hstatus _)

theorem sampleState_written (i : Nat) (s : State) (e : BitVec 7) (m : Memory) (len : Word) :
    sampleState i (s.written e m len) = (sampleState i s).written e m len := by
  have hturn : Function.Semiconj (fun t : State => t.written e m len) (fun t => (renderSample Config.machine t).state)
      fun t => (renderSample Config.machine t).state :=
    fun t => congrArg SampleResult.state (renderSample_written t e m len).symm
  exact (hturn.iterate_right i s).symm

/-! ### The retirement does not reach the samples -/

/-- A retired voice is active where it was before. -/
theorem Voice.retire_isActive (x : Voice) :
    (x.retire Config.machine).env.isActive Config.machine = x.env.isActive Config.machine := by
  rw [Voice.retire_env]
  cases h : x.env.isActive Config.machine with
  | true => rw [Env.retire_of_active h, h]
  | false => rw [Env.retire_of_inactive h, Env.clear_inactive]

theorem Voice.retire_of_active {c : Config} {x : Voice} (h : x.env.isActive c = true) : x.retire c = x := if_pos h

theorem Voice.turn_of_inactive {c : Config} {x : Voice} (z : F32) (h : x.env.isActive c = false) : x.turn c z = x :=
  if_neg (Bool.eq_false_iff.1 h)

/-- Retired before its turn or not, a voice is the same once it is retired after it. -/
theorem Voice.retire_turn_retire (z : F32) (x : Voice) :
    ((x.retire Config.machine).turn Config.machine z).retire Config.machine =
      (x.turn Config.machine z).retire Config.machine := by
  cases h : x.env.isActive Config.machine with
  | true => rw [Voice.retire_of_active h]
  | false =>
    rw [Voice.turn_of_inactive z ((Voice.retire_isActive x).trans h), Voice.turn_of_inactive z h, Voice.retire_retire]

/-- The mix passes over the voices a retirement changes. -/
theorem mix_retire (z : F32) (s : State) :
    (mix Config.machine z (retire Config.machine s).voices).left = (mix Config.machine z s.voices).left ∧
    (mix Config.machine z (retire Config.machine s).voices).right = (mix Config.machine z s.voices).right ∧
    (mix Config.machine z (retire Config.machine s).voices).plow = (mix Config.machine z s.voices).plow := by
  obtain ⟨hl, hr, hp⟩ := mix_sums Config.machine z s.voices
  obtain ⟨hl', hr', hp'⟩ := mix_sums Config.machine z (retire Config.machine s).voices
  have hactive : (fun v => ((retire Config.machine s).voices.get v).env.isActive Config.machine) =
      fun v => (s.voices.get v).env.isActive Config.machine := funext fun v =>
    (congrArg (fun x : Voice => x.env.isActive Config.machine) (vector_get_map _ _ _)).trans (Voice.retire_isActive _)
  have hsame : ∀ v ∈ voiceOrder.filter (fun v => (s.voices.get v).env.isActive Config.machine),
      (retire Config.machine s).voices.get v = s.voices.get v :=
    fun v hv => (vector_get_map _ _ _).trans (Voice.retire_of_active (List.mem_filter.1 hv).2)
  rw [hactive] at hl' hr' hp'
  refine ⟨?_, ?_, ?_⟩
  · rw [hl', hl]
    exact List.foldl_ext _ _ _ fun acc v hv => by rw [hsame v hv]
  · rw [hr', hr]
    exact List.foldl_ext _ _ _ fun acc v hv => by rw [hsame v hv]
  · rw [hp', hp, Bool.eq_iff_iff, List.any_eq_true, List.any_eq_true]
    exact exists_congr fun v => and_congr_right fun hv => by rw [hsame v hv]

theorem renderSample_retire_frame (s : State) :
    (renderSample Config.machine (retire Config.machine s)).frame = (renderSample Config.machine s).frame := by
  obtain ⟨hl, hr, -⟩ := mix_retire (F32.fmul (noiseSample (noiseAdvance Config.machine s.noiseState)) s.noiseMix) s
  rw [renderSample_frame, renderSample_frame, retire_noiseState, retire_noiseMix, hl, hr]
  rfl

theorem retire_renderSample_retire (s : State) :
    retire Config.machine (renderSample Config.machine (retire Config.machine s)).state =
      retire Config.machine (renderSample Config.machine s).state := by
  obtain ⟨-, -, hp⟩ := mix_retire (F32.fmul (noiseSample (noiseAdvance Config.machine s.noiseState)) s.noiseMix) s
  apply State.ext_voices
  case h1 => rw [retire_status, retire_status, renderSample_status, renderSample_status, retire_noiseState,
    retire_noiseMix, hp, retire_status]
  case h9 =>
    intro v
    rw [State.voice_retire, State.voice_retire, renderSample_voice, renderSample_voice, State.voice_retire]
    exact Voice.retire_turn_retire _ _
  all_goals simp

theorem retire_retire (s : State) : retire Config.machine (retire Config.machine s) = retire Config.machine s :=
  State.ext_voices rfl rfl rfl rfl rfl rfl rfl rfl rfl
    (fun v => by rw [State.voice_retire, State.voice_retire, Voice.retire_retire]) rfl rfl rfl

theorem retire_sampleState_retire (i : Nat) (s : State) :
    retire Config.machine (sampleState i (retire Config.machine s)) = retire Config.machine (sampleState i s) := by
  induction i with
  | zero => exact retire_retire s
  | succ i ih =>
    rw [sampleState_succ, sampleState_succ, ← retire_renderSample_retire, ih, retire_renderSample_retire]

theorem sampleFrame_retire (i : Nat) (s : State) : sampleFrame i (retire Config.machine s) = sampleFrame i s := by
  rw [sampleFrame, ← renderSample_retire_frame, retire_sampleState_retire, renderSample_retire_frame, sampleFrame]

/-! ### The samples of two RENDERs -/

theorem sampleState_add (a i : Nat) (s : State) : sampleState i (sampleState a s) = sampleState (a + i) s := by
  rw [sampleState, sampleState, ← Function.iterate_add_apply, Nat.add_comm, sampleState]

/-- The samples of the second RENDER go on where those of the first ended (R271). -/
theorem sampleFrame_render (a i : Nat) (s : State) :
    sampleFrame i (render Config.machine a s) = sampleFrame (a + i) s := by
  rw [render_eq_written, sampleFrame, sampleState_written, renderSample_written]
  show sampleFrame i (retire Config.machine (sampleState a s)) = _
  rw [sampleFrame_retire, sampleFrame, sampleState_add, sampleFrame]

theorem sampleFrames_add (a b : Nat) (s : State) :
    sampleFrames (a + b) s = sampleFrames a s ++ sampleFrames b (render Config.machine a s) := by
  simp only [sampleFrames, sampleFrame_render, List.range_add, List.map_append, List.map_map]
  rfl

/-- The voices and the shared registers of the second RENDER go on where those of the first ended (R271). -/
theorem retire_sampleState_render (a b : Nat) (s : State) :
    retire Config.machine (sampleState b (render Config.machine a s)) =
      (retire Config.machine (sampleState (a + b) s)).written
        (blockEvents Config.machine s.mono (sampleFrames a s)) (render Config.machine a s).mem (BitVec.ofNat 32 a) := by
  conv_lhs => rw [render_eq_written, sampleState_written]
  rw [← sampleState_add]
  exact congrArg (fun t => State.written t _ _ _) (retire_sampleState_retire b (sampleState a s))

theorem channelEvents_append (c : Config) (xs ys : List F32) :
    channelEvents c (xs ++ ys) = channelEvents c xs ||| channelEvents c ys := by
  refine BitVec.eq_of_getLsbD_eq fun k _ => Bool.eq_iff_iff.2 ?_
  rw [BitVec.getLsbD_or, Bool.or_eq_true, channelEvents_getLsbD, channelEvents_getLsbD, channelEvents_getLsbD]
  simp only [List.mem_append, or_and_right, exists_or]

theorem blockEvents_append (c : Config) (mono : Bool) (fs gs : List Frame) :
    blockEvents c mono (fs ++ gs) = blockEvents c mono fs ||| blockEvents c mono gs := by
  cases mono with
  | true => simp only [blockEvents, if_true, List.map_append, channelEvents_append]
  | false =>
    simp only [blockEvents, Bool.false_eq_true, if_false, List.map_append, channelEvents_append]
    ac_rfl

theorem render_mono (c : Config) (n : Nat) (s : State) : (render c n s).mono = s.mono := by
  rw [render_eq]
  rfl

/-- RENDER `a` then RENDER `b` leave every register as RENDER `a + b` does, but for BLOCK_LEN. -/
theorem render_render (a b : Nat) (s : State) :
    render Config.machine b (render Config.machine a s) =
      { render Config.machine (a + b) s with
        mem := (render Config.machine b (render Config.machine a s)).mem, blockLen := BitVec.ofNat 32 b } := by
  rw [render_eq_written (a + b), sampleFrames_add, blockEvents_append]
  conv_lhs => rw [render_eq_written, retire_sampleState_render, render_mono]
  refine State.ext_voices rfl ?_ rfl rfl rfl rfl rfl rfl rfl (fun _ => rfl) rfl rfl rfl
  exact BitVec.or_assoc _ _ _

/-! ### Their words -/

theorem wf_render {n : Nat} (hn : n ≤ blockMax) {s : State} (hs : s.mem.wf) : (render Config.machine n s).mem.wf :=
  render_mem_induct hn s (fun _ _ _ _ _ hm => Memory.wf_writeWords _ _ _ hm) hs

/-- The word of OUT_L a sample gives in either mode. -/
def Frame.outL (mono : Bool) (f : Frame) : F32 := if mono then f.mono Config.machine else f.left

theorem Frame.outL_true (f : Frame) : f.outL true = f.mono Config.machine := rfl

theorem Frame.outL_false (f : Frame) : f.outL false = f.left := rfl

theorem readWord_render_left {n : Nat} (hn : n ≤ blockMax) {s : State} (hm : s.mem.wf) {i : Nat} (hi : i < n) :
    (render Config.machine n s).mem.readWord (outLBase + 4 * i) =
      saneWord Config.machine ((sampleFrame i s).outL s.mono) := by
  rcases BitVec.eq_zero_or_eq_one s.ctrl with h | h
  · rw [readWord_render_left_stereo hn hm h hi, mono_eq_false h, Frame.outL_false]
  · rw [readWord_render_left_mono hm h hi, mono_eq_true h, Frame.outL_true]

theorem render_ctrl_eq (c : Config) (n : Nat) (s : State) : (render c n s).ctrl = s.ctrl := by rw [render_eq]

/-- Settles O50: the registers by `render_render`, the words by the samples they are of. -/
theorem blockSplitting : Obligations.BlockSplitting := by
  intro a b s hab hm
  have ha : a ≤ blockMax := (Nat.le_add_right a b).trans hab
  have hb : b ≤ blockMax := (Nat.le_add_left b a).trans hab
  have hm' := wf_render ha hm
  refine ⟨_, _, _, execRender_next ha s, execRender_next hb _, execRender_next hab s, rfl, rfl, ?_, fun i hi => ⟨?_, ?_⟩,
    fun i hi => ⟨?_, ?_⟩⟩
  · rw [render_render]
  · exact (readWord_render_left ha hm hi).trans (readWord_render_left hab hm (by omega)).symm
  · exact fun h => (readWord_render_right hm h hi).trans (readWord_render_right hm h (by omega)).symm
  · have hleft := readWord_render_left hb hm' hi
    rw [sampleFrame_render, render_mono] at hleft
    exact hleft.trans (readWord_render_left hab hm (by omega)).symm
  · intro h
    have hright := readWord_render_right hm' ((render_ctrl_eq _ a s).trans h) hi
    rw [sampleFrame_render] at hright
    exact hright.trans (readWord_render_right hm h (by omega)).symm

end Sys2Proof.Machine
end

section
/-! PROOFS. RENDER with no voice active, and the gain that stands at OUT_TARGET: the silent RENDER after ENGINE_RESET
(spec/45_engine.md R274; O51). -/
namespace Sys2Proof

namespace F32

/-! ### Zeros, and data that are not finite -/

theorem isNaN_or_isInf_of_not_isFinite {a : F32} (h : isFinite a = false) : isNaN a = true ∨ isInf a = true := by
  rw [Bool.eq_false_iff, ne_eq, isFinite_iff] at h
  rw [isNaN_iff, isInf_iff]
  omega

theorem signBit_fneg (a : F32) : signBit (fneg a) = !signBit a := getLsbD_fneg a 31

theorem isFinite_zero (b : Bool) : isFinite (zero b) = true := by cases b <;> decide

theorem units_zero (b : Bool) : units (zero b) = 0 := by cases b <;> decide

theorem signBit_zero (b : Bool) : signBit (zero b) = b := by cases b <;> decide

theorem eq_zero_of_units {a : F32} (h : units a = 0) : a = zero (signBit a) := by
  have hle : mag a ≤ mag 0#32 := by rw [(mag_eq_zero_iff a).2 h]; exact Nat.zero_le _
  have hlow : a.toNat % 2 ^ 31 = 0 := Nat.le_zero.1 ((mag_le_iff a 0#32).1 hle)
  have ha := a.isLt
  have hsign := signBit_iff a
  apply BitVec.eq_of_toNat_eq
  cases hs : signBit a with
  | true =>
    have hge := hsign.1 hs
    show a.toNat = 2 ^ 31
    omega
  | false =>
    have hlt : ¬2 ^ 31 ≤ a.toNat := fun h => Bool.eq_false_iff.1 hs (hsign.2 h)
    show a.toNat = 0
    omega

/-- A finite datum less itself is +0.0. -/
theorem fsub_self {a : F32} (h : isFinite a = true) : fsub a a = zero false := by
  rw [fsub, fadd_exact_zero h ((isFinite_fneg a).trans h) (by rw [units_fneg]; omega), signBit_fneg, Bool.and_not_self]

theorem fmul_zero {a : F32} (h : isFinite a = true) (b : Bool) : fmul a (zero b) = zero (signBit a != b) := by
  have hmag : mag (zero b) = 0 := (mag_eq_zero_iff _).2 (units_zero b)
  rw [fmul_of_finite h (isFinite_zero b), hmag, Nat.mul_zero, signBit_zero]
  cases (signBit a != b) <;> decide +kernel

theorem fadd_zero_zero (a b : Bool) : fadd (zero a) (zero b) = zero (a && b) := by
  rw [fadd_exact_zero (isFinite_zero a) (isFinite_zero b) (by rw [units_zero, units_zero]; rfl), signBit_zero, signBit_zero]

/-- A zero added to a finite datum of another value leaves it. -/
theorem zero_fadd {a : F32} (h : isFinite a = true) (h0 : units a ≠ 0) (b : Bool) : fadd (zero b) a = a := by
  have hsum : units (zero b) + units a = units a := by rw [units_zero, Int.zero_add]
  have hle := natAbs_units_le h
  have hu := fadd_exact (isFinite_zero b) h (by rw [hsum]; omega) (by rw [hsum]; exact representable_units a)
  rw [hsum] at hu
  exact eq_of_units_eq hu (by rwa [hu])

/-- A datum that is not finite less itself is a NaN. -/
theorem fsub_self_of_not_isFinite {a : F32} (h : isFinite a = false) : fsub a a = canonNaN := by
  rcases isNaN_or_isInf_of_not_isFinite h with hn | hi
  · exact fsub_of_nan (.inl hn)
  · have hi' : isInf (fneg a) = true := by rw [isInf_iff, toNat_fneg_mod, ← isInf_iff, hi]
    rw [fsub, fadd_inf_inf hi hi', signBit_fneg, if_neg (by simp)]

/-- A datum that is not finite times a zero is a NaN. -/
theorem fmul_zero_of_not_isFinite {a : F32} (h : isFinite a = false) (b : Bool) : fmul a (zero b) = canonNaN := by
  rcases isNaN_or_isInf_of_not_isFinite h with hn | hi
  · exact fmul_of_nan (.inl hn)
  · rw [fmul_inf_finite hi (isFinite_zero b), if_pos (units_zero b)]

theorem isNaN_canonNaN : isNaN canonNaN = true := by decide

end F32

namespace Machine
open Safety (sampleState sampleFrame)

/-! ### The gain at its target -/

theorem onePole_of_nan (mult target : F32) : onePole mult F32.canonNaN target = F32.canonNaN := by
  rw [onePole, F32.fsub_of_nan (.inl F32.isNaN_canonNaN), F32.fmul_of_nan (.inr F32.isNaN_canonNaN),
    F32.fadd_of_nan (.inl F32.isNaN_canonNaN)]

theorem onePole_target_of_not_finite {mult target : F32}
    (h : (F32.isFinite target && F32.isFinite mult) = false) : onePole mult target target = F32.canonNaN := by
  have hproduct : F32.fmul mult (F32.fsub target target) = F32.canonNaN := by
    cases ht : F32.isFinite target with
    | false => rw [F32.fsub_self_of_not_isFinite ht, F32.fmul_of_nan (.inr F32.isNaN_canonNaN)]
    | true =>
      rw [ht, Bool.true_and] at h
      rw [F32.fsub_self ht, F32.fmul_zero_of_not_isFinite h]
  rw [onePole, hproduct, F32.fadd_of_nan (.inl F32.isNaN_canonNaN)]

section
variable {mult target : F32} (hm : F32.isFinite mult = true) (ht : F32.isFinite target = true)
include hm ht

/-- From its target the smoother stays there, but that from -0.0 it goes to the zero of the multiplier's sign (R274, log 12). -/
theorem onePole_target_of_finite : onePole mult target target =
    if target = 0x80000000#32 then F32.zero (F32.signBit mult) else target := by
  rw [onePole, F32.fsub_self ht, F32.fmul_zero hm, Bool.bne_false]
  by_cases h0 : F32.units target = 0
  · rw [F32.eq_zero_of_units h0, F32.fadd_zero_zero]
    cases F32.signBit target with
    | true => rw [Bool.and_true]; rfl
    | false => rw [Bool.and_false]; rfl
  · have hne : target ≠ 0x80000000#32 := by
      rintro rfl
      exact h0 (F32.units_zero true)
    rw [F32.zero_fadd ht h0, if_neg hne]

theorem isFinite_onePole_target : F32.isFinite (onePole mult target target) = true := by
  rw [onePole_target_of_finite hm ht]
  split
  · exact F32.isFinite_zero _
  · exact ht

theorem onePole_settles_of_finite :
    onePole mult (onePole mult target target) target = onePole mult target target := by
  by_cases hneg : target = 0x80000000#32
  · have hstep : onePole mult (F32.zero (F32.signBit mult)) (F32.zero true) = F32.zero (F32.signBit mult) := by
      have hdiff : F32.fsub (F32.zero (F32.signBit mult)) (F32.zero true) = F32.zero false := by
        cases F32.signBit mult <;> decide +kernel
      rw [onePole, hdiff, F32.fmul_zero hm, Bool.bne_false, F32.fadd_zero_zero, Bool.and_true]
    rw [onePole_target_of_finite hm ht, if_pos hneg, hneg]
    exact hstep
  · have hstep : onePole mult target target = target := by rw [onePole_target_of_finite hm ht, if_neg hneg]
    rw [hstep, hstep]

end

/-- One step from its target the smoother has settled, whatever the operands are. -/
theorem onePole_settles (mult target : F32) :
    onePole mult (onePole mult target target) target = onePole mult target target := by
  cases h : F32.isFinite target && F32.isFinite mult with
  | true =>
    obtain ⟨ht, hm⟩ := Bool.and_eq_true_iff.1 h
    exact onePole_settles_of_finite hm ht
  | false => rw [onePole_target_of_not_finite h, onePole_of_nan]

/-! ### The sample that no voice adds to -/

/-- Either channel of a sample without an active voice, the gain settled at OUT_TARGET: the empty sum, scaled (R263, R264). -/
def silentSample (mult target : F32) : F32 := F32.fmul F32.f0 (onePole mult target target)

theorem silentSample_of_finite {mult target : F32} (h : (F32.isFinite target && F32.isFinite mult) = true) :
    silentSample mult target =
      F32.zero (if target = 0x80000000#32 then F32.signBit mult else F32.signBit target) := by
  obtain ⟨ht, hm⟩ := Bool.and_eq_true_iff.1 h
  rw [silentSample, F32.fmul_comm]
  refine (F32.fmul_zero (isFinite_onePole_target hm ht) false).trans ?_
  rw [Bool.bne_false, onePole_target_of_finite hm ht, apply_ite F32.signBit, F32.signBit_zero]

theorem silentSample_of_not_finite {mult target : F32} (h : (F32.isFinite target && F32.isFinite mult) = false) :
    silentSample mult target = F32.canonNaN := by
  rw [silentSample, onePole_target_of_not_finite h, F32.fmul_of_nan (.inr F32.isNaN_canonNaN)]

/-- What the clamp makes of a zero, and the mean of two equal zeros (R265, R267). -/
theorem sane_zero (b : Bool) : saneWord Config.machine (F32.zero b) = F32.zero b ∧
    saneEvents Config.machine (F32.zero b) = 0#7 ∧
    Frame.mono Config.machine ⟨F32.zero b, F32.zero b⟩ = F32.zero b := by
  obtain ⟨hword, hevents⟩ := sane_of_in_range (x := F32.zero b) (by cases b <;> decide +kernel)
    (by cases b <;> decide +kernel)
  refine ⟨hword, hevents, ?_⟩
  rw [Frame.mono, F32.fadd_zero_zero, Bool.and_self]
  cases b <;> decide +kernel

/-- What the clamp makes of a NaN, and the mean of two NaNs (R265, R267). -/
theorem sane_canonNaN : saneWord Config.machine F32.canonNaN = 0#32 ∧
    saneEvents Config.machine F32.canonNaN = 0x60#7 ∧
    Frame.mono Config.machine ⟨F32.canonNaN, F32.canonNaN⟩ = F32.canonNaN := by
  obtain ⟨hword, hevents⟩ := sane_of_nonfinite (.inl F32.isNaN_canonNaN)
  refine ⟨hword, hevents, ?_⟩
  rw [Frame.mono, F32.fadd_of_nan (.inl F32.isNaN_canonNaN), F32.fmul_of_nan (.inl F32.isNaN_canonNaN)]

/-- The word the clamp makes of the silent sample, the bits it flags, and its mono mean (R265, R267, R274). -/
theorem sane_silentSample (mult target : F32) :
    saneWord Config.machine (silentSample mult target) =
      (if (F32.isFinite target && F32.isFinite mult) = true then
        F32.zero (if target = 0x80000000#32 then F32.signBit mult else F32.signBit target) else 0#32) ∧
    saneEvents Config.machine (silentSample mult target) =
      (if (F32.isFinite target && F32.isFinite mult) = true then 0#7 else 0x60#7) ∧
    Frame.mono Config.machine ⟨silentSample mult target, silentSample mult target⟩ = silentSample mult target := by
  cases h : F32.isFinite target && F32.isFinite mult with
  | true =>
    rw [silentSample_of_finite h, if_pos rfl, if_pos rfl]
    exact sane_zero _
  | false =>
    rw [silentSample_of_not_finite h, if_neg Bool.false_ne_true, if_neg Bool.false_ne_true]
    exact sane_canonNaN

/-! ### RENDER with no voice active -/

/-- No voice is active. -/
def State.Silent (s : State) : Prop := ∀ v, (s.voice v).env.isActive Config.machine = false

theorem mix_of_silent {s : State} (hs : s.Silent) (z : F32) :
    mix Config.machine z s.voices = ⟨s.voices, F32.f0, F32.f0, false⟩ :=
  List.foldl_fixed' (fun v => if_neg (Bool.eq_false_iff.1 (hs v))) voiceOrder

theorem renderSample_of_silent {s : State} (hs : s.Silent) : renderSample Config.machine s =
    ⟨{ s with noiseState := noiseAdvance Config.machine s.noiseState, outGain := onePole s.outMul s.outGain s.outTarget },
      ⟨F32.fmul F32.f0 (onePole s.outMul s.outGain s.outTarget),
        F32.fmul F32.f0 (onePole s.outMul s.outGain s.outTarget)⟩⟩ := by
  have hstatus : s.status ||| Event.plow.maskIf false = s.status := BitVec.or_zero
  rw [renderSample, mix_of_silent hs, State.flagIf, State.raise, hstatus]

/-- Without an active voice the turns draw noise and move the gain, and do nothing else. -/
theorem sampleState_of_silent {s : State} (hs : s.Silent) (i : Nat) : sampleState i s = { s with
    noiseState := (noiseAdvance Config.machine)^[i] s.noiseState
    outGain := (fun g => onePole s.outMul g s.outTarget)^[i] s.outGain } := by
  induction i with
  | zero => rfl
  | succ i ih =>
    rw [sampleState_succ, ih, renderSample_of_silent (by exact hs), Function.iterate_succ_apply', Function.iterate_succ_apply']

/-- Without an active voice, and from a gain at OUT_TARGET, every sample is the same. -/
theorem sampleFrame_of_silent {s : State} (hs : s.Silent) (hg : s.outGain = s.outTarget) (i : Nat) :
    sampleFrame i s = ⟨silentSample s.outMul s.outTarget, silentSample s.outMul s.outTarget⟩ := by
  have hgain : onePole s.outMul ((fun g => onePole s.outMul g s.outTarget)^[i] s.outGain) s.outTarget =
      onePole s.outMul s.outTarget s.outTarget := by
    rw [hg, ← Function.iterate_succ_apply' (fun g => onePole s.outMul g s.outTarget), Function.iterate_succ_apply]
    exact Function.iterate_fixed (onePole_settles _ _) i
  rw [sampleFrame, sampleState_of_silent hs, renderSample_of_silent (by exact hs), hgain]
  rfl

theorem channelEvents_replicate (c : Config) (n : Nat) (x : F32) :
    channelEvents c (List.replicate n x) = if n = 0 then 0#7 else saneEvents c x := by
  cases n with
  | zero => rfl
  | succ n =>
    refine BitVec.eq_of_getLsbD_eq fun k _ => Bool.eq_iff_iff.2 ?_
    rw [channelEvents_getLsbD, if_neg (Nat.succ_ne_zero n)]
    simp

/-- A block of one word everywhere flags what the clamp flags for that word. -/
theorem blockEvents_replicate (mono : Bool) (n : Nat) {x : F32} (hx : Frame.mono Config.machine ⟨x, x⟩ = x) :
    blockEvents Config.machine mono (List.replicate n ⟨x, x⟩) = if n = 0 then 0#7 else saneEvents Config.machine x := by
  cases mono with
  | true => rw [blockEvents, if_pos rfl, List.map_replicate, hx, channelEvents_replicate]
  | false =>
    rw [blockEvents, if_neg Bool.false_ne_true, List.map_replicate, List.map_replicate, channelEvents_replicate,
      BitVec.or_self]

section
variable {s : State} (hs : s.Silent) (hg : s.outGain = s.outTarget)
include hs

theorem render_silent (n : Nat) : (render Config.machine n s).Silent := by
  intro v
  rw [render_voice, Voice.retire_isActive, renderLoop_machine, sampleState_of_silent hs]
  exact hs v

include hg

theorem render_silent_status (n : Nat)
    (hx : Frame.mono Config.machine ⟨silentSample s.outMul s.outTarget, silentSample s.outMul s.outTarget⟩ =
      silentSample s.outMul s.outTarget) : (render Config.machine n s).status =
    s.status ||| if n = 0 then 0#7 else saneEvents Config.machine (silentSample s.outMul s.outTarget) := by
  have hframes : sampleFrames n s =
      List.replicate n ⟨silentSample s.outMul s.outTarget, silentSample s.outMul s.outTarget⟩ := by
    simp only [sampleFrames, sampleFrame_of_silent hs hg, List.map_const', List.length_range]
  rw [render_eq_written, hframes, blockEvents_replicate _ _ hx, sampleState_of_silent hs]
  rfl

/-- The one word that a silent RENDER writes. -/
theorem render_silent_words {n : Nat} (hn : n ≤ blockMax) (hm : s.mem.wf)
    (hx : Frame.mono Config.machine ⟨silentSample s.outMul s.outTarget, silentSample s.outMul s.outTarget⟩ =
      silentSample s.outMul s.outTarget) {i : Nat} (hi : i < n) :
    (render Config.machine n s).mem.readWord (outLBase + 4 * i) =
      saneWord Config.machine (silentSample s.outMul s.outTarget) ∧
    (s.ctrl = 0#1 → (render Config.machine n s).mem.readWord (outRBase + 4 * i) =
      saneWord Config.machine (silentSample s.outMul s.outTarget)) := by
  refine ⟨?_, fun h => ?_⟩
  · rw [readWord_render_left hn hm hi, sampleFrame_of_silent hs hg]
    cases s.mono with
    | true => rw [Frame.outL_true, hx]
    | false => rw [Frame.outL_false]
  · rw [readWord_render_right hm h hi, sampleFrame_of_silent hs hg]

end

theorem engineReset_silent (s : State) : (engineReset Config.machine s).Silent := by
  intro v
  rw [State.voice_engineReset, Voice.engineReset_env]
  exact Env.clear_inactive _

/-- Settles O51: ENGINE_RESET leaves no voice active and the gain at OUT_TARGET; the one sample is a zero where the gains are
finite, and a NaN where they are not. -/
theorem silentRenderAfterEngineReset : Obligations.SilentRenderAfterEngineReset := by
  rintro n s _ _ hn hm rfl rfl
  have hs := engineReset_silent s
  obtain ⟨hword, hevents, hmono⟩ := sane_silentSample s.outMul s.outTarget
  refine ⟨_, _, exec_engineReset s, execRender_next hn _, fun i hi => ?_, ?_, render_silent hs n⟩
  · rw [← hword]
    exact render_silent_words hs rfl hn hm hmono hi
  · refine (render_silent_status hs rfl n hmono).trans ?_
    rw [engineReset_status, engineReset_outMul, engineReset_outTarget, hevents]
    by_cases hzero : n = 0
    · rw [if_pos hzero, if_pos (.inr hzero), BitVec.or_zero]
    · cases F32.isFinite s.outTarget && F32.isFinite s.outMul with
      | true => rw [if_neg hzero, if_pos rfl, if_pos (.inl rfl), BitVec.or_zero]
      | false => rw [if_neg hzero, if_neg Bool.false_ne_true, if_neg (by simp [hzero])]

end Machine
end Sys2Proof
end

section
/-! PROOFS. The STATUS bits RENDER sets (spec/43_oscillator.md R211, spec/45_engine.md R263, R267, spec/60_exceptions.md
R300–R302): PLOW by the samples' mixes, then what the clamp flags (O48). -/
namespace Sys2Proof.Machine
open Safety (sampleState sampleFrame)

/-! ### PLOW of one sample -/

/-- A continued step flags nothing and a reseed flags a PERIOD below MIN_PERIOD (R211). -/
theorem Osc.step_plow (c : Config) (x : Osc) (h : (x.step c).plow = true) : F32.fge x.period c.minPeriod = false := by
  cases hphase : F32.fle (F32.fadd x.phase x.inc) c.reseedT with
  | true =>
    rw [Osc.step_of_fle c hphase] at h
    exact (Bool.not_eq_true' _).mp h
  | false =>
    rw [Osc.step_of_not_fle c hphase] at h
    cases h

theorem Voice.step_plow_iff (c : Config) (z : F32) (x : Voice) :
    (x.step c z).plow = true ↔ ∃ o, ((x.oscOf o).step c).plow = true :=
  Bool.or_eq_true_iff.trans (Fin.exists_fin_two (p := fun o => ((x.oscOf o).step c).plow = true)).symm

/-- The mix of the sample that begins in `s` flags PLOW (R263). -/
def samplePlow (s : State) : Bool :=
  (mix Config.machine (F32.fmul (noiseSample (noiseAdvance Config.machine s.noiseState)) s.noiseMix) s.voices).plow

theorem renderSample_status_samplePlow (s : State) :
    (renderSample Config.machine s).state.status = s.status ||| Event.plow.maskIf (samplePlow s) := rfl

theorem samplePlow_iff (s : State) : samplePlow s = true ↔ ∃ v o,
    (s.voice v).env.isActive Config.machine = true ∧ (((s.voice v).oscOf o).step Config.machine).plow = true := by
  obtain ⟨-, -, hplow⟩ := mix_sums Config.machine
    (F32.fmul (noiseSample (noiseAdvance Config.machine s.noiseState)) s.noiseMix) s.voices
  rw [samplePlow, hplow, List.any_eq_true]
  refine exists_congr fun v => ?_
  rw [List.mem_filter, Voice.step_plow_iff, exists_and_left]
  exact and_congr_left fun _ => and_iff_right (mem_voiceOrder v)

/-- Duty H3's bound on PERIOD, in every voice that is active (R342). -/
def State.PeriodsHigh (s : State) : Prop := ∀ v o, (s.voice v).env.isActive Config.machine = true →
  F32.fge ((s.voice v).oscOf o).period Config.machine.minPeriod = true

/-- No sample makes a voice active or moves a PERIOD. -/
theorem State.PeriodsHigh.after_samples {s : State} (hs : s.PeriodsHigh) (n : Nat) : (sampleState n s).PeriodsHigh := by
  induction n with
  | zero => exact hs
  | succ n ih =>
    intro v o hactive
    rw [sampleState_succ, renderSample_voice] at hactive ⊢
    rw [(Voice.turn_sameParameters _ _ _).period o]
    refine ih v o ?_
    by_contra hidle
    rw [Voice.turn_of_inactive _ (Bool.eq_false_iff.2 hidle)] at hactive
    exact hidle hactive

theorem State.PeriodsHigh.not_samplePlow {s : State} (hs : s.PeriodsHigh) : samplePlow s = false := by
  refine Bool.eq_false_iff.2 fun h => ?_
  obtain ⟨v, o, hactive, hplow⟩ := (samplePlow_iff s).1 h
  exact Bool.false_ne_true ((Osc.step_plow _ _ hplow).symm.trans (hs v o hactive))

/-! ### The bits the clamp flags -/

theorem saneEvents_cases (c : Config) (x : F32) :
    saneEvents c x = 0x60#7 ∨ saneEvents c x = 0x20#7 ∨ saneEvents c x = 0x10#7 ∨ saneEvents c x = 0#7 := by
  unfold saneEvents
  split_ifs
  · exact .inl rfl
  · exact .inr (.inl rfl)
  · exact .inr (.inr (.inl rfl))
  · exact .inr (.inr (.inl rfl))
  · exact .inr (.inr (.inr rfl))

/-- The clamp flags none of ILLEGAL, BUSERR, HAZ and PLOW, and NONFINITE only with MUTED (R302). -/
theorem saneEvents_bits (c : Config) (x : F32) :
    (∀ k < 4, (saneEvents c x).getLsbD k = false) ∧
    ((saneEvents c x).getLsbD 6 = true → (saneEvents c x).getLsbD 5 = true) := by
  rcases saneEvents_cases c x with h | h | h | h <;> rw [h] <;> decide

/-- The samples of a frame that the clamp passes over: left and right in stereo, their mean in mono (R265). -/
def Frame.samples (c : Config) (mono : Bool) (f : Frame) : List F32 := if mono then [f.mono c] else [f.left, f.right]

/-- A bit is flagged over a block when it is flagged for a sample of one of its frames. -/
theorem blockEvents_getLsbD (c : Config) (mono : Bool) (fs : List Frame) (k : Nat) :
    (blockEvents c mono fs).getLsbD k = true ↔ ∃ f ∈ fs, ∃ x ∈ f.samples c mono, (saneEvents c x).getLsbD k = true := by
  cases mono with
  | true => simp [blockEvents, channelEvents_getLsbD, Frame.samples]
  | false => simp [blockEvents, channelEvents_getLsbD, Frame.samples, and_or_left, exists_or]

theorem blockEvents_low (c : Config) (mono : Bool) (fs : List Frame) {k : Nat} (hk : k < 4) :
    (blockEvents c mono fs).getLsbD k = false := by
  refine Bool.eq_false_iff.2 fun h => ?_
  obtain ⟨f, -, x, -, hx⟩ := (blockEvents_getLsbD c mono fs k).1 h
  exact Bool.false_ne_true (((saneEvents_bits c x).1 k hk).symm.trans hx)

theorem blockEvents_muted_of_nonfinite (c : Config) (mono : Bool) (fs : List Frame)
    (h : (blockEvents c mono fs).getLsbD 6 = true) : (blockEvents c mono fs).getLsbD 5 = true := by
  obtain ⟨f, hf, x, hx, h6⟩ := (blockEvents_getLsbD c mono fs 6).1 h
  exact (blockEvents_getLsbD c mono fs 5).2 ⟨f, hf, x, hx, (saneEvents_bits c x).2 h6⟩

/-! ### STATUS after RENDER -/

/-- One of the first `n` samples of a RENDER that begins in `s` flags PLOW. -/
def samplesPlow (n : Nat) (s : State) : Bool := (List.range n).any fun i => samplePlow (sampleState i s)

theorem samplesPlow_iff (n : Nat) (s : State) : samplesPlow n s = true ↔ ∃ i < n, samplePlow (sampleState i s) = true := by
  simp only [samplesPlow, List.any_eq_true, List.mem_range]

theorem State.PeriodsHigh.not_samplesPlow {s : State} (hs : s.PeriodsHigh) (n : Nat) : samplesPlow n s = false := by
  refine Bool.eq_false_iff.2 fun h => ?_
  obtain ⟨i, -, hi⟩ := (samplesPlow_iff n s).1 h
  exact Bool.false_ne_true ((hs.after_samples i).not_samplePlow.symm.trans hi)

theorem or_maskIf_or (status : BitVec 7) (e : Event) (a b : Bool) :
    status ||| e.maskIf a ||| e.maskIf b = status ||| e.maskIf (a || b) := by
  cases a <;> cases b <;> simp [Event.maskIf, BitVec.or_assoc]

theorem sampleState_status (n : Nat) (s : State) :
    (sampleState n s).status = s.status ||| Event.plow.maskIf (samplesPlow n s) := by
  induction n with
  | zero => exact BitVec.or_zero.symm
  | succ n ih =>
    have hlast : samplesPlow (n + 1) s = (samplesPlow n s || samplePlow (sampleState n s)) := by
      simp [samplesPlow, List.range_succ]
    rw [sampleState_succ, renderSample_status_samplePlow, ih, or_maskIf_or, hlast]

theorem render_status_raised (n : Nat) (s : State) : (render Config.machine n s).status =
    s.status ||| (Event.plow.maskIf (samplesPlow n s) ||| blockEvents Config.machine s.mono (sampleFrames n s)) := by
  rw [render_status, renderLoop_machine, writeBlock_status, sampleState_status, BitVec.or_assoc]

/-- PLOW is bit 3 (R34). -/
theorem getLsbD_plow_maskIf (b : Bool) (k : Nat) : (Event.plow.maskIf b).getLsbD k = true ↔ k = 3 ∧ b = true := by
  cases b with
  | false => simp [Event.maskIf]
  | true =>
    have hmask : Event.plow.maskIf true = BitVec.twoPow 7 3 := rfl
    rw [hmask, BitVec.getLsbD_twoPow]
    simp [eq_comm]

/-- The bits of STATUS after RENDER, of the samples it makes (R300). -/
theorem getLsbD_render_status (n : Nat) (s : State) (k : Nat) : (render Config.machine n s).status.getLsbD k = true ↔
    s.status.getLsbD k = true ∨ (k = 3 ∧ ∃ i < n, samplePlow (sampleState i s) = true) ∨
      ∃ i < n, ∃ x ∈ (sampleFrame i s).samples Config.machine s.mono, (saneEvents Config.machine x).getLsbD k = true := by
  rw [render_status_raised, BitVec.getLsbD_or, BitVec.getLsbD_or, Bool.or_eq_true, Bool.or_eq_true, getLsbD_plow_maskIf,
    samplesPlow_iff, blockEvents_getLsbD]
  simp [sampleFrames]

/-- The clamp's bits over one frame, by the mode CTRL holds (R265, R266). -/
theorem exists_frame_samples_iff (s : State) (n : Nat) (k : Nat) :
    (∃ i < n, ∃ x ∈ (sampleFrame i s).samples Config.machine s.mono, (saneEvents Config.machine x).getLsbD k = true) ↔
      (s.ctrl = 0#1 ∧ ∃ i < n, (saneEvents Config.machine (sampleFrame i s).left).getLsbD k = true ∨
        (saneEvents Config.machine (sampleFrame i s).right).getLsbD k = true) ∨
      (s.ctrl = 1#1 ∧ ∃ i < n, (saneEvents Config.machine ((sampleFrame i s).mono Config.machine)).getLsbD k = true) := by
  rcases BitVec.eq_zero_or_eq_one s.ctrl with h | h
  · simp [mono_eq_false h, h, Frame.samples]
  · simp [mono_eq_true h, h, Frame.samples]

/-- ILLEGAL, BUSERR and HAZ are as they were, and so is PLOW if no sample flags it. -/
theorem getLsbD_render_status_low (n : Nat) (s : State) {k : Nat} (hk : k < 4) (hplow : k = 3 → samplesPlow n s = false) :
    (render Config.machine n s).status.getLsbD k = s.status.getLsbD k := by
  have hmask : (Event.plow.maskIf (samplesPlow n s)).getLsbD k = false :=
    Bool.eq_false_iff.2 fun h => by
      obtain ⟨h3, hp⟩ := (getLsbD_plow_maskIf _ k).1 h
      exact Bool.false_ne_true ((hplow h3).symm.trans hp)
  rw [render_status_raised, BitVec.getLsbD_or, BitVec.getLsbD_or, hmask, blockEvents_low _ _ _ hk, Bool.or_false, Bool.or_false]

/-- RENDER flags NONFINITE only together with MUTED (R302). -/
theorem render_muted_of_nonfinite (n : Nat) (s : State) (h : (render Config.machine n s).status.getLsbD 6 = true) :
    s.status.getLsbD 6 = true ∨ (render Config.machine n s).status.getLsbD 5 = true := by
  rw [getLsbD_render_status] at h
  rcases h with h | ⟨h, -⟩ | ⟨i, hi, x, hx, h⟩
  · exact .inl h
  · cases h
  · exact .inr ((getLsbD_render_status n s 5).2 (.inr (.inr ⟨i, hi, x, hx, (saneEvents_bits _ x).2 h⟩)))

/-- Settles O48: the bits of STATUS after RENDER are those before it, PLOW of a sample's mix, and the clamp's. -/
theorem renderStatusBits : Obligations.RenderStatusBits := by
  refine fun n s hn => ⟨_, execRender_next hn s, fun k => ?_, fun k hk => (getLsbD_render_status n s k).2 (.inl hk),
    fun k hk => getLsbD_render_status_low n s (by omega) (by omega), render_muted_of_nonfinite n s,
    fun hperiods => getLsbD_render_status_low n s (by omega) fun _ => State.PeriodsHigh.not_samplesPlow hperiods n⟩
  rw [getLsbD_render_status, exists_frame_samples_iff]
  simp only [samplePlow_iff]
  rfl

end Sys2Proof.Machine
end

section
/-! PROOFS. What one instruction and one step can do to STATUS, and that each has a next state (spec/60_exceptions.md R300,
R310): O3 and O53. -/
namespace Sys2Proof.Machine

/-! ### Every step completes -/

theorem step_of_powerOnReset {s : State} {rest : List HostInput} (h : s.pending = .powerOnReset :: rest) :
    step s = .next (powerOn { s with pending := rest }) := by
  simp only [step, takeInput, h]

theorem exec_next (i : Instr) (s : State) : ∃ t, exec i s = .next t := by
  obtain ⟨t, h, -⟩ := exec_mem i s
  exact ⟨t, h⟩

theorem step_next (s : State) : ∃ t, step s = .next t := by
  cases hpending : s.pending with
  | nil => exact ⟨s, step_of_empty hpending⟩
  | cons x rest =>
    cases x with
    | powerOnReset => exact ⟨_, step_of_powerOnReset hpending⟩
    | bus r =>
      rw [step_of_pending hpending]
      exact exec_next _ _

/-- Settles O3: each instruction's answer is a next state, and a step waits, powers on, or runs one instruction. -/
theorem nothingStopsTheBlock : Obligations.NothingStopsTheBlock := ⟨exec_next, step_next⟩

/-! ### STATUS over one instruction -/

/-- A command only raises bits of STATUS (R300). -/
theorem exec_command_status {i : Instr} (hi : i.isCommand = true) (s : State) :
    ∃ t e, exec i s = .next t ∧ t.status = s.status ||| e := by
  cases i with
  | envReset v | voiceReset v => exact ⟨_, _, rfl, rfl⟩
  | render n =>
    by_cases hn : n ≤ blockMax
    · exact ⟨_, _, execRender_next hn s, render_status_raised n s⟩
    · exact ⟨s.flag .illegal, _, if_neg hn, rfl⟩
  | rd a | wr a w => cases hi
  | _ => exact ⟨_, 0#7, rfl, BitVec.or_zero.symm⟩

theorem exec_wr_cmd_command (s : State) {w : Word} {i : Instr} (h : decodeCommand w = .command i) :
    exec (.wr cmdAddr w) s = exec i s := commandWriteRunsTheCommand s w i h

theorem exec_rd_status (a : Addr) (s : State) : ∃ t e, exec (.rd a) s = .next t ∧ t.status = s.status ||| e := by
  cases hreg : regOf a with
  | none => exact ⟨_, _, exec_rd_unmapped s hreg, rfl⟩
  | some r => exact ⟨_, 0#7, reads_of_regOf s hreg, BitVec.or_zero.symm⟩

/-- A write only raises bits of STATUS, or is the write to STATUS (R155, R300). -/
theorem exec_wr_status (a : Addr) (w : Word) (s : State) :
    (∃ t e, exec (.wr a w) s = .next t ∧ t.status = s.status ||| e) ∨
    (a = 0x0000C#17 ∧ exec (.wr a w) s = .next (s.writeReg w .status)) := by
  cases hreg : regOf a with
  | none => exact .inl ⟨_, _, exec_wr_unmapped s w hreg, rfl⟩
  | some r =>
    rcases access_cases r with rfl | rfl | hro | hrw
    · refine .inl ?_
      obtain rfl : cmdAddr = a := addrOf_of_regOf hreg
      cases hw : decodeCommand w with
      | command i =>
        obtain ⟨-, -, hi⟩ := encodeAfterDecode w i hw
        rw [exec_wr_cmd_command s hw]
        exact exec_command_status hi s
      | illegal why =>
        exact ⟨_, _, exec_wr_cmd_illegal s ((legalCommandWord_eq_false_iff_illegal w).2 ⟨why, hw⟩), rfl⟩
    · exact .inr ⟨(addrOf_of_regOf hreg).symm, exec_wr_stores s w hreg (.inl rfl)⟩
    · exact .inl ⟨_, _, exec_wr_readOnly s w hreg hro, rfl⟩
    · refine .inl ⟨_, 0#7, exec_wr_stores s w hreg (.inr hrw), ?_⟩
      rw [writeReg_status s w (by rintro rfl; cases hrw), BitVec.or_zero]

/-- Both spellings of a command are one meaning, so a write is run as a write (R131, R153). -/
theorem exec_decodeRequest_write (a : Addr) (w : Word) (s : State) :
    exec (decodeRequest (.write a w)) s = exec (.wr a w) s := by
  by_cases ha : a = cmdAddr
  · subst ha
    cases hw : decodeCommand w with
    | command i => rw [decodeRequest_cmd_of_command hw, exec_wr_cmd_command s hw]
    | illegal why => simp only [decodeRequest, if_true, hw]
  · simp only [decodeRequest, ha, if_false]

/-! ### STATUS over one step -/

/-- What a step can do to STATUS: raise bits, clear those a host write to STATUS names, or power on (R300). -/
theorem step_status_cases {s t : State} (h : step s = .next t) :
    (∃ e, t.status = s.status ||| e) ∨ (∃ rest, s.pending = .powerOnReset :: rest) ∨
    ∃ w rest, s.pending = .bus (.write 0x0000C#17 w) :: rest ∧ t.status = (s.writeReg w .status).status := by
  cases hpending : s.pending with
  | nil =>
    cases h.symm.trans (step_of_empty hpending)
    exact .inl ⟨0#7, BitVec.or_zero.symm⟩
  | cons x rest =>
    cases x with
    | powerOnReset => exact .inr (.inl ⟨rest, rfl⟩)
    | bus r =>
      rw [step_of_pending hpending] at h
      cases r with
      | read a =>
        obtain ⟨t', e, ht, he⟩ := exec_rd_status a { s with pending := rest }
        cases h.symm.trans ht
        exact .inl ⟨e, he⟩
      | write a w =>
        rw [exec_decodeRequest_write] at h
        rcases exec_wr_status a w { s with pending := rest } with ⟨t', e, ht, he⟩ | ⟨rfl, ht⟩
        · cases h.symm.trans ht
          exact .inl ⟨e, he⟩
        · cases h.symm.trans ht
          exact .inr (.inr ⟨w, rest, rfl, rfl⟩)

/-- Settles O53: of the ways a step can change STATUS only a write of 1 to the bit and power-on reset clear it. -/
theorem statusBitsAreSticky : Obligations.StatusBitsAreSticky := by
  intro s t k h hk
  rcases step_status_cases h with ⟨e, he⟩ | hreset | ⟨w, rest, hpending, hstatus⟩
  · exact .inl (by rw [he, BitVec.getLsbD_or, hk, Bool.true_or])
  · exact .inr (.inl hreset)
  · have hlt : k < 7 := BitVec.lt_of_getLsbD hk
    cases hw : w.getLsbD k with
    | true => exact .inr (.inr ⟨w, rest, hpending, hw⟩)
    | false => exact .inl (by rw [hstatus, getLsbD_writeReg_status s w hlt, hk, hw]; rfl)

end Sys2Proof.Machine
end

section
/-! PROOFS. Power-on: the state it leaves, which meets both invariants, and the RENDER that follows it at once
(spec/70_reset_and_hazards.md R330, R331, spec/10_state.md R60): O1, O56, O52. -/
namespace Sys2Proof.Machine
open Safety (sampleState)

/-! ### The registers after power-on -/

@[simp] theorem State.voice_powerOn (s : State) (v : Fin maxVoices) : (powerOn s).voice v = Voice.reset :=
  State.voice_reset v

theorem Env.reset_inactive : Env.reset.isActive Config.machine = false := Env.clear_inactive Env.reset

theorem Env.reset_not_isInAttack : Env.reset.isInAttack Config.machine = false := by decide +kernel

/-- A mask is 0 when no voice meets its predicate (R36). -/
theorem voiceMask_eq_zero {p : Env → Bool} {vs : Vector Voice maxVoices} (h : ∀ v, p (vs.get v).env = false) :
    voiceMask p vs = 0#32 :=
  List.foldl_fixed' (fun v => by rw [h v, if_neg Bool.false_ne_true, BitVec.add_zero]) voiceOrder

theorem voiceMask_powerOn {p : Env → Bool} (h : p Env.reset = false) (s : State) :
    voiceMask p (powerOn s).voices = 0#32 :=
  voiceMask_eq_zero fun v => (congrArg (fun x : Voice => p x.env) (s.voice_powerOn v)).trans h

/-- Every row of the table of R330: the two masks by the predicates of an envelope at rest, a voice's rows by the voice after
power-on, the RAM's rows by the empty memory, and the others by what power-on stores. -/
theorem powerOnValues_powerOn (s : State) : Safety.PowerOnValues (powerOn s) where
  id := rfl
  cmd := rfl
  arg := rfl
  status := rfl
  ctrl := rfl
  activeMask := voiceMask_powerOn Env.reset_inactive s
  attackMask := voiceMask_powerOn Env.reset_not_isInAttack s
  blockLen := rfl
  noiseState := rfl
  noiseMix := rfl
  outTarget := rfl
  outMul := rfl
  outGain := rfl
  note v := by rw [State.voice_powerOn]; rfl
  pan v := by rw [State.voice_powerOn]; exact ⟨rfl, rfl⟩
  saw v := by rw [State.voice_powerOn]; rfl
  env v := by rw [State.voice_powerOn]; rfl
  osc v o := by rw [State.voice_powerOn, Voice.oscOf_reset]; rfl
  outL i := readWord_nil _
  outR i := readWord_nil _

/-- Settles O1: State.reset is what power-on makes of itself, and the input's step is power-on with the input taken off. -/
theorem powerOnSetsEveryRegister : Obligations.PowerOnSetsEveryRegister :=
  ⟨powerOnValues_powerOn State.reset, fun s =>
    ⟨powerOn s, step_of_powerOnReset rfl, powerOnValues_powerOn s, rfl, rfl, rfl⟩⟩

/-! ### The invariants at reset -/

/-- Settles O56: the memory is empty, so every word of the RAM reads +0.0, a sane sample. -/
theorem resetMeetsInvariants : Obligations.ResetMeetsInvariants := by
  have hzero : Safety.saneSample 0#32 = true := by decide +kernel
  refine ⟨⟨⟨.nil, nofun⟩, nofun, Nat.zero_le _⟩, fun i _ => ?_⟩
  exact (congrArg Safety.saneSample (readWord_nil _)).trans hzero

/-! ### RENDER right after power-on -/

theorem State.reset_silent : State.reset.Silent := fun v => by
  rw [State.voice_reset]
  exact Env.reset_inactive

/-- OUT_GAIN stands at OUT_TARGET, which is finite, and stays there. -/
theorem onePole_reset :
    onePole State.reset.outMul State.reset.outGain State.reset.outTarget = State.reset.outGain :=
  onePole_target_of_finite (mult := State.reset.outMul) (target := State.reset.outTarget) (by decide) (by decide)

/-- The turns of the loop draw noise and do nothing else. -/
theorem sampleState_reset (n : Nat) : sampleState n State.reset =
    { State.reset with noiseState := (noiseAdvance Config.machine)^[n] State.reset.noiseState } := by
  have hgain := Function.iterate_fixed (f := fun g => onePole State.reset.outMul g State.reset.outTarget) onePole_reset n
  rw [sampleState_of_silent State.reset_silent, hgain]

/-- Every sample is +0.0 on both channels. -/
theorem sampleFrames_reset (n : Nat) :
    sampleFrames n State.reset = List.replicate n ⟨F32.zero false, F32.zero false⟩ := by
  have hsample : silentSample State.reset.outMul State.reset.outTarget = F32.zero false :=
    silentSample_of_finite (by decide)
  simp only [sampleFrames, sampleFrame_of_silent State.reset_silent rfl, hsample, List.map_const', List.length_range]

/-- The clamp flags nothing over them. -/
theorem blockEvents_reset (mono : Bool) (n : Nat) :
    blockEvents Config.machine mono (sampleFrames n State.reset) = 0#7 := by
  obtain ⟨-, hevents, hmono⟩ := sane_zero false
  rw [sampleFrames_reset, blockEvents_replicate mono n hmono, hevents, ite_self]

/-- Words of +0.0 written over an empty memory list nothing. -/
theorem Memory.writeWords_nil_zeros (n : Nat) : ∀ a, Memory.writeWords [] a (List.replicate n 0#32) = [] := by
  induction n with
  | zero => exact fun _ => rfl
  | succ n ih => exact fun a => ih (a + 4)

theorem clampedWords_reset {f : Frame → F32} (hf : f ⟨F32.zero false, F32.zero false⟩ = F32.zero false) (n : Nat) :
    clampedWords f n State.reset = List.replicate n 0#32 := by
  obtain ⟨hword, -, -⟩ := sane_zero false
  rw [clampedWords, sampleFrames_reset, List.map_replicate, List.map_replicate, hf, hword]
  rfl

theorem render_reset_mem (n : Nat) : (render Config.machine n State.reset).mem = [] := by
  have hmem : State.reset.mem = [] := rfl
  rw [render_mem_stereo n rfl, clampedWords_reset rfl, clampedWords_reset rfl, hmem, Memory.writeWords_nil_zeros,
    Memory.writeWords_nil_zeros]

/-- Where no event is flagged, STATUS is kept. -/
theorem State.written_no_events (s : State) (m : Memory) (len : Word) :
    s.written 0#7 m len = { s with mem := m, blockLen := len } :=
  congrArg (fun b => { s with status := b, mem := m, blockLen := len }) BitVec.or_zero

theorem Voice.retire_reset : Voice.reset.retire Config.machine = Voice.reset :=
  if_neg (Bool.eq_false_iff.1 Env.reset_inactive)

/-- Retirement finds every voice as it would leave it. -/
theorem retire_sampleState_reset (n : Nat) :
    retire Config.machine (sampleState n State.reset) = sampleState n State.reset := by
  have hvoices : State.reset.voices.map (Voice.retire Config.machine) = State.reset.voices :=
    Vector.map_replicate.trans (congrArg (Vector.replicate maxVoices) Voice.retire_reset)
  rw [sampleState_reset, retire, hvoices]

/-- Settles O52: no voice is active and the gain is settled, so the turns draw noise only, every word is +0.0, and neither the
clamp nor the retirement finds anything to do. -/
theorem renderAfterPowerOnIsSilent : Obligations.RenderAfterPowerOnIsSilent := by
  refine fun n hn => (execRender_next hn State.reset).trans (congrArg Host.Outcome.next ?_)
  rw [render_eq_written, retire_sampleState_reset, blockEvents_reset, State.written_no_events, render_reset_mem,
    sampleState_reset]
  rfl

end Sys2Proof.Machine
end
